-- ==== Sys2Proof/Word.lean ====
section
/-! DEFINITION. The word types of the core and their plainest arithmetic (00_scope.md R7, R9, R10). -/

namespace Sys2Proof

/-- A byte, 0…255 (R9). -/
abbrev Byte := BitVec 8

/-- The 16-bit distance word `v` of M3 and M4 tokens (20_memory.md R64). -/
abbrev Half := BitVec 16

/-- A host-visible register, `REGW` = 32 bits (00_scope.md R7). -/
abbrev Word := BitVec 32

/-- The byte of a number that the rules keep below 256. -/
abbrev byte (n : Nat) : Byte := BitVec.ofNat 8 n

/-- The register value of a number that the rules keep below 2^32. -/
abbrev word (n : Nat) : Word := BitVec.ofNat 32 n

/-- The field of `len` bits of `v` whose lowest bit is bit `lo` (R10, `bits[hi:lo]`). -/
abbrev field {w : Nat} (lo len : Nat) (v : BitVec w) : BitVec len := v.extractLsb' lo len

end Sys2Proof
end

