-- ==== Sys2Proof/Config.lean ====
section
/-! DEFINITION. What is fixed for this hardware (00_scope.md R7, R8; 30_encoding.md R93) and the free values, which
the spec leaves open (93_implementation_defined.md U1, U2, U6, U7): constants with no body. -/

namespace Sys2Proof.Config

/-- `BUF_MAX` = 2^31 − 1, the largest value of a length or capacity register (R7, D3). -/
def bufMax : Nat := 2147483647

/-- `K_MAX` = floor(`BUF_MAX`/255) − 2, the most zero bytes the decoder accepts in one zero-extension (R7, R94, D4). -/
def kMax : Nat := bufMax / 255 - 2

/-- `OUT_LEN_MAX` = 255 · `K_MAX`, the largest value of `OUT_LEN` (R7, D4). -/
def outLenMax : Nat := 255 * kMax

/-- The base of a zero-extended literal run: 18 (R93). -/
def litBase : Nat := 18

/-- The base of a zero-extended M3 length: 33 (R93, recovered from S1). -/
def m3Base : Nat := 33

/-- `M4_ZEXT_BASE` = 9 (R93). PRESUMED by the spec itself, not in its source (G1, D23; log 11). Unsafe. -/
def m4Base : Nat := 9

/-- The `n`-th free word: what a host read of a position returns while the core is busy (U1; log 5). Safe: no body. -/
opaque freeWord : Nat → BitVec 32

/-- The free byte of a seed and an address: seed 0 is the power-on content (U6; log 3), a later seed the content an aborted
command left (U7; log 4) or one host read while busy (U2; log 6). Safe: no body. -/
opaque freeByte : Nat → Nat → BitVec 8

end Sys2Proof.Config
end

