-- ==== Sys2Proof/Syntax.lean ====
section
/-! DEFINITION. The instructions: one constructor per mnemonic of spec/opcode_table.json (00_scope.md R16,
30_encoding.md R106), eleven token classes of the LZO1X stream and six host commands. -/

namespace Sys2Proof

/-- The error taxonomy (60_exceptions.md R200). `none` is code 0, no error; `inputTooLarge` (7) is never raised. -/
inductive ErrCode where
  | none
  | emptyInput
  | optionsRequired
  | inputOverrun
  | outputOverrun
  | lookbehindUnderrun
  | unexpectedEof
  | inputTooLarge
  | compressInternal
  deriving DecidableEq, Repr

/-- What the decoder got where a token's operand bytes are due. `failed e`: reading them raised `e`, because the input
ends there (`INPUT_OVERRUN`, 41_decoder.md R124) or a zero run passed the cap (`OUTPUT_OVERRUN`, R125); the token is
still that token, and the error is its own (log 14). -/
inductive Operand (α : Type) where
  | got (a : α)
  | failed (e : ErrCode)
  deriving DecidableEq, Repr

/-- A zero-extension: `k` zero bytes and then the byte `b` ≠ 0 (30_encoding.md R92). -/
structure Zext where
  k : Nat
  b : Byte
  deriving DecidableEq, Repr

/-- The instructions. A token's fields are those of its format (30_encoding.md R84 to R91); literal bytes are no field:
the token copies them from the stream. A command has no operand field (R103): its operands are registers. -/
inductive Instr where
  /-- INIT_LIT: `n` = byte0 − 17 (R91). -/
  | initLit (n : Byte)
  /-- LIT: `l` = byte0[3:0] = len − 3 (R90). -/
  | lit (l : BitVec 4)
  /-- LIT_X: the zero-extended literal run (R90, R92). -/
  | litX (x : Operand Zext)
  /-- M1: `d` = byte0[3:2], `s` = byte0[1:0], `next` = byte1 (R84). -/
  | m1 (d s : BitVec 2) (next : Operand Byte)
  /-- M1B: the layout of M1 (R85). -/
  | m1b (d s : BitVec 2) (next : Operand Byte)
  /-- M2: `l` = byte0[7:5] = len − 1, `d` = byte0[4:2], `s` = byte0[1:0], `next` = byte1 (R86). -/
  | m2 (l d : BitVec 3) (s : BitVec 2) (next : Operand Byte)
  /-- M3: `l` = byte0[4:0] = len − 2, `v` the distance word (R87). -/
  | m3 (l : BitVec 5) (v : Operand Half)
  /-- M3_X: M3 with a zero-extended length (R87, R92). -/
  | m3X (x : Operand Zext) (v : Operand Half)
  /-- M4: `h` = byte0[3], `l` = byte0[2:0] = len − 2, `v` the distance word (R88). -/
  | m4 (h : BitVec 1) (l : BitVec 3) (v : Operand Half)
  /-- M4_X: M4 with a zero-extended length (R88, R92). -/
  | m4X (h : BitVec 1) (x : Operand Zext) (v : Operand Half)
  /-- TERM: `lo` = byte1[1:0], which is ignored (R89). -/
  | term (lo : BitVec 2)
  | decStart
  | brcCopy
  | encLit
  | encMatch
  | encTerm
  | encQuery
  deriving DecidableEq, Repr

/-- The mnemonic of spec/opcode_table.json. -/
def Instr.mnemonic : Instr → String
  | .initLit _ => "INIT_LIT"
  | .lit _ => "LIT"
  | .litX _ => "LIT_X"
  | .m1 _ _ _ => "M1"
  | .m1b _ _ _ => "M1B"
  | .m2 _ _ _ _ => "M2"
  | .m3 _ _ => "M3"
  | .m3X _ _ => "M3_X"
  | .m4 _ _ _ => "M4"
  | .m4X _ _ _ => "M4_X"
  | .term _ => "TERM"
  | .decStart => "DEC_START"
  | .brcCopy => "BRC_COPY"
  | .encLit => "ENC_LIT"
  | .encMatch => "ENC_MATCH"
  | .encTerm => "ENC_TERM"
  | .encQuery => "ENC_QUERY"

/-- A token of the stream, as against a host command (R16). -/
def Instr.isToken : Instr → Bool
  | .initLit _ | .lit _ | .litX _ | .m1 _ _ _ | .m1b _ _ _ | .m2 _ _ _ _ | .m3 _ _ | .m3X _ _ | .m4 _ _ _
  | .m4X _ _ _ | .term _ => true
  | .decStart | .brcCopy | .encLit | .encMatch | .encTerm | .encQuery => false

end Sys2Proof
end

