-- ==== Sys2Proof/Machine/State.lean ====
section
/-! DEFINITION. The state of the core as plain data (10_state.md R22 to R48), the host's coming actions, and the state
after reset (70_reset_and_hazards.md R230, R231). -/

namespace Sys2Proof.Machine

/-- The four buffers (20_memory.md R60). -/
inductive Buffer where
  | src
  | dst
  | esrc
  | eout
  deriving DecidableEq, Repr

/-- `PHASE`, the one piece of internal state (10_state.md R40). -/
inductive Phase where
  | idle
  | decFirst
  | decLoop
  | brcRun
  | encLitRun
  | encMatchRun
  | encTermRun
  | encQueryRun
  deriving DecidableEq, Repr

/-- The six commands (10_state.md R23). -/
inductive Command where
  | decStart
  | brcCopy
  | encLit
  | encMatch
  | encTerm
  | encQuery
  deriving DecidableEq, Repr

/-- `STATUS.ENC_LAST`: NONE, LIT, MATCH, TERM (10_state.md R38). -/
inductive EncLast where
  | none
  | literal
  | matched
  | terminated
  deriving DecidableEq, Repr

/-- The host-visible registers (10_state.md R22). -/
inductive Reg where
  | cmd
  | status
  | inLen
  | outLen
  | inPos
  | outPos
  | brcPos
  | brcDist
  | brcLen
  | esrcLen
  | eoutCap
  | eoutPos
  | encLstart
  | encLlen
  | encMlen
  | encMdist
  | encPlit
  | encQlen
  deriving DecidableEq, Repr

/-- The memory that the platform attaches to a buffer port: `size` addresses of the platform's memory from `base` up
(20_memory.md R60, R74; log 8). -/
structure Window where
  base : Nat
  size : Nat
  deriving DecidableEq, Repr

/-- One action of the host (10_state.md R20, R42 to R45; 20_memory.md R69; 70_reset_and_hazards.md R230, R233). Addresses
are the host's; widths are in bits. `attach`: a buffer is attached to a memory, or re-attached (R233; log 8). `core`: the
host lets the core take a step (log 1). -/
inductive HostAction where
  | write (addr width : Nat) (value : Word)
  | read (addr width : Nat)
  | bufWrite (b : Buffer) (off : Nat) (value : Byte)
  | bufRead (b : Buffer) (off : Nat)
  | attach (b : Buffer) (w : Window)
  | reset
  | core
  deriving DecidableEq, Repr

/-- The OPEN parameters of the platform (00_scope.md R7): `REG_BASE`, which no step writes, and the memory attached to each
buffer, which the host's `attach` writes (log 9). -/
structure Platform where
  regBase : Nat
  src : Window
  dst : Window
  esrc : Window
  eout : Window
  deriving DecidableEq, Repr

/-- The addresses `lo` to `hi` − 1 of the memory, left unspecified by an aborted command (70_reset_and_hazards.md R232;
log 4): where no byte has been written since, they read as free bytes of this seed. -/
structure Void where
  lo : Nat
  hi : Nat
  seed : Nat
  deriving DecidableEq, Repr

/-- The bytes of the memory that have been written, by strictly rising address (log 3). -/
abbrev Memory := List Host.Cell

/-- The state (10_state.md R48). `mem` is the platform's memory, which holds the contents of the four buffers, each seen
through its window of `platform` (20_memory.md R60, R72; log 8). The fields after those two are the model's own. -/
structure State where
  phase : Phase
  done : Bool
  err : Bool
  olset : Bool
  errcode : ErrCode
  dstate : BitVec 3
  encLast : EncLast
  inLen : Word
  outLen : Word
  inPos : Word
  outPos : Word
  brcPos : Word
  brcDist : Word
  brcLen : Word
  esrcLen : Word
  eoutCap : Word
  eoutPos : Word
  encLstart : Word
  encLlen : Word
  encMlen : Word
  encMdist : Word
  encPlit : Word
  encQlen : Word
  mem : Memory
  platform : Platform
  voids : List Void
  host : List HostAction
  rdata : Word
  freeCount : Nat
  deriving DecidableEq, Repr

/-- Why the machine stops. -/
inductive Fault where
  /-- Raised by a core step whose command's bounding register exceeds the memory attached to the buffer, and by a host
  access past that memory: platform behaviour the spec does not define (20_memory.md R62; U5; log 9). Safe. -/
  | beyondAttached (b : Buffer)
  deriving DecidableEq, Repr

/-- What has no meaning. -/
inductive Refusal where
  /-- Raised by exec for an instruction that is not modelled yet. Safe. -/
  | notModelled (mnemonic : String)
  /-- Raised by a host write to a byte of a buffer that the running command reads or writes, and by attaching such a buffer:
  the result is unspecified (70_reset_and_hazards.md R243, R233; U3, treatment `refuse`; logs 7, 8). Safe. -/
  | bufferInUse (b : Buffer)
  /-- Raised by a core step of a command that uses two buffers which must be disjoint and whose memories overlap: its result
  is unspecified (20_memory.md R72; U4, treatment `refuse`; log 24). Safe. -/
  | buffersOverlap (b c : Buffer)
  deriving DecidableEq, Repr

/-- The platform the reset state names: 2^31 bytes a buffer, side by side. DESIGN CHOICE (log 9). -/
def Platform.default : Platform :=
  { regBase := 0
    src := { base := 0, size := 2147483648 }
    dst := { base := 2147483648, size := 2147483648 }
    esrc := { base := 4294967296, size := 2147483648 }
    eout := { base := 6442450944, size := 2147483648 } }

/-- The state right after reset (70_reset_and_hazards.md R230, R231): every register 0, `PHASE` = `IDLE`, nothing known of
the memory, no host action pending. -/
def State.reset : State :=
  { phase := .idle, done := false, err := false, olset := false, errcode := .none, dstate := 0, encLast := .none,
    inLen := 0, outLen := 0, inPos := 0, outPos := 0, brcPos := 0, brcDist := 0, brcLen := 0,
    esrcLen := 0, eoutCap := 0, eoutPos := 0, encLstart := 0, encLlen := 0, encMlen := 0, encMdist := 0,
    encPlit := 0, encQlen := 0, mem := [],
    platform := Platform.default, voids := [], host := [], rdata := 0, freeCount := 0 }

end Sys2Proof.Machine
end

