-- ==== Sys2Proof/Machine/Flags.lean ====
section
/-! DEFINITION. The condition state: the codes and the bits of `STATUS` (10_state.md R24, R36 to R39; 60_exceptions.md
R200) and the decoder state after a literal run. There are no arithmetic flags (R39). -/

namespace Sys2Proof.Machine

/-- The number of an error code (60_exceptions.md R200). -/
def errNumber : ErrCode → BitVec 4
  | .none => 0
  | .emptyInput => 1
  | .optionsRequired => 2
  | .inputOverrun => 3
  | .outputOverrun => 4
  | .lookbehindUnderrun => 5
  | .unexpectedEof => 6
  | .inputTooLarge => 7
  | .compressInternal => 8

/-- The number of an `ENC_LAST` kind (10_state.md R38). -/
def encLastNumber : EncLast → BitVec 2
  | .none => 0
  | .literal => 1
  | .matched => 2
  | .terminated => 3

/-- `STATUS.BUSY`: `PHASE` ≠ `IDLE` (R24, R40). -/
def State.busy (s : State) : Bool := s.phase != .idle

/-- The word `STATUS` with a given `DSTATE` field: the fields from bit 31 down to bit 0, reserved bits 0 (R24). -/
def statusWith (dstate : BitVec 3) (s : State) : Word :=
  (0#10 ++ encLastNumber s.encLast ++ 0#1 ++ dstate ++ 0#4 ++ errNumber s.errcode ++ 0#4
    ++ BitVec.ofBool s.olset ++ BitVec.ofBool s.err ++ BitVec.ofBool s.done ++ BitVec.ofBool s.busy : BitVec 32)

/-- The word `STATUS` (R24). -/
def statusWord (s : State) : Word := statusWith s.dstate s

/-- `DSTATE` after the initial literal run of `n` bytes: min(n, 4) (41_decoder.md R130). -/
def initDstate (n : Nat) : BitVec 3 := BitVec.ofNat 3 (min n 4)

/-- `DSTATE` after LIT and LIT_X: 4 (R131, R132). -/
def runDstate : BitVec 3 := 4

/-- `DSTATE` after a match: its trailing-literal count (R127). -/
def trailDstate (k : BitVec 2) : BitVec 3 := k.setWidth 3

end Sys2Proof.Machine
end

