-- ==== Sys2Proof/Machine/Operands.lean ====
section
/-! DEFINITION. What a token's fields stand for: lengths, distances and trailing-literal counts, one formula per format
(30_encoding.md R84 to R93, 41_decoder.md R130 to R139). -/

namespace Sys2Proof.Machine

/-- `base + 255·k + b` (R92, R93). -/
def zextLen (base : Nat) (z : Zext) : Nat := base + 255 * z.k + z.b.toNat

/-- `t + 3` (R90). -/
def litLen (l : BitVec 4) : Nat := l.toNat + 3

/-- `(t >> 2) + (next << 2) + 1`, where `t >> 2` is the field `D` (R84). -/
def m1Dist (d : BitVec 2) (next : Byte) : Nat := d.toNat + (next.toNat <<< 2) + 1

/-- `0x0800 + 1 + (t >> 2) + (next << 2)` (R85). -/
def m1bDist (d : BitVec 2) (next : Byte) : Nat := 0x0800 + 1 + d.toNat + (next.toNat <<< 2)

/-- `(next << 3) + ((t >> 2) & 7) + 1` (R86). -/
def m2Dist (d : BitVec 3) (next : Byte) : Nat := (next.toNat <<< 3) + d.toNat + 1

/-- `(t >> 5) + 1` (R86). -/
def m2Len (l : BitVec 3) : Nat := l.toNat + 1

/-- `(t & 31) + 2` (R87). -/
def m3Len (l : BitVec 5) : Nat := l.toNat + 2

/-- `(v >> 2) + 1` (R87). -/
def m3Dist (v : Half) : Nat := (v.toNat >>> 2) + 1

/-- `(t & 7) + 2` (R88). -/
def m4Len (l : BitVec 3) : Nat := l.toNat + 2

/-- `dist_base` = `((t & 8) << 11) + (v >> 2)`, where `t & 8` is 8·`H` (R88). -/
def m4DistBase (h : BitVec 1) (v : Half) : Nat := ((h.toNat <<< 3) <<< 11) + (v.toNat >>> 2)

/-- `dist_base + 0x4000` (R88). -/
def m4Dist (h : BitVec 1) (v : Half) : Nat := m4DistBase h v + 0x4000

/-- `v & 3`, the trailing-literal count of M3 and M4 (R87, R88, R96). -/
def wordTrail (v : Half) : BitVec 2 := field 0 2 v

/-- The `(len, dist, S)` of a match token whose operands are there: what it copies and how many trailing literals follow
(R84 to R88). An M4 or M4_X token with `dist_base` = 0 is no match (R89). -/
def matchOperands : Instr → Option (Nat × Nat × BitVec 2)
  | .m1 d s (.got next) => some (2, m1Dist d next, s)
  | .m1b d s (.got next) => some (3, m1bDist d next, s)
  | .m2 l d s (.got next) => some (m2Len l, m2Dist d next, s)
  | .m3 l (.got v) => some (m3Len l, m3Dist v, wordTrail v)
  | .m3X (.got z) (.got v) => some (zextLen Config.m3Base z, m3Dist v, wordTrail v)
  | .m4 h l (.got v) => if m4DistBase h v = 0 then none else some (m4Len l, m4Dist h v, wordTrail v)
  | .m4X h (.got z) (.got v) =>
    if m4DistBase h v = 0 then none else some (zextLen Config.m4Base z, m4Dist h v, wordTrail v)
  | .m1 _ _ (.failed _) | .m1b _ _ (.failed _) | .m2 _ _ _ (.failed _) | .m3 _ (.failed _) => none
  | .m3X (.failed _) _ | .m3X (.got _) (.failed _) => none
  | .m4 _ _ (.failed _) | .m4X _ (.failed _) _ | .m4X _ (.got _) (.failed _) => none
  | .initLit _ | .lit _ | .litX _ | .term _ => none
  | .decStart | .brcCopy | .encLit | .encMatch | .encTerm | .encQuery => none

/-- The `(n, next DSTATE)` of a literal-run token whose operands are there (R90, R91, R130 to R132). -/
def literalOperands : Instr → Option (Nat × BitVec 3)
  | .initLit n => some (n.toNat, initDstate n.toNat)
  | .lit l => some (litLen l, runDstate)
  | .litX (.got z) => some (zextLen Config.litBase z, runDstate)
  | .litX (.failed _) => none
  | .m1 _ _ _ | .m1b _ _ _ | .m2 _ _ _ _ | .m3 _ _ | .m3X _ _ | .m4 _ _ _ | .m4X _ _ _ | .term _ => none
  | .decStart | .brcCopy | .encLit | .encMatch | .encTerm | .encQuery => none

end Sys2Proof.Machine
end

