-- ==== Sys2Proof/Machine/Ops.lean ====
section
/-! DEFINITION. The named operations over buffers and registers, each written once: byte reads and writes, the literal
copy, the back-reference copy, match execution, and the two ends of a command (an error and a success), a command's
acceptance and reset. -/

namespace Sys2Proof.Machine

/-! ### Buffers -/

/-- The canonical form: addresses strictly rising. An unlisted one has no known value, so no entry repeats it (log 3). -/
abbrev Memory.wf (m : Memory) : Prop := m.Pairwise fun x y => x.1 < y.1

/-- The byte listed at an address, if one is. -/
def Memory.get? : Memory → Nat → Option Byte
  | [], _ => none
  | (k, v) :: m, a => if k = a then some v else Memory.get? m a

/-- Store one byte (20_memory.md R65, R67). -/
def Memory.write : Memory → Nat → Byte → Memory
  | [], a, v => [(a, v)]
  | (k, x) :: m, a, v =>
    if a < k then (a, v) :: (k, x) :: m
    else if a = k then (a, v) :: m
    else (k, x) :: Memory.write m a v

/-- Read one byte; `free` gives the bytes nothing has written. -/
def Memory.read (free : Nat → Byte) (m : Memory) (a : Nat) : Byte := (m.get? a).getD (free a)

/-- Store `f 0`, `f 1`, …, `f (n − 1)` from address `p` up, in that order (R68). -/
def Memory.blit (m : Memory) (p : Nat) (f : Nat → Byte) : Nat → Memory
  | 0 => m
  | n + 1 => (m.blit p f n).write (p + n) (f n)

/-- Store a list of bytes from address `p` up. -/
def Memory.store (m : Memory) (p : Nat) : List Byte → Memory
  | [] => m
  | b :: bs => (m.write p b).store (p + 1) bs

/-- The copy loop of BackRefCopy (40_backref_copy.md R111, R112): byte by byte, iteration `n` after the first `n`, reading
what they wrote. -/
def Memory.copyBack (free : Nat → Byte) (m : Memory) (p dist : Nat) : Nat → Memory
  | 0 => m
  | n + 1 =>
    (Memory.copyBack free m p dist n).write (p + n)
      (Memory.read free (Memory.copyBack free m p dist n) (p - dist + n))

/-- Forget the bytes at addresses `lo` to `hi` − 1 (70_reset_and_hazards.md R232). -/
def Memory.forget (m : Memory) (lo hi : Nat) : Memory := m.filter fun c => !(lo ≤ c.1 && c.1 < hi)

/-- The window of a buffer (20_memory.md R60). -/
def Platform.window (p : Platform) : Buffer → Window
  | .src => p.src
  | .dst => p.dst
  | .esrc => p.esrc
  | .eout => p.eout

/-- The bytes of memory attached to a buffer (00_scope.md R7, `SRC_SIZE` to `EOUT_SIZE`). -/
def Platform.size (p : Platform) (b : Buffer) : Nat := (p.window b).size

/-- The platform with a buffer attached to a window (70_reset_and_hazards.md R233; log 8). -/
def Platform.attach (p : Platform) (b : Buffer) (w : Window) : Platform :=
  match b with
  | .src => { p with src := w }
  | .dst => { p with dst := w }
  | .esrc => { p with esrc := w }
  | .eout => { p with eout := w }

/-- The address lies in the window. -/
def Window.contains (w : Window) (a : Nat) : Bool := w.base ≤ a && a < w.base + w.size

/-- The windows have an address in common (20_memory.md R72). -/
def Window.overlaps (v w : Window) : Bool := max v.base w.base < min (v.base + v.size) (w.base + w.size)

/-- The address of an offset of a buffer (20_memory.md R74, R75). -/
def State.addr (s : State) (b : Buffer) (off : Nat) : Nat := (s.platform.window b).base + off

/-- The void covers the address. -/
def Void.covers (v : Void) (a : Nat) : Bool := v.lo ≤ a && a < v.hi

/-- The seed of an unlisted byte: that of the newest void over it, else 0, the power-on content. -/
def seedAt (voids : List Void) (a : Nat) : Nat :=
  match voids with
  | [] => 0
  | v :: vs => if v.covers a then v.seed else seedAt vs a

/-- What an unlisted address reads as: a free byte (70_reset_and_hazards.md R231, R232; U6, U7; logs 3, 4). -/
def State.unlisted (s : State) (a : Nat) : Byte := Config.freeByte (seedAt s.voids a) a

/-- The byte of the memory at an address. -/
def State.cell (s : State) (a : Nat) : Byte := s.mem.read s.unlisted a

/-- MemRead(S, a, 1) (00_scope.md R12): the byte at an offset of a buffer. -/
def State.byteAt (s : State) (b : Buffer) (off : Nat) : Byte := s.cell (s.addr b off)

/-- The `n` bytes that `f` gives from `a` up. -/
def bytesFrom (f : Nat → Byte) (a : Nat) : Nat → List Byte
  | 0 => []
  | n + 1 => f a :: bytesFrom f (a + 1) n

/-! ### The ends of a command -/

/-- The command that a phase runs (10_state.md R40). -/
def Phase.command? : Phase → Option Command
  | .idle => none
  | .decFirst | .decLoop => some .decStart
  | .brcRun => some .brcCopy
  | .encLitRun => some .encLit
  | .encMatchRun => some .encMatch
  | .encTermRun => some .encTerm
  | .encQueryRun => some .encQuery

/-- A command's first phase (10_state.md R23). -/
def Command.firstPhase : Command → Phase
  | .decStart => .decFirst
  | .brcCopy => .brcRun
  | .encLit => .encLitRun
  | .encMatch => .encMatchRun
  | .encTerm => .encTermRun
  | .encQuery => .encQueryRun

/-- The error end `raise E` of a command (60_exceptions.md R205), the core's only exception: the code is recorded, a decode
also clears its positions and state, and the core is idle. -/
def raise (c : Command) (e : ErrCode) (s : State) : State :=
  match c with
  | .decStart =>
    { s with err := true, done := false, errcode := e, inPos := 0, outPos := 0, dstate := 0, phase := .idle }
  | .brcCopy | .encLit | .encMatch | .encTerm | .encQuery =>
    { s with err := true, done := false, errcode := e, phase := .idle }

/-- The success end `finish` of a command (60_exceptions.md R206). -/
def finish (s : State) : State := { s with done := true, err := false, errcode := .none, phase := .idle }

/-- The acceptance of a command (10_state.md R23, 41_decoder.md R120): the core's return to work after an end (R208). -/
def accept (c : Command) (s : State) : State :=
  match c with
  | .decStart =>
    { s with done := false, err := false, errcode := .none, phase := .decFirst, inPos := 0, outPos := 0, dstate := 0 }
  | .brcCopy | .encLit | .encMatch | .encTerm | .encQuery =>
    { s with done := false, err := false, errcode := .none, phase := c.firstPhase }

/-- A command as an instruction (log 16): on an idle core it is accepted (R23); in its own run phase it takes its one core
step `run` (R46); while any other command runs it changes nothing (R23). -/
def commandStep (c : Command) (run : State → State) (s : State) : Host.Outcome State Fault Refusal :=
  if s.phase = .idle then .next (accept c s)
  else if s.phase = c.firstPhase then .next (run s)
  else .next s

/-! ### Copies -/

/-- BackRefCopy(p, dist, length) on `DST` (40_backref_copy.md R111): the lookbehind check, the output check, the copy. -/
def backRefCopy (p dist len : Nat) (s : State) : Except ErrCode Memory :=
  if dist < 1 ∨ p < dist then .error .lookbehindUnderrun
  else if s.outLen.toNat < p + len then .error .outputOverrun
  else .ok (Memory.copyBack s.unlisted s.mem (s.addr .dst p) dist len)

/-- CopyLiterals(n) (41_decoder.md R126): the output check, the input check, the copy, both positions. No literal is
written before it is read, since `SRC` and `DST` are disjoint where a token runs (20_memory.md R72; log 24). -/
def copyLiterals (n : Nat) (s : State) : Except ErrCode State :=
  if s.outLen.toNat < s.outPos.toNat + n then .error .outputOverrun
  else if s.inLen.toNat < s.inPos.toNat + n then .error .inputOverrun
  else .ok { s with
    mem := s.mem.blit (s.addr .dst s.outPos.toNat) (fun i => s.byteAt .src (s.inPos.toNat + i)) n
    outPos := word (s.outPos.toNat + n)
    inPos := word (s.inPos.toNat + n) }

/-- The literal run common to INIT_LIT, LIT and LIT_X: the copy, then `DSTATE` (R130 to R132). -/
def execLiterals (n : Nat) (dstate : BitVec 3) (s : State) : Except ErrCode State :=
  match copyLiterals n s with
  | .error e => .error e
  | .ok s' => .ok { s' with dstate := dstate }

/-- ExecMatch(dist, len, S) (41_decoder.md R127): the copy, `OUT_POS`, the trailing literals, `DSTATE`. -/
def execMatch (dist len : Nat) (k : BitVec 2) (s : State) : Except ErrCode State :=
  match backRefCopy s.outPos.toNat dist len s with
  | .error e => .error e
  | .ok m => execLiterals k.toNat (trailDstate k) { s with mem := m, outPos := word (s.outPos.toNat + len) }

/-- The end of a token that ran on `s`: its result, or the error end of the decode. On an error the token has written
nothing, since the error end is that of `s` (60_exceptions.md R207, 90_conflicts.md C10; log 10). -/
def endToken (s : State) : Except ErrCode State → Host.Outcome State Fault Refusal
  | .ok s' => .next s'
  | .error e => .next (raise .decStart e s)

/-- A token with one operand byte, word or extension: its read error, or the token on what was read. -/
def withOperand {α : Type} (x : Operand α) (run : α → Except ErrCode State) : Except ErrCode State :=
  match x with
  | .got a => run a
  | .failed e => .error e

/-- M4Tail (41_decoder.md R138, R141): the terminator, the malformed terminator, or the match. -/
def m4Tail (h : BitVec 1) (len : Nat) (v : Half) (s : State) : Except ErrCode State :=
  if m4DistBase h v = 0 then
    if len = 3 then .ok (finish s) else .error .inputOverrun
  else execMatch (m4Dist h v) len (wordTrail v) s

/-! ### Reset -/

/-- The range that the running command may have been writing when it is aborted (70_reset_and_hazards.md R232; log 4). -/
def abortRange (s : State) : Option (Buffer × Nat × Nat) :=
  match s.phase.command? with
  | none => none
  | some .decStart => some (.dst, 0, s.outLen.toNat)
  | some .brcCopy => some (.dst, s.brcPos.toNat, s.brcPos.toNat + s.brcLen.toNat)
  | some .encLit | some .encMatch | some .encTerm | some .encQuery =>
    some (.eout, s.eoutPos.toNat - 2, s.eoutCap.toNat)

/-- Leave the offsets `lo` to `hi` − 1 of a buffer unspecified, as far as memory is attached to it: forget their bytes and
name them void under a fresh seed. -/
def leaveVoid (b : Buffer) (lo hi : Nat) (s : State) : State :=
  { s with
    mem := s.mem.forget (s.addr b lo) (s.addr b (min hi (s.platform.size b)))
    voids := ⟨s.addr b lo, s.addr b (min hi (s.platform.size b)), s.freeCount + 1⟩ :: s.voids
    freeCount := s.freeCount + 1 }

/-- The registers and `PHASE` take their reset values; the memory stays (R230, R231; log 19). -/
def resetRegisters (s : State) : State :=
  { State.reset with
    mem := s.mem
    platform := s.platform, voids := s.voids, host := s.host, rdata := s.rdata, freeCount := s.freeCount }

/-- A reset (R230 to R232): it also aborts a running command, whose range is left unspecified. -/
def resetCore (s : State) : State :=
  match abortRange s with
  | none => resetRegisters s
  | some (b, lo, hi) => resetRegisters (leaveVoid b lo hi s)

end Sys2Proof.Machine
end

