-- ==== Sys2Proof/Machine/Serialize.lean ====
section
/-! DEFINITION. The token encoder's serialization (42_token_encoder.md R160 to R179): which form a literal run or a match
takes, its bytes and its cost, and the append common to the encoder commands. -/

namespace Sys2Proof.Machine

/-- ZextBytes(x), `x` ≥ 1 (R161): `k` = (x − 1) div 255 zero bytes, then `x − 255·k`. -/
def zextBytes (x : Nat) : List Byte :=
  List.replicate ((x - 1) / 255) 0 ++ [byte (x - 255 * ((x - 1) / 255))]

/-- How a literal run starts: with header bytes, or OR-ed into the match before it (R162). -/
inductive LitForm where
  | header (bytes : List Byte)
  | orInto
  deriving DecidableEq, Repr

/-- LitHeader(n) at stream position `p` (R162 to R167): the first row that applies. -/
def litForm (p n : Nat) : LitForm :=
  if p = 0 ∧ n ≤ 238 then .header [byte (17 + n)]
  else if n ≤ 3 then .orInto
  else if n ≤ 18 then .header [byte (n - 3)]
  else .header (0 :: zextBytes (n - Config.litBase))

/-- The match classes of R170. -/
inductive MatchClass where
  | m1
  | m1b
  | m2
  | m3
  | m3X
  | m4
  | m4X
  deriving DecidableEq, Repr

/-- Classify(len, dist, plit) (R170): the first row that applies; `none` is NE, not encodable. -/
def classify (len dist plit : Nat) : Option MatchClass :=
  if len < 2 ∨ dist < 1 then none
  else if len = 2 then if dist ≤ 1024 ∧ 1 ≤ plit ∧ plit ≤ 3 then some .m1 else none
  else if len ≤ 8 ∧ dist ≤ 2048 then some .m2
  else if len = 3 ∧ 2048 < dist ∧ dist ≤ 3072 ∧ 4 ≤ plit then some .m1b
  else if dist ≤ 16384 then if 33 < len then some .m3X else some .m3
  else if dist ≤ 0xBFFF then if 9 < len then some .m4X else some .m4
  else none

/-- The two bytes of M1 and M1B for an offset `d`: `(d & 3) << 2`, `d >> 2` (R171, R172). -/
def shortBytes (d : Nat) : List Byte := [byte ((d &&& 3) <<< 2), byte (d >>> 2)]

/-- The distance word of M3 and M4 for an offset `d` with `S` = 0, low byte first (R174, R176). -/
def wordBytes (d : Nat) : List Byte := [byte ((d <<< 2) &&& 0xFF), byte ((d >>> 6) &&& 0xFF)]

/-- The opcode bits of M4 and M4_X for an offset `e`: `0x10 | ((e >> 11) & 8)` (R176, R177). -/
def m4Head (e : Nat) : Nat := 0x10 ||| ((e >>> 11) &&& 8)

/-- The bytes of a match of a class, with `S` = 0 (R171 to R177). -/
def matchBytes (c : MatchClass) (len dist : Nat) : List Byte :=
  match c with
  | .m1 => shortBytes (dist - 1)
  | .m1b => shortBytes (dist - 2049)
  | .m2 => [byte (((len - 1) <<< 5) ||| (((dist - 1) &&& 7) <<< 2)), byte ((dist - 1) >>> 3)]
  | .m3 => byte (0x20 ||| (len - 2)) :: wordBytes (dist - 1)
  | .m3X => 0x20 :: (zextBytes (len - Config.m3Base) ++ wordBytes (dist - 1))
  | .m4 => byte (m4Head (dist - 0x4000) ||| (len - 2)) :: wordBytes (dist - 0x4000)
  | .m4X => byte (m4Head (dist - 0x4000)) :: (zextBytes (len - Config.m4Base) ++ wordBytes (dist - 0x4000))

/-- Cost(len, dist, plit) (R178): the length of the match's bytes, 0 for NE. -/
def cost (len dist plit : Nat) : Nat :=
  match classify len dist plit with
  | none => 0
  | some .m1 | some .m1b | some .m2 => 2
  | some .m3 | some .m4 => 3
  | some .m3X => 4 + (len - 34) / 255
  | some .m4X => 4 + (len - 10) / 255

/-- The terminator's bytes (R179). -/
def termBytes : List Byte := [0x11, 0x00, 0x00]

/-- The end of an encoder command that appends `bytes` to `EOUT` in the memory `m`, at `EOUT_POS` (R180 to R182): the
capacity check, the bytes, `EOUT_POS`, `ENC_LAST`, and the success end. -/
def appendStream (c : Command) (last : EncLast) (m : Memory) (bytes : List Byte) (s : State) : State :=
  if s.eoutCap.toNat < s.eoutPos.toNat + bytes.length then raise c .outputOverrun s
  else finish { s with
    mem := m.store (s.addr .eout s.eoutPos.toNat) bytes
    eoutPos := word (s.eoutPos.toNat + bytes.length)
    encLast := last }

/-- The literal bytes of the run at `ENC_LSTART` (R168). No byte of `ESRC` is written before it is read, since `ESRC` and
`EOUT` are disjoint where the command runs (20_memory.md R72; log 24). -/
def runLiterals (s : State) : List Byte := bytesFrom (s.byteAt .esrc) s.encLstart.toNat s.encLlen.toNat

/-- The memory with `n` OR-ed into the low bits of the byte of `EOUT` at `EOUT_POS` − 2 (R165). -/
def orTrailing (n : Nat) (s : State) : Memory :=
  s.mem.write (s.addr .eout (s.eoutPos.toNat - 2)) (s.byteAt .eout (s.eoutPos.toNat - 2) ||| byte n)

end Sys2Proof.Machine
end

