-- ==== Sys2Proof/Machine/Commands.lean ====
section
/-! DEFINITION. The six commands (41_decoder.md R120, 40_backref_copy.md R114, 42_token_encoder.md R180 to R183): each
command's one core step, and the command as an instruction (log 16). -/

namespace Sys2Proof.Machine

/-- The core step of BRC_COPY (R114). -/
def runBrcCopy (s : State) : State :=
  match backRefCopy s.brcPos.toNat s.brcDist.toNat s.brcLen.toNat s with
  | .error e => raise .brcCopy e s
  | .ok m => finish { s with mem := m }

/-- The core step of ENC_LIT (R180), the checks in its order (60_exceptions.md R204). -/
def runEncLit (s : State) : State :=
  if s.encLlen.toNat = 0 then finish s
  else if s.encLast = .literal ∨ s.encLast = .terminated then raise .encLit .compressInternal s
  else if s.esrcLen.toNat < s.encLstart.toNat + s.encLlen.toNat then raise .encLit .compressInternal s
  else match litForm s.eoutPos.toNat s.encLlen.toNat with
    | .header bytes => appendStream .encLit .literal s.mem (bytes ++ runLiterals s) s
    | .orInto =>
      if s.encLast ≠ .matched then raise .encLit .compressInternal s
      else appendStream .encLit .literal (orTrailing s.encLlen.toNat s) (runLiterals s) s

/-- The core step of ENC_MATCH (R181). -/
def runEncMatch (s : State) : State :=
  if s.encLast = .none ∨ s.encLast = .terminated then raise .encMatch .compressInternal s
  else match classify s.encMlen.toNat s.encMdist.toNat s.encPlit.toNat with
    | none => raise .encMatch .compressInternal s
    | some c => appendStream .encMatch .matched s.mem (matchBytes c s.encMlen.toNat s.encMdist.toNat) s

/-- The core step of ENC_TERM (R182). -/
def runEncTerm (s : State) : State :=
  if s.encLast = .terminated then raise .encTerm .compressInternal s
  else appendStream .encTerm .terminated s.mem termBytes s

/-- The core step of ENC_QUERY (R183). -/
def runEncQuery (s : State) : State :=
  finish { s with encQlen := word (cost s.encMlen.toNat s.encMdist.toNat s.encPlit.toNat) }

/-- DEC_START (R120): its acceptance; its core steps are the tokens of the stream. -/
def execDecStart (s : State) : Host.Outcome State Fault Refusal := commandStep .decStart id s

/-- BRC_COPY (R114). -/
def execBrcCopy (s : State) : Host.Outcome State Fault Refusal := commandStep .brcCopy runBrcCopy s

/-- ENC_LIT (R180). -/
def execEncLit (s : State) : Host.Outcome State Fault Refusal := commandStep .encLit runEncLit s

/-- ENC_MATCH (R181). -/
def execEncMatch (s : State) : Host.Outcome State Fault Refusal := commandStep .encMatch runEncMatch s

/-- ENC_TERM (R182). -/
def execEncTerm (s : State) : Host.Outcome State Fault Refusal := commandStep .encTerm runEncTerm s

/-- ENC_QUERY (R183). -/
def execEncQuery (s : State) : Host.Outcome State Fault Refusal := commandStep .encQuery runEncQuery s

end Sys2Proof.Machine
end

