-- ==== Sys2Proof/Machine/Literals.lean ====
section
/-! DEFINITION. The literal-run tokens (41_decoder.md R130 to R132). The state given to a token has `IN_POS` just past the
token's own bytes and `PHASE` = `DEC_LOOP` (R121, R122). -/

namespace Sys2Proof.Machine

/-- INIT_LIT (R130). -/
def execInitLit (n : Byte) (s : State) : Host.Outcome State Fault Refusal :=
  endToken s (execLiterals n.toNat (initDstate n.toNat) s)

/-- LIT (R131). -/
def execLit (l : BitVec 4) (s : State) : Host.Outcome State Fault Refusal :=
  endToken s (execLiterals (litLen l) runDstate s)

/-- LIT_X (R132). -/
def execLitX (x : Operand Zext) (s : State) : Host.Outcome State Fault Refusal :=
  endToken s (withOperand x fun z => execLiterals (zextLen Config.litBase z) runDstate s)

end Sys2Proof.Machine
end

