-- ==== Sys2Proof/Machine/Matches.lean ====
section
/-! DEFINITION. The match tokens and the terminator (41_decoder.md R133 to R141). The state given to a token has `IN_POS`
just past the token's own bytes and `PHASE` = `DEC_LOOP` (R121, R122). -/

namespace Sys2Proof.Machine

/-- M1 (R133). -/
def execM1 (d k : BitVec 2) (next : Operand Byte) (s : State) : Host.Outcome State Fault Refusal :=
  endToken s (withOperand next fun b => execMatch (m1Dist d b) 2 k s)

/-- M1B (R134). -/
def execM1b (d k : BitVec 2) (next : Operand Byte) (s : State) : Host.Outcome State Fault Refusal :=
  endToken s (withOperand next fun b => execMatch (m1bDist d b) 3 k s)

/-- M2 (R135). -/
def execM2 (l d : BitVec 3) (k : BitVec 2) (next : Operand Byte) (s : State) : Host.Outcome State Fault Refusal :=
  endToken s (withOperand next fun b => execMatch (m2Dist d b) (m2Len l) k s)

/-- M3 (R136). -/
def execM3 (l : BitVec 5) (v : Operand Half) (s : State) : Host.Outcome State Fault Refusal :=
  endToken s (withOperand v fun w => execMatch (m3Dist w) (m3Len l) (wordTrail w) s)

/-- M3_X (R137). -/
def execM3X (x : Operand Zext) (v : Operand Half) (s : State) : Host.Outcome State Fault Refusal :=
  endToken s (withOperand x fun z => withOperand v fun w =>
    execMatch (m3Dist w) (zextLen Config.m3Base z) (wordTrail w) s)

/-- M4 (R138). -/
def execM4 (h : BitVec 1) (l : BitVec 3) (v : Operand Half) (s : State) : Host.Outcome State Fault Refusal :=
  endToken s (withOperand v fun w => m4Tail h (m4Len l) w s)

/-- M4_X (R139). -/
def execM4X (h : BitVec 1) (x : Operand Zext) (v : Operand Half) (s : State) : Host.Outcome State Fault Refusal :=
  endToken s (withOperand x fun z => withOperand v fun w => m4Tail h (zextLen Config.m4Base z) w s)

/-- TERM (R140): the decode ends successfully; `lo` is ignored. -/
def execTerm (_lo : BitVec 2) (s : State) : Host.Outcome State Fault Refusal := .next (finish s)

end Sys2Proof.Machine
end

