-- ==== Sys2Proof/Machine/Dispatch.lean ====
section
/-! DEFINITION. One arm per instruction. -/

namespace Sys2Proof.Machine

def exec (i : Instr) (s : State) : Host.Outcome State Fault Refusal :=
  match i with
  | .initLit n => Sys2Proof.Machine.execInitLit n s
  | .lit l => Sys2Proof.Machine.execLit l s
  | .litX x => Sys2Proof.Machine.execLitX x s
  | .m1 d k next => Sys2Proof.Machine.execM1 d k next s
  | .m1b d k next => Sys2Proof.Machine.execM1b d k next s
  | .m2 l d k next => Sys2Proof.Machine.execM2 l d k next s
  | .m3 l v => Sys2Proof.Machine.execM3 l v s
  | .m3X x v => Sys2Proof.Machine.execM3X x v s
  | .m4 h l v => Sys2Proof.Machine.execM4 h l v s
  | .m4X h x v => Sys2Proof.Machine.execM4X h x v s
  | .term lo => Sys2Proof.Machine.execTerm lo s
  | .decStart => Sys2Proof.Machine.execDecStart s
  | .brcCopy => Sys2Proof.Machine.execBrcCopy s
  | .encLit => Sys2Proof.Machine.execEncLit s
  | .encMatch => Sys2Proof.Machine.execEncMatch s
  | .encTerm => Sys2Proof.Machine.execEncTerm s
  | .encQuery => Sys2Proof.Machine.execEncQuery s

end Sys2Proof.Machine
end

