-- ==== Sys2Proof/WellFormed.lean ====
section
/-! DEFINITION. Which terms of `Instr` some bytes of a stream spell: each field in the range its format gives it
(30_encoding.md R84 to R92, R97) and every operand byte there. -/

namespace Sys2Proof

/-- The operand bytes were all there. -/
def Operand.present {α : Type} : Operand α → Bool
  | .got _ => true
  | .failed _ => false

/-- A zero-extension the decoder reads: `b` in 1…255 (R92) and at most `K_MAX` zero bytes (R94). -/
def Zext.wellFormed (z : Zext) : Bool := z.b != 0 && z.k ≤ Config.kMax

/-- A zero-extended operand that is there and in range. -/
def Operand.zextWellFormed : Operand Zext → Bool
  | .got z => z.wellFormed
  | .failed _ => false

/-- `H`, `L` and `v` spell the terminator: `dist_base` = 0 and `len` = 3 (R89). Such bytes are TERM, not M4. -/
def isTerminator (h : BitVec 1) (l : BitVec 3) (v : Half) : Bool := h == 0 && l == 1 && v >>> 2 == 0

/-- The check, class by class. -/
def Instr.WellFormed : Instr → Bool
  | .initLit n => 1 ≤ n.toNat && n.toNat ≤ 238
  | .lit l => l != 0
  | .litX x => x.zextWellFormed
  | .m1 _ _ next => next.present
  | .m1b _ _ next => next.present
  | .m2 l _ _ next => 2 ≤ l.toNat && next.present
  | .m3 l v => l != 0 && v.present
  | .m3X x v => x.zextWellFormed && v.present
  | .m4 h l (.got v) => l != 0 && !isTerminator h l v
  | .m4 _ _ (.failed _) => false
  | .m4X _ x v => x.zextWellFormed && v.present
  | .term _ => true
  | .decStart | .brcCopy | .encLit | .encMatch | .encTerm | .encQuery => true

end Sys2Proof
end

