-- ==== Sys2Proof/Decode.lean ====
section
/-! DEFINITION. Bytes to instructions and back (30_encoding.md R80 to R106): the opcode table, the decoder, total on any
bytes and rejecting by name, and the encoder, written from the formats. -/

namespace Sys2Proof

/-- The four contexts of the opcode map (R82): the first byte of the stream, or `DSTATE` 0, 1 to 3, 4. -/
inductive Context where
  | first
  | state0
  | state123
  | state4
  deriving DecidableEq, Repr

/-- Why nothing was decoded. `noOpcode`: no byte is left where an opcode is due (41_decoder.md R123, `UNEXPECTED_EOF`).
`reservedCommand`: `CMD.OP` is 0 or 7…15, which is ignored (R103). -/
inductive Reject where
  | noOpcode
  | reservedCommand
  deriving DecidableEq, Repr

/-- What decoding answers. -/
inductive Decoded (α : Type) where
  | ok (a : α)
  | reject (r : Reject)
  deriving DecidableEq, Repr

/-! ### The opcode table as data (R106) -/

/-- A token row of spec/opcode_table.json: it applies to the byte `t` when `(t & mask) = pattern`, in the contexts listed,
and in the first-byte context also when `t` is `firstByte`. `endMark`: the row constrains the two bytes after it to the
terminator's. -/
structure Row where
  mnemonic : String
  pattern : Byte
  mask : Byte
  contexts : List Context
  firstByte : Option Byte := none
  endMark : Bool := false
  deriving DecidableEq, Repr

/-- Every context but the stream's first byte. -/
def laterContexts : List Context := [.state0, .state123, .state4]

/-- The token rows of spec/opcode_table.json, in its order. -/
def opcodeRows : List Row :=
  [ { mnemonic := "INIT_LIT", pattern := 0x12, mask := 0xFE, contexts := [.first] },
    { mnemonic := "INIT_LIT", pattern := 0x14, mask := 0xFC, contexts := [.first] },
    { mnemonic := "INIT_LIT", pattern := 0x18, mask := 0xF8, contexts := [.first] },
    { mnemonic := "INIT_LIT", pattern := 0x20, mask := 0xE0, contexts := [.first] },
    { mnemonic := "INIT_LIT", pattern := 0x40, mask := 0xC0, contexts := [.first] },
    { mnemonic := "INIT_LIT", pattern := 0x80, mask := 0x80, contexts := [.first] },
    { mnemonic := "LIT", pattern := 0x00, mask := 0xF0, contexts := [.first, .state0] },
    { mnemonic := "LIT_X", pattern := 0x00, mask := 0xFF, contexts := [.first, .state0] },
    { mnemonic := "M1", pattern := 0x00, mask := 0xF0, contexts := [.state123] },
    { mnemonic := "M1B", pattern := 0x00, mask := 0xF0, contexts := [.state4] },
    { mnemonic := "M2", pattern := 0x40, mask := 0xC0, contexts := laterContexts },
    { mnemonic := "M2", pattern := 0x80, mask := 0x80, contexts := laterContexts },
    { mnemonic := "M3", pattern := 0x20, mask := 0xE0, contexts := laterContexts },
    { mnemonic := "M3_X", pattern := 0x20, mask := 0xFF, contexts := laterContexts },
    { mnemonic := "M4", pattern := 0x10, mask := 0xF0, contexts := laterContexts, firstByte := some 0x11 },
    { mnemonic := "M4_X", pattern := 0x10, mask := 0xF7, contexts := laterContexts, firstByte := some 0x10 },
    { mnemonic := "TERM", pattern := 0x11, mask := 0xFF, contexts := .first :: laterContexts, endMark := true } ]

/-- The two bytes after the opcode are those of a terminator: `lo & 0xFC` = 0 and `hi` = 0 (R89). -/
def isEndMark : List Byte → Bool
  | lo :: hi :: _ => lo &&& 0xFC == 0 && hi == 0
  | _ => false

/-- Whether the row applies to the opcode byte `t` followed by `bs` in a context (R106). -/
def Row.applies (r : Row) (ctx : Context) (t : Byte) (bs : List Byte) : Bool :=
  (r.contexts.contains ctx || (ctx == .first && r.firstByte == some t)) && t &&& r.mask == r.pattern
    && (!r.endMark || isEndMark bs)

/-- How many bits of the mask are set. -/
def Row.weight (r : Row) : Nat := (List.range 8).countP fun i => r.mask.getLsbD i

/-- The heavier of two rows, the earlier one where they weigh the same. -/
def Row.heavier (best : Option Row) (r : Row) : Option Row :=
  match best with
  | none => some r
  | some q => if q.weight < r.weight then some r else some q

/-- The row that the table selects: of those that apply, the one with most bits set in its mask (R106). -/
def selectRow (ctx : Context) (t : Byte) (bs : List Byte) : Option Row :=
  (opcodeRows.filter fun r => r.applies ctx t bs).foldl Row.heavier none

/-! ### Operand bytes -/

/-- ReadOperand (41_decoder.md R124) on the bytes left up to `IN_LEN`. -/
def readOperand : List Byte → Operand Byte
  | b :: _ => .got b
  | [] => .failed .inputOverrun

/-- ReadLE16 (R128, 20_memory.md R64): the low byte first. -/
def readLE16 : List Byte → Operand Half
  | lo :: hi :: _ => .got (hi ++ lo)
  | _ => .failed .inputOverrun

/-- ReadZext (R125) with the zero-run cap `cap`, after `k` zero bytes have been read: the bytes in stream order, the cap
checked as soon as it is passed. -/
def readZext (cap : Nat) : Nat → List Byte → Operand Zext
  | _, [] => .failed .inputOverrun
  | k, b :: bs =>
    if b ≠ 0 then .got ⟨k, b⟩
    else if cap < k + 1 then .failed .outputOverrun
    else readZext cap (k + 1) bs

/-- How many bytes a zero-extension takes: `k` and one more (R92). -/
def Zext.size (z : Zext) : Nat := z.k + 1

/-! ### The decoder -/

/-- A token with a zero-extended length and a distance word: the extension stands before the word (R92). -/
def zextThenWord (make : Operand Zext → Operand Half → Instr) (bs : List Byte) : Instr × Nat :=
  match readZext Config.kMax 0 bs with
  | .got z => (make (.got z) (readLE16 (bs.drop z.size)), 1 + z.size + 2)
  | .failed e => (make (.failed e) (.failed e), 1)

/-- An M4 token with a direct length, or the terminator (R88, R89). -/
def decodeM4 (t : Byte) (bs : List Byte) : Instr × Nat :=
  if t = 0x11 ∧ isEndMark bs = true then (.term (field 0 2 (bs.headD 0)), 3)
  else (.m4 (field 3 1 t) (field 0 3 t) (readLE16 bs), 3)

/-- A zero-extended literal run (R90). -/
def decodeLitX (bs : List Byte) : Instr × Nat :=
  match readZext Config.kMax 0 bs with
  | .got z => (.litX (.got z), 1 + z.size)
  | .failed e => (.litX (.failed e), 1)

/-- Opcodes 0 to 15 (R129): literal runs in state 0, M1 in states 1 to 3, M1B in state 4. -/
def decodeLow (ctx : Context) (t : Byte) (bs : List Byte) : Instr × Nat :=
  match ctx with
  | .first | .state0 => if t = 0 then decodeLitX bs else (.lit (field 0 4 t), 1)
  | .state123 => (.m1 (field 2 2 t) (field 0 2 t) (readOperand bs), 2)
  | .state4 => (.m1b (field 2 2 t) (field 0 2 t) (readOperand bs), 2)

/-- Dispatch (41_decoder.md R129), the tests in the source's order. -/
def dispatch (ctx : Context) (t : Byte) (bs : List Byte) : Instr × Nat :=
  if 64 ≤ t.toNat then (.m2 (field 5 3 t) (field 2 3 t) (field 0 2 t) (readOperand bs), 2)
  else if 32 ≤ t.toNat then
    if field 0 5 t ≠ 0 then (.m3 (field 0 5 t) (readLE16 bs), 3) else zextThenWord .m3X bs
  else if 16 ≤ t.toNat then
    if field 0 3 t ≠ 0 then decodeM4 t bs else zextThenWord (.m4X (field 3 1 t)) bs
  else decodeLow ctx t bs

/-- The token that starts with the opcode byte `t` and goes on with `bs`, the bytes left up to `IN_LEN`, and how many
bytes it takes without its literals (R82, R98; 41_decoder.md R121, R122). Where an operand failed the count is not used:
the error clears `IN_POS`. -/
def tokenOf (ctx : Context) (t : Byte) (bs : List Byte) : Instr × Nat :=
  if ctx = .first ∧ 18 ≤ t.toNat then (.initLit (t - 17), 1) else dispatch ctx t bs

/-- The token at the head of the stream, and its size. -/
def decodeToken (ctx : Context) : List Byte → Decoded (Instr × Nat)
  | [] => .reject .noOpcode
  | t :: bs => .ok (tokenOf ctx t bs)

/-- The command in a word written to `CMD`: `OP` = bits[3:0], bits[31:4] ignored (10_state.md R23, R103). -/
def decodeCommand (w : Word) : Decoded Instr :=
  match (field 0 4 w).toNat with
  | 1 => .ok .decStart
  | 2 => .ok .brcCopy
  | 3 => .ok .encLit
  | 4 => .ok .encMatch
  | 5 => .ok .encTerm
  | 6 => .ok .encQuery
  | _ => .reject .reservedCommand

/-! ### The encoder -/

/-- The bytes of an operand that is there. -/
def Operand.bytes {α : Type} (f : α → List Byte) : Operand α → List Byte
  | .got a => f a
  | .failed _ => []

/-- The bytes of a zero-extension (R92). -/
def Zext.bytes (z : Zext) : List Byte := List.replicate z.k 0 ++ [z.b]

/-- The distance word, low byte first (R87, R88). -/
def halfBytes (v : Half) : List Byte := [field 0 8 v, field 8 8 v]

/-- The bytes of a well-formed token, without its literals, from the formats (R84 to R91). -/
def encodeToken : Instr → List Byte
  | .initLit n => [n + 17]
  | .lit l => [0#4 ++ l]
  | .litX x => 0x00 :: x.bytes Zext.bytes
  | .m1 d s next => (0#4 ++ d ++ s : Byte) :: next.bytes (fun b => [b])
  | .m1b d s next => (0#4 ++ d ++ s : Byte) :: next.bytes (fun b => [b])
  | .m2 l d s next => (l ++ d ++ s : Byte) :: next.bytes (fun b => [b])
  | .m3 l v => (0b001#3 ++ l : Byte) :: v.bytes halfBytes
  | .m3X x v => 0x20 :: (x.bytes Zext.bytes ++ v.bytes halfBytes)
  | .m4 h l v => (0b0001#4 ++ h ++ l : Byte) :: v.bytes halfBytes
  | .m4X h x v => (0b0001#4 ++ h ++ 0#3 : Byte) :: (x.bytes Zext.bytes ++ v.bytes halfBytes)
  | .term lo => [0x11, 0#6 ++ lo, 0x00]
  | .decStart | .brcCopy | .encLit | .encMatch | .encTerm | .encQuery => []

/-- The word a host writes to `CMD` for a command (10_state.md R23). -/
def encodeCommand : Instr → Word
  | .decStart => 1
  | .brcCopy => 2
  | .encLit => 3
  | .encMatch => 4
  | .encTerm => 5
  | .encQuery => 6
  | .initLit _ | .lit _ | .litX _ | .m1 _ _ _ | .m1b _ _ _ | .m2 _ _ _ _ | .m3 _ _ | .m3X _ _ | .m4 _ _ _
  | .m4X _ _ _ | .term _ => 0

/-- The contexts in which the opcode map gives a token's first byte to its class (R82). -/
def Instr.fits (ctx : Context) : Instr → Bool
  | .initLit _ => ctx == .first
  | .lit _ | .litX _ => ctx == .first || ctx == .state0
  | .m1 _ _ _ => ctx == .state123
  | .m1b _ _ _ => ctx == .state4
  | .m2 _ _ _ _ | .m3 _ _ | .m3X _ _ => ctx != .first
  | .m4 h l _ => ctx != .first || (h == 0 && l == 1)
  | .m4X h _ _ => ctx != .first || h == 0
  | .term _ => true
  | .decStart | .brcCopy | .encLit | .encMatch | .encTerm | .encQuery => false

/-! ### The table's words (log 15) -/

/-- How many bytes a table word is laid out in: the word, then zero bytes. -/
def tableStream : Nat := 32

/-- Byte `i` of a word numbered as the table numbers it. -/
def tableByte (w i : Nat) : Byte := byte (w >>> (8 * i))

/-- The word's bytes in stream order, the bits above `nbits` zero, filled up with zero bytes. -/
def tableBytes (nbits w : Nat) : List Byte :=
  (List.range tableStream).map fun i => tableByte (w % 2 ^ nbits) i

/-- The word is a command: a whole 32-bit word with a defined `OP`, or a bare `OP` field (R103). -/
def tableIsCommand (nbits w : Nat) : Bool :=
  (nbits == 32 || w < 16) && match decodeCommand (word w) with
    | .ok _ => true
    | .reject _ => false

/-- The context a token word is read in: the table word names none, so bytes below 0x20 are read as the first byte of a
stream and the others later in it, in state 0 (log 15). -/
def tableContext (w : Nat) : Context := if (tableByte w 0).toNat < 0x20 then .first else .state0

/-- The instruction the decoder reads from a word numbered as spec/opcode_table.json numbers it. -/
def decodeTableWord (nbits w : Nat) : Option Instr :=
  if tableIsCommand nbits w then
    match decodeCommand (word w) with
    | .ok i => some i
    | .reject _ => none
  else
    match decodeToken (tableContext w) (tableBytes nbits w) with
    | .ok (i, _) => some i
    | .reject _ => none

end Sys2Proof
end

