-- ==== Sys2Proof/Machine/HostPort.lean ====
section
/-! DEFINITION. The host's side: the register block (10_state.md R22 to R32, R42 to R45) and the buffers
(20_memory.md R69; 70_reset_and_hazards.md R242, R243). Every access has one home here. -/

namespace Sys2Proof.Machine

/-- The register at an offset of the block; the other offsets are reserved (R22). -/
def Reg.at? (off : Nat) : Option Reg :=
  match off with
  | 0x00 => some .cmd
  | 0x04 => some .status
  | 0x08 => some .inLen
  | 0x0C => some .outLen
  | 0x10 => some .inPos
  | 0x14 => some .outPos
  | 0x18 => some .brcPos
  | 0x1C => some .brcDist
  | 0x20 => some .brcLen
  | 0x24 => some .esrcLen
  | 0x28 => some .eoutCap
  | 0x2C => some .eoutPos
  | 0x30 => some .encLstart
  | 0x34 => some .encLlen
  | 0x38 => some .encMlen
  | 0x3C => some .encMdist
  | 0x40 => some .encPlit
  | 0x44 => some .encQlen
  | _ => none

/-- The offset in the block of a host address: 256 bytes from `REG_BASE` (R22; log 18). -/
def State.blockOffset (s : State) (addr : Nat) : Option Nat :=
  if s.platform.regBase ≤ addr ∧ addr < s.platform.regBase + 256 then some (addr - s.platform.regBase) else none

/-- The register that an access selects: a 32-bit access, aligned, at an offset that is not reserved (R42). -/
def selectReg (off width : Nat) : Option Reg := if width = 32 ∧ off % 4 = 0 then Reg.at? off else none

/-- What a register holds (R22 to R32): `CMD` reads 0. -/
def State.reg (s : State) : Reg → Word
  | .cmd => 0
  | .status => statusWord s
  | .inLen => s.inLen
  | .outLen => s.outLen
  | .inPos => s.inPos
  | .outPos => s.outPos
  | .brcPos => s.brcPos
  | .brcDist => s.brcDist
  | .brcLen => s.brcLen
  | .esrcLen => s.esrcLen
  | .eoutCap => s.eoutCap
  | .eoutPos => s.eoutPos
  | .encLstart => s.encLstart
  | .encLlen => s.encLlen
  | .encMlen => s.encMlen
  | .encMdist => s.encMdist
  | .encPlit => s.encPlit
  | .encQlen => s.encQlen

/-- min(x, bound) (R25, R26, R30, R31). -/
def clampTo (bound : Nat) (x : Word) : Word := word (min x.toNat bound)

/-- A host write to a register other than `CMD` while the core is idle (R24 to R32). Writes to read-only registers are
ignored (R24; log 17). -/
def State.writeReg (s : State) (r : Reg) (x : Word) : State :=
  match r with
  | .inLen => { s with inLen := clampTo Config.bufMax x }
  | .outLen => { s with outLen := clampTo Config.outLenMax x, olset := true }
  | .brcPos => { s with brcPos := x }
  | .brcDist => { s with brcDist := x }
  | .brcLen => { s with brcLen := x }
  | .esrcLen => { s with esrcLen := clampTo Config.bufMax x }
  | .eoutCap => { s with eoutCap := clampTo Config.bufMax x }
  | .eoutPos => { s with eoutPos := clampTo Config.bufMax x, encLast := .none }
  | .encLstart => { s with encLstart := x }
  | .encLlen => { s with encLlen := x }
  | .encMlen => { s with encMlen := x }
  | .encMdist => { s with encMdist := x }
  | .encPlit => { s with encPlit := x }
  | .cmd | .status | .inPos | .outPos | .encQlen => s

/-- A host write that starts no command: dropped while the core is busy (R43, R242), by a wrong width or alignment, at a
reserved offset (R42) or outside the block (log 18). -/
def hostWrite (addr width : Nat) (x : Word) (s : State) : State :=
  match s.blockOffset addr with
  | none => s
  | some off =>
    match selectReg off width with
    | none => s
    | some r => if s.busy then s else s.writeReg r x

/-- The command that a host write starts: a defined `OP` written to `CMD` while the core is idle (R23). -/
def hostCommand (addr width : Nat) (x : Word) (s : State) : Option Instr :=
  if s.busy then none
  else
    match s.blockOffset addr with
    | none => none
    | some off =>
      if selectReg off width = some .cmd then
        match decodeCommand x with
        | .ok i => some i
        | .reject _ => none
      else none

/-- A value the spec leaves unspecified is returned: the next free word (U1; log 5). -/
def returnFree (x : Word) (s : State) : State := { s with rdata := x, freeCount := s.freeCount + 1 }

/-- A host read of a register (R44, R45): while the core is busy the positions, and the field `DSTATE` of `STATUS`, read
as free values. -/
def readReg (r : Reg) (s : State) : State :=
  match r with
  | .inPos | .outPos | .eoutPos =>
    if s.busy then returnFree (Config.freeWord s.freeCount) s else { s with rdata := s.reg r }
  | .status =>
    if s.busy then returnFree (statusWith (field 0 3 (Config.freeWord s.freeCount)) s) s
    else { s with rdata := s.reg r }
  | .cmd | .inLen | .outLen | .brcPos | .brcDist | .brcLen | .esrcLen | .eoutCap | .encLstart | .encLlen | .encMlen
  | .encMdist | .encPlit | .encQlen => { s with rdata := s.reg r }

/-- A host read: 0 for a wrong width or alignment and at a reserved offset (R42). -/
def hostRead (addr width : Nat) (s : State) : State :=
  match s.blockOffset addr with
  | none => s
  | some off =>
    match selectReg off width with
    | none => { s with rdata := 0 }
    | some r => readReg r s

/-- The buffers a command reads or writes (70_reset_and_hazards.md R243). -/
def Command.buffers : Command → List Buffer
  | .decStart => [.src, .dst]
  | .brcCopy => [.dst]
  | .encLit | .encMatch | .encTerm | .encQuery => [.esrc, .eout]

/-- The running command reads or writes the buffer (R243). -/
def State.uses (s : State) (b : Buffer) : Bool :=
  match s.phase.command? with
  | none => false
  | some c => c.buffers.contains b

/-- The address holds a byte of a buffer that the running command reads or writes (R243), through whichever buffer the host
reaches it (20_memory.md R72). -/
def State.inUse (s : State) (a : Nat) : Bool :=
  [Buffer.src, .dst, .esrc, .eout].any fun b => s.uses b && (s.platform.window b).contains a

/-- A host write of a buffer byte (20_memory.md R69; 70_reset_and_hazards.md R243). A byte that no running command uses is
stored at once also while `BUSY` = 1, and later commands see it: R69 promises that only of writes made while `BUSY` = 0.
DESIGN CHOICE (log 26). -/
def hostBufWrite (b : Buffer) (off : Nat) (x : Byte) (s : State) : Host.Outcome State Fault Refusal :=
  if s.platform.size b ≤ off then .fault (.beyondAttached b)
  else if s.inUse (s.addr b off) then .refused (.bufferInUse b)
  else .next { s with mem := s.mem.write (s.addr b off) x }

/-- A host read of a buffer byte (20_memory.md R69); while the running command uses the byte, a free byte (R243). Once the
command has ended the read returns its bytes, also before the host has read `STATUS` with `BUSY` = 0: R69 and
70_reset_and_hazards.md R244 promise them only after that read. DESIGN CHOICE (log 25). -/
def hostBufRead (b : Buffer) (off : Nat) (s : State) : Host.Outcome State Fault Refusal :=
  if s.platform.size b ≤ off then .fault (.beyondAttached b)
  else if s.inUse (s.addr b off) then
    .next (returnFree ((Config.freeByte (s.freeCount + 1) (s.addr b off)).setWidth 32) s)
  else .next { s with rdata := (s.byteAt b off).setWidth 32 }

/-- A buffer is attached to a memory, or re-attached (70_reset_and_hazards.md R233): the bytes stay in the memory and the
buffer shows those of its new window. R233 asks for `BUSY` = 0: refused for a buffer that the running command uses, and
at once in effect for another buffer while a command runs. DESIGN CHOICE (log 8). -/
def hostAttach (b : Buffer) (w : Window) (s : State) : Host.Outcome State Fault Refusal :=
  if s.uses b then .refused (.bufferInUse b)
  else .next { s with platform := s.platform.attach b w }

end Sys2Proof.Machine
end

