-- ==== Sys2Proof/Machine/Fetch.lean ====
section
/-! DEFINITION. What a step runs: the host's next action, the running command, or the token at `IN_POS`
(10_state.md R46; 41_decoder.md R121 to R123). -/

namespace Sys2Proof.Machine

/-- What is fetched: an instruction with the state it runs on, or an outcome with no instruction. -/
inductive Fetched where
  | run (i : Instr) (s : State)
  | out (o : Host.Outcome State Fault Refusal)

/-- The context of the next token (30_encoding.md R82, 41_decoder.md R129; logs 21, 22). -/
def State.context (s : State) : Context :=
  if s.phase = .decFirst then .first
  else if s.dstate = 0 then .state0
  else if s.dstate = 1 ∨ s.dstate = 2 ∨ s.dstate = 3 then .state123
  else .state4

/-- The bytes of `SRC` from `IN_POS` up to `IN_LEN`. -/
def State.streamBytes (s : State) : List Byte :=
  bytesFrom (s.byteAt .src) s.inPos.toNat (s.inLen.toNat - s.inPos.toNat)

/-- The bounding registers of the buffers that a command uses (20_memory.md R60, R62). -/
def Command.bounds (c : Command) (s : State) : List (Buffer × Nat) :=
  match c with
  | .decStart => [(.src, s.inLen.toNat), (.dst, s.outLen.toNat)]
  | .brcCopy => [(.dst, s.outLen.toNat)]
  | .encLit => [(.esrc, s.esrcLen.toNat), (.eout, s.eoutCap.toNat)]
  | .encMatch | .encTerm => [(.eout, s.eoutCap.toNat)]
  | .encQuery => []

/-- The first buffer whose bounding register exceeds the attached memory (R62; log 9). -/
def overAttached (s : State) : List (Buffer × Nat) → Option Buffer
  | [] => none
  | (b, n) :: rest => if s.platform.size b < n then some b else overAttached s rest

/-- FetchOpcode and the decoding of the token (41_decoder.md R122 to R125, R128, R129): `IN_POS` moves past the token's own
bytes, `PHASE` is `DEC_LOOP`; no byte left is `UNEXPECTED_EOF`. -/
def tokenFetch (s : State) : Fetched :=
  match decodeToken s.context s.streamBytes with
  | .ok (i, n) => .run i { s with phase := .decLoop, inPos := word (s.inPos.toNat + n) }
  | .reject _ => .out (.next (raise .decStart .unexpectedEof s))

/-- The first decoder step (R121): its two checks (60_exceptions.md R203), then the token. -/
def firstFetch (s : State) : Fetched :=
  if s.olset = false then .out (.next (raise .decStart .optionsRequired s))
  else if s.inLen = 0 then .out (.next (raise .decStart .emptyInput s))
  else tokenFetch s

/-- What a core step runs (10_state.md R46). -/
def phaseFetch (s : State) : Fetched :=
  match s.phase with
  | .idle => .out (.next s)
  | .decFirst => firstFetch s
  | .decLoop => tokenFetch s
  | .brcRun => .run .brcCopy s
  | .encLitRun => .run .encLit s
  | .encMatchRun => .run .encMatch s
  | .encTermRun => .run .encTerm s
  | .encQueryRun => .run .encQuery s

/-- The buffer, if any, whose bounding register is past the attached memory while its command runs (R62). -/
def State.overBound (s : State) : Option Buffer :=
  match s.phase.command? with
  | none => none
  | some c => overAttached s (c.bounds s)

/-- The two buffers of a command that must be disjoint (20_memory.md R72; log 24). -/
def Command.disjointPair : Command → Option (Buffer × Buffer)
  | .decStart => some (.src, .dst)
  | .brcCopy => none
  | .encLit | .encMatch | .encTerm | .encQuery => some (.esrc, .eout)

/-- The two buffers, if any, whose memories overlap against R72 while a command that uses both runs. -/
def State.overlap (s : State) : Option (Buffer × Buffer) :=
  match s.phase.command? with
  | none => none
  | some c =>
    match c.disjointPair with
    | none => none
    | some (b, d) => if (s.platform.window b).overlaps (s.platform.window d) then some (b, d) else none

/-- A core step (R46), once the host's duties towards the memory are checked (R62, R72); an idle core changes nothing
(60_exceptions.md R217; log 2). -/
def coreFetch (s : State) : Fetched :=
  match s.overBound, s.overlap with
  | some b, _ => .out (.fault (.beyondAttached b))
  | none, some (b, d) => .out (.refused (.buffersOverlap b d))
  | none, none => phaseFetch s

/-- A host action (10_state.md R20): a write that starts a command runs that command's instruction. -/
def hostFetch (a : HostAction) (s : State) : Fetched :=
  match a with
  | .core => coreFetch s
  | .write addr width x =>
    match hostCommand addr width x s with
    | some i => .run i s
    | none => .out (.next (hostWrite addr width x s))
  | .read addr width => .out (.next (hostRead addr width s))
  | .bufWrite b off x => .out (hostBufWrite b off x s)
  | .bufRead b off => .out (hostBufRead b off s)
  | .attach b w => .out (hostAttach b w s)
  | .reset => .out (.next (resetCore s))

/-- The host's next action if there is one, else a core step (log 1). -/
def fetch (s : State) : Fetched :=
  match s.host with
  | [] => coreFetch s
  | a :: rest => hostFetch a { s with host := rest }

/-- The platform on which a token is placed: `DST` holds `OUT_LEN` bytes, and `SRC` the placed bytes, past `DST` where it
would overlap it. -/
def placePlatform (s : State) : Platform :=
  let dst : Window := { s.platform.dst with size := max s.platform.dst.size s.outLen.toNat }
  let src : Window := { s.platform.src with size := max s.platform.src.size tableStream }
  { s.platform with
    dst := dst
    src := if src.overlaps dst then { base := dst.base + dst.size, size := tableStream } else src }

/-- A table word placed where the next step fetches (logs 1, 15): a command is the host's next write to `CMD`, on an idle
core; a token stands at `SRC` offset 0, with the decoder in the context the word is read in. -/
def placeWord (nbits w : Nat) (s : State) : State :=
  if tableIsCommand nbits w then
    { s with phase := .idle, host := [.write s.platform.regBase 32 (word w)] }
  else
    { s with
      phase := if tableContext w = .first then .decFirst else .decLoop
      dstate := 0
      olset := true
      inPos := 0
      inLen := word tableStream
      mem := s.mem.store (placePlatform s).src.base (tableBytes nbits w)
      platform := placePlatform s
      host := [] }

end Sys2Proof.Machine
end

