-- ==== Sys2Proof/Machine/Step.lean ====
section
/-! DEFINITION. One step of the machine: what is fetched is run (10_state.md R46). -/

namespace Sys2Proof.Machine

/-- One step: the host's next action or a core step. -/
def step (s : State) : Host.Outcome State Fault Refusal :=
  match fetch s with
  | .run i s' => exec i s'
  | .out o => o

/-- The state with a table word where the next step fetches (logs 1, 15). -/
def State.withFetchWord (s : State) (nbits w : Nat) : State := placeWord nbits w s

end Sys2Proof.Machine
end

