-- ==== Sys2Proof/Safety.lean ====
section
/-! DEFINITION. What counts as a good state and a dutiful host, in the terms the claims use. -/

namespace Sys2Proof.Machine

/-- A decode is running (10_state.md R40). -/
abbrev State.decoding (s : State) : Prop := s.phase = .decFirst ∨ s.phase = .decLoop

/-- The invariant of the core: what the spec says holds of every state a run reaches. -/
structure State.Inv (s : State) : Prop where
  /-- The memory is in canonical form (log 3). -/
  mem_wf : s.mem.wf
  /-- `DSTATE` is 0 to 4 (10_state.md R37). -/
  dstate_legal : s.dstate.toNat ≤ 4
  /-- `DONE` and `ERR` are never both 1 (R24). -/
  one_end : ¬(s.done = true ∧ s.err = true)
  /-- `ERRCODE` is 1 to 6 or 8 exactly when `ERR` = 1, else 0 (60_exceptions.md R200). -/
  err_iff_code : s.err = true ↔ s.errcode ≠ .none
  /-- Code 7 is never recorded (R200). -/
  code_raised : s.errcode ≠ .inputTooLarge
  /-- A running command has cleared `DONE` and `ERR` (10_state.md R23). -/
  busy_clear : s.phase ≠ .idle → s.done = false ∧ s.err = false
  /-- The clamped registers keep their bounds (R25, R26, R30, R31, R48). -/
  inLen_le : s.inLen.toNat ≤ Config.bufMax
  outLen_le : s.outLen.toNat ≤ Config.outLenMax
  esrcLen_le : s.esrcLen.toNat ≤ Config.bufMax
  eoutCap_le : s.eoutCap.toNat ≤ Config.bufMax
  eoutPos_le : s.eoutPos.toNat ≤ Config.bufMax
  /-- During a decode the positions keep within the buffers (R33, R34). -/
  positions_le : s.decoding → s.inPos.toNat ≤ s.inLen.toNat ∧ s.outPos.toNat ≤ s.outLen.toNat
  /-- The first decoder step starts from position 0 in state 0 (R33, R34; 41_decoder.md R120). -/
  first_at_zero : s.phase = .decFirst → s.inPos = 0 ∧ s.outPos = 0 ∧ s.dstate = 0
  /-- Past the first step `OUT_LEN` has been supplied (41_decoder.md R121). -/
  loop_has_outLen : s.phase = .decLoop → s.olset = true
  /-- During a decode every byte below `OUT_POS` has been written (10_state.md R35). -/
  output_written : s.decoding → ∀ i < s.outPos.toNat, (s.mem.get? (s.addr .dst i)).isSome = true
  /-- `OUT_LEN` keeps its reset value until the host writes it (R26). -/
  outLen_unset : s.olset = false → s.outLen = 0
  /-- After a match the stream has at least the match's two bytes (R38, 42_token_encoder.md R165). -/
  match_in_stream : s.encLast = .matched → 2 ≤ s.eoutPos.toNat

/-- The host keeps its duties towards the memory of the buffers that a command uses, and of no other buffer: their bounding
registers within the attached memory (20_memory.md R62; log 9), and the pair that R72 keeps disjoint so (log 24). -/
def State.attachedFor (s : State) : Command → Prop
  | .decStart =>
    s.inLen.toNat ≤ s.platform.size .src ∧ s.outLen.toNat ≤ s.platform.size .dst
      ∧ s.platform.src.overlaps s.platform.dst = false
  | .brcCopy => s.outLen.toNat ≤ s.platform.size .dst
  | .encLit =>
    s.esrcLen.toNat ≤ s.platform.size .esrc ∧ s.eoutCap.toNat ≤ s.platform.size .eout
      ∧ s.platform.esrc.overlaps s.platform.eout = false
  | .encMatch | .encTerm =>
    s.eoutCap.toNat ≤ s.platform.size .eout ∧ s.platform.esrc.overlaps s.platform.eout = false
  | .encQuery => s.platform.esrc.overlaps s.platform.eout = false

/-- The host keeps those duties for the command that runs, if one does. -/
def State.Attached (s : State) : Prop := ∀ c, s.phase.command? = some c → s.attachedFor c

/-- The host action keeps the host's duties towards the buffers (70_reset_and_hazards.md R246): it stays within the
attached memory, and it neither writes a byte of a buffer that the running command uses nor re-attaches that buffer. -/
def HostAction.dutiful (s : State) : HostAction → Prop
  | .bufWrite b off _ => off < s.platform.size b ∧ s.inUse (s.addr b off) = false
  | .bufRead b off => off < s.platform.size b
  | .attach b _ => s.uses b = false
  | .write _ _ _ | .read _ _ | .reset | .core => True

end Sys2Proof.Machine
end

