-- ==== Sys2Proof/Certificates/Slice0/Obligations.lean ====
section
/-! DEFINITION. The statements for the provers. A state written `{ s with … }` is `s` with the named fields changed and
every other field and register as it was: that is the statement's frame. `State.byteAt` reads a byte of a buffer, `State.cell`
the byte of the memory at an address, `State.addr` gives the address of an offset of a buffer: a frame over `cell` says that
no byte of any buffer changes outside the addresses it names, also where buffers share memory (20_memory.md R72). -/

open Sys2Proof Sys2Proof.Machine

/-! ### Encoding -/

/-- Words written out bit by bit from the formats of 30_encoding.md R84 to R92 and R103 decode to what they stand for. -/
def Obligations.WrittenWordsDecode : Prop :=
  decodeToken .first [0b00010011, 0x41, 0x42] = .ok (.initLit 2, 1)
  ∧ decodeToken .state0 [0b00000010] = .ok (.lit 2, 1)
  ∧ decodeToken .first [0b00000000, 0x00, 0b00000001] = .ok (.litX (.got ⟨1, 1⟩), 3)
  ∧ decodeToken .state123 [0b00000101, 0b00000000] = .ok (.m1 1 1 (.got 0), 2)
  ∧ decodeToken .state4 [0b00001100, 0b11111111] = .ok (.m1b 3 0 (.got 0xFF), 2)
  ∧ decodeToken .state0 [0b01000100, 0b00000000] = .ok (.m2 2 1 0 (.got 0), 2)
  ∧ decodeToken .state4 [0b00100001, 0b00000001, 0b00000010] = .ok (.m3 1 (.got 0x0201), 3)
  ∧ decodeToken .state123 [0b00100000, 0x00, 0xDF, 0x00, 0x00] = .ok (.m3X (.got ⟨1, 0xDF⟩) (.got 0), 5)
  ∧ decodeToken .state0 [0b00011001, 0x00, 0x00] = .ok (.m4 1 1 (.got 0), 3)
  ∧ decodeToken .state0 [0b00010000, 0x01, 0x04, 0x00] = .ok (.m4X 0 (.got ⟨0, 1⟩) (.got 4), 4)
  ∧ decodeToken .first [0b00010001, 0b00000011, 0x00] = .ok (.term 3, 3)
  ∧ decodeCommand 0b0101 = .ok .encTerm

/-- Decoding the bytes of a well-formed token, whatever follows them, gives that token back with its size, in every context
in which the opcode map gives its first byte to its class. -/
def Obligations.TokenDecodesFromItsBytes : Prop :=
  ∀ (i : Instr) (ctx : Context) (rest : List Byte),
    i.WellFormed = true → i.isToken = true → i.fits ctx = true →
    decodeToken ctx (encodeToken i ++ rest) = .ok (i, (encodeToken i).length)

/-- The classes of the opcode map (R82), for every byte, context and following bytes. "M4 (TERM)" is the terminator when the
distance word `v` is there and `v >> 2` = 0. -/
def Obligations.OpcodeMapClasses : Prop :=
  ∀ (ctx : Context) (t : Byte) (bs : List Byte), ∃ i n, decodeToken ctx (t :: bs) = .ok (i, n) ∧
    (ctx = .first → 0x12 ≤ t.toNat → i.mnemonic = "INIT_LIT")
    ∧ (ctx = .first ∨ ctx = .state0 → t.toNat = 0 → i.mnemonic = "LIT_X")
    ∧ (ctx = .first ∨ ctx = .state0 → 0x01 ≤ t.toNat → t.toNat ≤ 0x0F → i.mnemonic = "LIT")
    ∧ (ctx = .state123 → t.toNat ≤ 0x0F → i.mnemonic = "M1")
    ∧ (ctx = .state4 → t.toNat ≤ 0x0F → i.mnemonic = "M1B")
    ∧ (t.toNat = 0x10 → i.mnemonic = "M4_X")
    ∧ (t.toNat = 0x11 → (∃ v, readLE16 bs = .got v ∧ v.toNat >>> 2 = 0) → i.mnemonic = "TERM")
    ∧ (t.toNat = 0x11 → (¬∃ v, readLE16 bs = .got v ∧ v.toNat >>> 2 = 0) → i.mnemonic = "M4")
    ∧ (ctx ≠ .first → 0x12 ≤ t.toNat → t.toNat ≤ 0x1F → t.toNat ≠ 0x18 → i.mnemonic = "M4")
    ∧ (ctx ≠ .first → t.toNat = 0x18 → i.mnemonic = "M4_X")
    ∧ (ctx ≠ .first → t.toNat = 0x20 → i.mnemonic = "M3_X")
    ∧ (ctx ≠ .first → 0x21 ≤ t.toNat → t.toNat ≤ 0x3F → i.mnemonic = "M3")
    ∧ (ctx ≠ .first → 0x40 ≤ t.toNat → i.mnemonic = "M2")

/-- For every byte, context and following bytes the opcode table, the heavier mask winning, selects one row, and it is of
the class that the decoder gives (R106). -/
def Obligations.TableSelectsDecodedClass : Prop :=
  ∀ (ctx : Context) (t : Byte) (bs : List Byte),
    (selectRow ctx t bs).map Row.mnemonic = some (tokenOf ctx t bs).1.mnemonic

/-- INIT_LIT, LIT and LIT_X (R90, R91): the run's length from the opcode byte `t` and the zero-extension, base 18, and the
state it leaves (41_decoder.md R130 to R132). -/
def Obligations.LiteralFormats : Prop :=
  ∀ (t : Byte) (rest : List Byte),
    (0x12 ≤ t.toNat → ∃ i, decodeToken .first (t :: rest) = .ok (i, 1) ∧
      ∃ n d, literalOperands i = some (n, d) ∧ n = t.toNat - 17 ∧ 1 ≤ n ∧ n ≤ 238 ∧ d.toNat = min n 4)
    ∧ (∀ ctx, ctx = .first ∨ ctx = .state0 → 1 ≤ t.toNat → t.toNat ≤ 0x0F →
      ∃ i, decodeToken ctx (t :: rest) = .ok (i, 1) ∧
      ∃ n d, literalOperands i = some (n, d) ∧ n = t.toNat + 3 ∧ 4 ≤ n ∧ n ≤ 18 ∧ d.toNat = 4)
    ∧ (∀ ctx (k : Nat) (b : Byte), ctx = .first ∨ ctx = .state0 → k ≤ Config.kMax → b ≠ 0 →
      ∃ i, decodeToken ctx (0x00 :: (List.replicate k 0 ++ b :: rest)) = .ok (i, k + 2) ∧
      ∃ n d, literalOperands i = some (n, d) ∧ n = 18 + 255 * k + b.toNat ∧ d.toNat = 4)

/-- M1, M1B and M2 (R84 to R86): length, distance, trailing count and ranges, from the opcode byte `t` and the byte after. -/
def Obligations.ShortMatchFormats : Prop :=
  ∀ (t next : Byte) (rest : List Byte),
    (t.toNat < 16 → ∃ i, decodeToken .state123 (t :: next :: rest) = .ok (i, 2) ∧
      ∃ dist, matchOperands i = some (2, dist, field 0 2 t) ∧
        dist = (t.toNat >>> 2) + (next.toNat <<< 2) + 1 ∧ 1 ≤ dist ∧ dist ≤ 1024)
    ∧ (t.toNat < 16 → ∃ i, decodeToken .state4 (t :: next :: rest) = .ok (i, 2) ∧
      ∃ dist, matchOperands i = some (3, dist, field 0 2 t) ∧
        dist = 0x0800 + 1 + (t.toNat >>> 2) + (next.toNat <<< 2) ∧ 2049 ≤ dist ∧ dist ≤ 3072)
    ∧ (∀ ctx, ctx ≠ .first → 0x40 ≤ t.toNat → ∃ i, decodeToken ctx (t :: next :: rest) = .ok (i, 2) ∧
      ∃ len dist, matchOperands i = some (len, dist, field 0 2 t) ∧
        len = (t.toNat >>> 5) + 1 ∧ 3 ≤ len ∧ len ≤ 8 ∧
        dist = (next.toNat <<< 3) + ((t.toNat >>> 2) &&& 7) + 1 ∧ 1 ≤ dist ∧ dist ≤ 2048)

/-- M3 and M3_X (R87): the length is direct or zero-extended with base 33, the distance word is little-endian. -/
def Obligations.MediumMatchFormats : Prop :=
  ∀ (ctx : Context) (t lo hi : Byte) (rest : List Byte), ctx ≠ .first →
    (0x21 ≤ t.toNat → t.toNat ≤ 0x3F → ∃ i, decodeToken ctx (t :: lo :: hi :: rest) = .ok (i, 3) ∧
      ∃ dist, matchOperands i = some ((t.toNat &&& 31) + 2, dist, field 0 2 lo) ∧
        dist = ((lo.toNat ||| (hi.toNat <<< 8)) >>> 2) + 1 ∧ 1 ≤ dist ∧ dist ≤ 16384)
    ∧ (∀ (k : Nat) (b : Byte), k ≤ Config.kMax → b ≠ 0 → ∃ i,
      decodeToken ctx (0x20 :: (List.replicate k 0 ++ b :: lo :: hi :: rest)) = .ok (i, k + 4) ∧
      ∃ dist, matchOperands i = some (33 + 255 * k + b.toNat, dist, field 0 2 lo) ∧
        dist = ((lo.toNat ||| (hi.toNat <<< 8)) >>> 2) + 1 ∧ 1 ≤ dist ∧ dist ≤ 16384)

/-- M4 and M4_X (R88): the length is direct or zero-extended with base 9; where `dist_base` is not 0 the token is a match at
distance `dist_base` + 0x4000, else it is none. The base 9 is PRESUMED by the spec itself (log 11). -/
def Obligations.LongMatchFormats : Prop :=
  ∀ (ctx : Context) (t lo hi : Byte) (rest : List Byte), ctx ≠ .first → 0x10 ≤ t.toNat → t.toNat ≤ 0x1F →
    (t.toNat &&& 7 ≠ 0 → ∃ i, decodeToken ctx (t :: lo :: hi :: rest) = .ok (i, 3) ∧
      (((t.toNat &&& 8) <<< 11) + ((lo.toNat ||| (hi.toNat <<< 8)) >>> 2) = 0 → matchOperands i = none) ∧
      (((t.toNat &&& 8) <<< 11) + ((lo.toNat ||| (hi.toNat <<< 8)) >>> 2) ≠ 0 →
        ∃ dist, matchOperands i = some ((t.toNat &&& 7) + 2, dist, field 0 2 lo) ∧
          dist = ((t.toNat &&& 8) <<< 11) + ((lo.toNat ||| (hi.toNat <<< 8)) >>> 2) + 0x4000 ∧
          16385 ≤ dist ∧ dist ≤ 49151))
    ∧ (t.toNat &&& 7 = 0 → ∀ (k : Nat) (b : Byte), k ≤ Config.kMax → b ≠ 0 → ∃ i,
      decodeToken ctx (t :: (List.replicate k 0 ++ b :: lo :: hi :: rest)) = .ok (i, k + 4) ∧
      (((t.toNat &&& 8) <<< 11) + ((lo.toNat ||| (hi.toNat <<< 8)) >>> 2) = 0 → matchOperands i = none) ∧
      (((t.toNat &&& 8) <<< 11) + ((lo.toNat ||| (hi.toNat <<< 8)) >>> 2) ≠ 0 →
        ∃ dist, matchOperands i = some (9 + 255 * k + b.toNat, dist, field 0 2 lo) ∧
          dist = ((t.toNat &&& 8) <<< 11) + ((lo.toNat ||| (hi.toNat <<< 8)) >>> 2) + 0x4000 ∧
          16385 ≤ dist ∧ dist ≤ 49151))

/-- The decoder takes as a terminator exactly the bytes `11 lo 00` with `lo` ≤ 3 (R89). -/
def Obligations.TerminatorBytesExactly : Prop :=
  ∀ (ctx : Context) (bs : List Byte),
    (∃ l n, decodeToken ctx bs = .ok (.term l, n)) ↔
      ∃ lo rest, bs = 0x11 :: lo :: 0x00 :: rest ∧ lo.toNat ≤ 3

/-- The zero-extended length read (R92, R94, R125) with any cap: `k` ≤ cap zero bytes and a nonzero byte are read; the zero
byte that passes the cap is `OUTPUT_OVERRUN` whatever follows; running out of bytes before is `INPUT_OVERRUN`. The decoder's
own cap is `K_MAX` = 8421502: LIT_X, M3_X and M4_X (with the opcode bytes 0x00, 0x20, 0x10 and 0x18) with one zero byte more
fail so. A length with more than `K_MAX` zero bytes is larger than any output buffer. -/
def Obligations.ZeroExtensionIsReadAndCapped : Prop :=
  Config.kMax = 8421502
  ∧ (∀ (cap k : Nat) (b : Byte) (rest : List Byte),
    (k ≤ cap → b ≠ 0 → readZext cap 0 (List.replicate k 0 ++ b :: rest) = .got ⟨k, b⟩)
    ∧ readZext cap 0 (List.replicate (cap + 1) 0 ++ rest) = .failed .outputOverrun
    ∧ (k ≤ cap → readZext cap 0 (List.replicate k 0) = .failed .inputOverrun)
    ∧ (∀ base, Config.kMax < k → Config.outLenMax < zextLen base ⟨k, b⟩))
  ∧ ∀ (ctx : Context) (rest zeros : List Byte), zeros = List.replicate (Config.kMax + 1) 0 →
    (ctx = .first ∨ ctx = .state0 →
      ∃ n, decodeToken ctx (0x00 :: (zeros ++ rest)) = .ok (.litX (.failed .outputOverrun), n))
    ∧ (ctx ≠ .first → ∃ v n, decodeToken ctx (0x20 :: (zeros ++ rest)) = .ok (.m3X (.failed .outputOverrun) v, n))
    ∧ (∃ v n, decodeToken ctx (0x10 :: (zeros ++ rest)) = .ok (.m4X 0 (.failed .outputOverrun) v, n))
    ∧ (ctx ≠ .first → ∃ v n, decodeToken ctx (0x18 :: (zeros ++ rest)) = .ok (.m4X 1 (.failed .outputOverrun) v, n))

/-- ZextBytes (R161, R95): `k` = (x − 1) div 255 zero bytes and one byte `x − 255·k` in 1…255; the decoder reads it back. -/
def Obligations.ZextBytesReadBack : Prop :=
  ∀ (x cap : Nat) (rest : List Byte), 1 ≤ x → ∃ b : Byte,
    zextBytes x = List.replicate ((x - 1) / 255) 0 ++ [b] ∧ (zextBytes x).length = (x - 1) / 255 + 1 ∧
    1 ≤ b.toNat ∧ 255 * ((x - 1) / 255) + b.toNat = x ∧
    ((x - 1) / 255 ≤ cap → readZext cap 0 (zextBytes x ++ rest) = .got ⟨(x - 1) / 255, b⟩)

/-- The class of a match (R170) by the ranges of its length, distance and preceding literal count, each class alone: every
range that no class takes is "not encodable". -/
def Obligations.MatchClassesByRange : Prop :=
  ∀ len dist plit : Nat,
    (classify len dist plit = some .m1 ↔ len = 2 ∧ 1 ≤ dist ∧ dist ≤ 1024 ∧ 1 ≤ plit ∧ plit ≤ 3)
    ∧ (classify len dist plit = some .m2 ↔ 3 ≤ len ∧ len ≤ 8 ∧ 1 ≤ dist ∧ dist ≤ 2048)
    ∧ (classify len dist plit = some .m1b ↔ len = 3 ∧ 2048 < dist ∧ dist ≤ 3072 ∧ 4 ≤ plit)
    ∧ (classify len dist plit = some .m3 ↔ 3 ≤ len ∧ len ≤ 33 ∧ 1 ≤ dist ∧ dist ≤ 16384 ∧
        ¬(len ≤ 8 ∧ dist ≤ 2048) ∧ ¬(len = 3 ∧ 2048 < dist ∧ dist ≤ 3072 ∧ 4 ≤ plit))
    ∧ (classify len dist plit = some .m3X ↔ 34 ≤ len ∧ 1 ≤ dist ∧ dist ≤ 16384)
    ∧ (classify len dist plit = some .m4 ↔ 3 ≤ len ∧ len ≤ 9 ∧ 16384 < dist ∧ dist ≤ 49151)
    ∧ (classify len dist plit = some .m4X ↔ 10 ≤ len ∧ 16384 < dist ∧ dist ≤ 49151)
    ∧ (classify len dist plit = none ↔ len < 2 ∨ dist < 1 ∨ 49151 < dist
        ∨ len = 2 ∧ ¬(dist ≤ 1024 ∧ 1 ≤ plit ∧ plit ≤ 3))

/-- The bytes of every encodable match (R170 to R177) decode to a match of that length and distance with no trailing
literals, in every later state, M1 only in states 1 to 3 and M1B only in state 4; up to the zero-run cap (R186). -/
def Obligations.SerializedMatchDecodes : Prop :=
  ∀ (len dist plit : Nat) (c : MatchClass) (ctx : Context) (rest : List Byte),
    classify len dist plit = some c → ctx ≠ .first → (c = .m1 → ctx = .state123) → (c = .m1b → ctx = .state4) →
    (c = .m3X → (len - 34) / 255 ≤ Config.kMax) → (c = .m4X → (len - 10) / 255 ≤ Config.kMax) →
    ∃ i, decodeToken ctx (matchBytes c len dist ++ rest) = .ok (i, (matchBytes c len dist).length) ∧
      matchOperands i = some (len, dist, 0)

/-- The short-literal form (R165, 30_encoding.md R96): the bytes of an encodable match with a count 1 to 3 OR-ed into the last
byte but one decode to the same match with that many trailing literals. -/
def Obligations.OredTrailingCountDecodes : Prop :=
  ∀ (len dist plit n : Nat) (c : MatchClass) (ctx : Context) (bs rest : List Byte),
    classify len dist plit = some c → ctx ≠ .first → (c = .m1 → ctx = .state123) → (c = .m1b → ctx = .state4) →
    (c = .m3X → (len - 34) / 255 ≤ Config.kMax) → (c = .m4X → (len - 10) / 255 ≤ Config.kMax) →
    1 ≤ n → n ≤ 3 → bs = matchBytes c len dist →
    ∃ i, decodeToken ctx (bs.set (bs.length - 2) (bs.getD (bs.length - 2) 0 ||| byte n) ++ rest) =
        .ok (i, bs.length) ∧
      matchOperands i = some (len, dist, BitVec.ofNat 2 n)

/-- The header of every literal run that has one (R162 to R167) decodes to a literal run of that length, as the stream's
first token where it was written as one, else in state 0, and leaves the state the rules say; up to the zero-run cap. -/
def Obligations.LiteralHeaderDecodes : Prop :=
  ∀ (p n : Nat) (bytes rest : List Byte), 1 ≤ n → litForm p n = .header bytes → (n - 19) / 255 ≤ Config.kMax →
    ∃ i, decodeToken (if p = 0 then .first else .state0) (bytes ++ rest) = .ok (i, bytes.length) ∧
      literalOperands i = some (n, if p = 0 then BitVec.ofNat 3 (min n 4) else 4)

/-- The cost of a match (R178) is the length of its bytes, by class, and 0 exactly when it is not encodable. -/
def Obligations.CostIsLengthOfBytes : Prop :=
  ∀ len dist plit : Nat,
    (classify len dist plit = none ↔ cost len dist plit = 0)
    ∧ (∀ c, classify len dist plit = some c → cost len dist plit = (matchBytes c len dist).length)
    ∧ (classify len dist plit = some .m1 ∨ classify len dist plit = some .m1b ∨ classify len dist plit = some .m2 →
      cost len dist plit = 2)
    ∧ (classify len dist plit = some .m3 ∨ classify len dist plit = some .m4 → cost len dist plit = 3)
    ∧ (classify len dist plit = some .m3X → cost len dist plit = 4 + (len - 34) / 255)
    ∧ (classify len dist plit = some .m4X → cost len dist plit = 4 + (len - 10) / 255)

/-! ### The copier -/

/-- The overlap semantics (40_backref_copy.md R112): with `B` the content before, `DST[p + i]` = `B[p − dist + (i mod dist)]`
and every other byte is unchanged, of `DST` and of the whole memory. -/
def Obligations.CopyIsPeriodicExpansion : Prop :=
  ∀ (s : State) (p dist len : Nat) (m : Memory), backRefCopy p dist len s = .ok m →
    (∀ i < len, { s with mem := m }.byteAt .dst (p + i) = s.byteAt .dst (p - dist + i % dist))
    ∧ ∀ a, a < s.addr .dst p ∨ s.addr .dst (p + len) ≤ a → { s with mem := m }.cell a = s.cell a

/-- BRC_COPY in its core step (R114, R115): the lookbehind check first, then the output check, each ending in error with
nothing copied; else the periodic copy. Frame: only `DST` from `BRC_POS` on, `STATUS` and `PHASE` change. -/
def Obligations.BrcCopyRuns : Prop :=
  ∀ s : State, s.phase = .brcRun →
    (s.brcDist.toNat < 1 ∨ s.brcPos.toNat < s.brcDist.toNat →
      exec .brcCopy s = .next { s with
        err := true, done := false, errcode := .lookbehindUnderrun, phase := .idle })
    ∧ (1 ≤ s.brcDist.toNat → s.brcDist.toNat ≤ s.brcPos.toNat →
      s.outLen.toNat < s.brcPos.toNat + s.brcLen.toNat →
      exec .brcCopy s = .next { s with err := true, done := false, errcode := .outputOverrun, phase := .idle })
    ∧ (1 ≤ s.brcDist.toNat → s.brcDist.toNat ≤ s.brcPos.toNat →
      s.brcPos.toNat + s.brcLen.toNat ≤ s.outLen.toNat →
      ∃ m, exec .brcCopy s = .next { s with
          mem := m, done := true, err := false, errcode := .none, phase := .idle }
        ∧ (∀ i < s.brcLen.toNat, { s with mem := m }.byteAt .dst (s.brcPos.toNat + i) =
            s.byteAt .dst (s.brcPos.toNat - s.brcDist.toNat + i % s.brcDist.toNat))
        ∧ ∀ a, a < s.addr .dst s.brcPos.toNat ∨ s.addr .dst (s.brcPos.toNat + s.brcLen.toNat) ≤ a →
            { s with mem := m }.cell a = s.cell a)

/-! ### Tokens -/

/-- INIT_LIT, LIT and LIT_X complete (R126, R130 to R132) when the output and the input have room: the literals are copied,
both positions advance by their number, `DSTATE` is as the token says. Frame: no other field, no other byte of memory. -/
def Obligations.LiteralTokensComplete : Prop :=
  ∀ (i : Instr) (n : Nat) (d : BitVec 3) (s : State), literalOperands i = some (n, d) →
    s.outPos.toNat + n ≤ s.outLen.toNat → s.inPos.toNat + n ≤ s.inLen.toNat →
    ∃ m, exec i s = .next { s with
        mem := m, outPos := word (s.outPos.toNat + n), inPos := word (s.inPos.toNat + n), dstate := d }
      ∧ (∀ j < n, { s with mem := m }.byteAt .dst (s.outPos.toNat + j) = s.byteAt .src (s.inPos.toNat + j))
      ∧ ∀ a, a < s.addr .dst s.outPos.toNat ∨ s.addr .dst (s.outPos.toNat + n) ≤ a →
          { s with mem := m }.cell a = s.cell a

/-- INIT_LIT, LIT and LIT_X end the decode in error where there is no room (R126, R130 to R132): the output check before
the input check; a failed zero-extension before both. The error end is R205's and writes no byte. -/
def Obligations.LiteralTokensFail : Prop :=
  ∀ s : State,
    (∀ (i : Instr) (n : Nat) (d : BitVec 3), literalOperands i = some (n, d) →
      (s.outLen.toNat < s.outPos.toNat + n → exec i s = .next { s with
        err := true, done := false, errcode := .outputOverrun, inPos := 0, outPos := 0, dstate := 0, phase := .idle })
      ∧ (s.outPos.toNat + n ≤ s.outLen.toNat → s.inLen.toNat < s.inPos.toNat + n → exec i s = .next { s with
        err := true, done := false, errcode := .inputOverrun, inPos := 0, outPos := 0, dstate := 0, phase := .idle }))
    ∧ ∀ e, exec (.litX (.failed e)) s = .next { s with
        err := true, done := false, errcode := e, inPos := 0, outPos := 0, dstate := 0, phase := .idle }

/-- M1, M1B, M2, M3, M3_X, M4 and M4_X complete (R127, R133 to R139) when the distance is within the output and the output
and the input have room: the match is the periodic copy, its trailing literals follow, `DSTATE` is their count. The trailing
literals are the bytes of `SRC` when the host keeps `SRC` and `DST` disjoint and `IN_LEN` and `OUT_LEN` within the attached
memory (20_memory.md R62, R72). Frame: no other field, no other byte of memory. -/
def Obligations.MatchTokensComplete : Prop :=
  ∀ (i : Instr) (len dist : Nat) (k : BitVec 2) (s : State), matchOperands i = some (len, dist, k) →
    dist ≤ s.outPos.toNat → s.outPos.toNat + len + k.toNat ≤ s.outLen.toNat →
    s.inPos.toNat + k.toNat ≤ s.inLen.toNat →
    ∃ m, exec i s = .next { s with
        mem := m, outPos := word (s.outPos.toNat + len + k.toNat), inPos := word (s.inPos.toNat + k.toNat)
        dstate := k.setWidth 3 }
      ∧ (∀ j < len, { s with mem := m }.byteAt .dst (s.outPos.toNat + j) =
          s.byteAt .dst (s.outPos.toNat - dist + j % dist))
      ∧ (s.attachedFor .decStart → ∀ j < k.toNat, { s with mem := m }.byteAt .dst (s.outPos.toNat + len + j) =
          s.byteAt .src (s.inPos.toNat + j))
      ∧ ∀ a, a < s.addr .dst s.outPos.toNat ∨ s.addr .dst (s.outPos.toNat + len + k.toNat) ≤ a →
          { s with mem := m }.cell a = s.cell a

/-- The order of the checks inside a match token (R145, 60_exceptions.md R202): lookbehind, the match's output, the trailing
literals' output, their input. Each is the error end of R205; the token writes no byte (R207, log 10). -/
def Obligations.MatchTokensFailInOrder : Prop :=
  ∀ (i : Instr) (len dist : Nat) (k : BitVec 2) (s : State), matchOperands i = some (len, dist, k) →
    (s.outPos.toNat < dist → exec i s = .next { s with
      err := true, done := false, errcode := .lookbehindUnderrun, inPos := 0, outPos := 0, dstate := 0, phase := .idle })
    ∧ (dist ≤ s.outPos.toNat → s.outLen.toNat < s.outPos.toNat + len + k.toNat → exec i s = .next { s with
      err := true, done := false, errcode := .outputOverrun, inPos := 0, outPos := 0, dstate := 0, phase := .idle })
    ∧ (dist ≤ s.outPos.toNat → s.outPos.toNat + len + k.toNat ≤ s.outLen.toNat →
      s.inLen.toNat < s.inPos.toNat + k.toNat → exec i s = .next { s with
      err := true, done := false, errcode := .inputOverrun, inPos := 0, outPos := 0, dstate := 0, phase := .idle })

/-- A match token whose operand bytes are missing, or whose zero run passes the cap, ends the decode with the error that
reading them raised (R124, R125, R133 to R139), a zero-extension before the distance word. -/
def Obligations.MissingOperandsFail : Prop :=
  ∀ (s : State) (e : ErrCode) (i : Instr),
    ((∃ d k, i = .m1 d k (.failed e)) ∨ (∃ d k, i = .m1b d k (.failed e)) ∨ (∃ l d k, i = .m2 l d k (.failed e))
      ∨ (∃ l, i = .m3 l (.failed e)) ∨ (∃ v, i = .m3X (.failed e) v) ∨ (∃ z, i = .m3X (.got z) (.failed e))
      ∨ (∃ h l, i = .m4 h l (.failed e)) ∨ (∃ h v, i = .m4X h (.failed e) v)
      ∨ (∃ h z, i = .m4X h (.got z) (.failed e))) →
    exec i s = .next { s with
      err := true, done := false, errcode := e, inPos := 0, outPos := 0, dstate := 0, phase := .idle }

/-- TERM ends the decode successfully (R140, 60_exceptions.md R206): `DSTATE`, the positions and every buffer stay, and the
low bits of `lo` are ignored. -/
def Obligations.TerminatorEndsDecode : Prop :=
  ∀ (lo : BitVec 2) (s : State),
    exec (.term lo) s = .next { s with done := true, err := false, errcode := .none, phase := .idle }

/-- The strict terminator check (R141): M4 or M4_X with `dist_base` = 0 is `INPUT_OVERRUN` unless its length is 3. -/
def Obligations.MalformedTerminatorFails : Prop :=
  ∀ (h : BitVec 1) (l : BitVec 3) (z : Zext) (v : Half) (s : State), m4DistBase h v = 0 →
    (m4Len l ≠ 3 → exec (.m4 h l (.got v)) s = .next { s with
      err := true, done := false, errcode := .inputOverrun, inPos := 0, outPos := 0, dstate := 0, phase := .idle })
    ∧ (m4Len l = 3 → exec (.m4 h l (.got v)) s = .next { s with
      done := true, err := false, errcode := .none, phase := .idle })
    ∧ exec (.m4X h (.got z) (.got v)) s = .next { s with
      err := true, done := false, errcode := .inputOverrun, inPos := 0, outPos := 0, dstate := 0, phase := .idle }

/-! ### Commands -/

/-- DEC_START on an idle core (R120, 10_state.md R23): accepted, from position 0 in state 0. Frame: nothing else. -/
def Obligations.DecStartIsAccepted : Prop :=
  ∀ s : State, s.phase = .idle → exec .decStart s = .next { s with
    done := false, err := false, errcode := .none, phase := .decFirst, inPos := 0, outPos := 0, dstate := 0 }

/-- A host write of `CMD` (10_state.md R23): while busy, or with `OP` 0 or 7 to 15, it changes nothing; else it accepts the
command, whatever bits[31:4] are: `DONE`, `ERR`, `ERRCODE` cleared, `PHASE` the command's first, and for DEC_START the
positions and `DSTATE` cleared. A read of `CMD` returns 0. -/
def Obligations.CmdWriteAcceptsCommand : Prop :=
  ∀ (s : State) (w : Word) (rest : List HostAction),
    (s.host = .write s.platform.regBase 32 w :: rest →
      (s.phase ≠ .idle ∨ (field 0 4 w).toNat = 0 ∨ 7 ≤ (field 0 4 w).toNat → step s = .next { s with host := rest })
      ∧ (s.phase = .idle → (field 0 4 w).toNat = 1 → step s = .next { s with
          host := rest, done := false, err := false, errcode := .none, phase := .decFirst
          inPos := 0, outPos := 0, dstate := 0 })
      ∧ ∀ n p, (n, p) ∈ [(2, Phase.brcRun), (3, .encLitRun), (4, .encMatchRun), (5, .encTermRun), (6, .encQueryRun)] →
          s.phase = .idle → (field 0 4 w).toNat = n → step s = .next { s with
            host := rest, done := false, err := false, errcode := .none, phase := p })
    ∧ (s.host = .read s.platform.regBase 32 :: rest → step s = .next { s with host := rest, rdata := 0 })

/-- ENC_LIT in its core step emits (42_token_encoder.md R180, R162 to R168): with no literals it only succeeds; else, when
the sequence and `ESRC_LEN` allow it and the bytes fit, it appends the header and the literals, or ORs the count into the
byte at `EOUT_POS` − 2 and appends the literals. Frame: no other field, no other byte of memory. -/
def Obligations.EncLitEmits : Prop :=
  ∀ s : State, s.phase = .encLitRun →
    (s.encLlen.toNat = 0 → exec .encLit s = .next { s with
      done := true, err := false, errcode := .none, phase := .idle })
    ∧ (∀ hdr, s.encLlen.toNat ≠ 0 → s.encLast = .none ∨ s.encLast = .matched →
      s.encLstart.toNat + s.encLlen.toNat ≤ s.esrcLen.toNat →
      (s.eoutPos.toNat = 0 ∧ s.encLlen.toNat ≤ 238 ∧ hdr = [byte (17 + s.encLlen.toNat)]
        ∨ s.eoutPos.toNat ≠ 0 ∧ 4 ≤ s.encLlen.toNat ∧ s.encLlen.toNat ≤ 18 ∧ hdr = [byte (s.encLlen.toNat - 3)]
        ∨ (s.eoutPos.toNat = 0 ∧ 239 ≤ s.encLlen.toNat ∨ s.eoutPos.toNat ≠ 0 ∧ 19 ≤ s.encLlen.toNat)
          ∧ hdr = 0x00 :: zextBytes (s.encLlen.toNat - 18)) →
      s.eoutPos.toNat + hdr.length + s.encLlen.toNat ≤ s.eoutCap.toNat →
      ∃ m, exec .encLit s = .next { s with
          mem := m, eoutPos := word (s.eoutPos.toNat + hdr.length + s.encLlen.toNat), encLast := .literal
          done := true, err := false, errcode := .none, phase := .idle }
        ∧ (∀ j < hdr.length, { s with mem := m }.byteAt .eout (s.eoutPos.toNat + j) = hdr.getD j 0)
        ∧ (∀ j < s.encLlen.toNat, { s with mem := m }.byteAt .eout (s.eoutPos.toNat + hdr.length + j) =
            s.byteAt .esrc (s.encLstart.toNat + j))
        ∧ ∀ a, a < s.addr .eout s.eoutPos.toNat
              ∨ s.addr .eout (s.eoutPos.toNat + hdr.length + s.encLlen.toNat) ≤ a →
            { s with mem := m }.cell a = s.cell a)
    ∧ (s.encLlen.toNat ≠ 0 → s.encLlen.toNat ≤ 3 → s.encLast = .matched → 2 ≤ s.eoutPos.toNat →
      s.encLstart.toNat + s.encLlen.toNat ≤ s.esrcLen.toNat →
      s.eoutPos.toNat + s.encLlen.toNat ≤ s.eoutCap.toNat →
      ∃ m, exec .encLit s = .next { s with
          mem := m, eoutPos := word (s.eoutPos.toNat + s.encLlen.toNat), encLast := .literal
          done := true, err := false, errcode := .none, phase := .idle }
        ∧ { s with mem := m }.byteAt .eout (s.eoutPos.toNat - 2) =
            s.byteAt .eout (s.eoutPos.toNat - 2) ||| byte s.encLlen.toNat
        ∧ (∀ j < s.encLlen.toNat, { s with mem := m }.byteAt .eout (s.eoutPos.toNat + j) =
            s.byteAt .esrc (s.encLstart.toNat + j))
        ∧ ∀ a, a ≠ s.addr .eout (s.eoutPos.toNat - 2) →
            a < s.addr .eout s.eoutPos.toNat ∨ s.addr .eout (s.eoutPos.toNat + s.encLlen.toNat) ≤ a →
            { s with mem := m }.cell a = s.cell a)

/-- ENC_LIT in its core step refuses (R180, 60_exceptions.md R204): a run after a run or the terminator, then literals past
`ESRC_LEN`, then a run of 1 to 3 with no match before it, each `COMPRESS_INTERNAL`; then `OUTPUT_OVERRUN`. Nothing is
written and `EOUT_POS` and `ENC_LAST` stay. -/
def Obligations.EncLitRefuses : Prop :=
  ∀ s : State, s.phase = .encLitRun → s.encLlen.toNat ≠ 0 →
    (s.encLast = .literal ∨ s.encLast = .terminated ∨ s.esrcLen.toNat < s.encLstart.toNat + s.encLlen.toNat
      ∨ s.eoutPos.toNat ≠ 0 ∧ s.encLlen.toNat ≤ 3 ∧ s.encLast ≠ .matched →
      exec .encLit s = .next { s with err := true, done := false, errcode := .compressInternal, phase := .idle })
    ∧ (s.encLast = .none ∨ s.encLast = .matched → s.encLstart.toNat + s.encLlen.toNat ≤ s.esrcLen.toNat →
      (∀ hdr, litForm s.eoutPos.toNat s.encLlen.toNat = .header hdr →
        s.eoutCap.toNat < s.eoutPos.toNat + hdr.length + s.encLlen.toNat →
        exec .encLit s = .next { s with err := true, done := false, errcode := .outputOverrun, phase := .idle })
      ∧ (s.eoutPos.toNat ≠ 0 → s.encLlen.toNat ≤ 3 → s.encLast = .matched →
        s.eoutCap.toNat < s.eoutPos.toNat + s.encLlen.toNat →
        exec .encLit s = .next { s with err := true, done := false, errcode := .outputOverrun, phase := .idle }))

/-- ENC_MATCH in its core step (R181, R204): after nothing or a terminator, or not encodable, `COMPRESS_INTERNAL`; else
`OUTPUT_OVERRUN` when its bytes do not fit; else it appends the bytes of its class. Frame: no other field, no other byte. -/
def Obligations.EncMatchRuns : Prop :=
  ∀ s : State, s.phase = .encMatchRun →
    (s.encLast = .none ∨ s.encLast = .terminated
      ∨ classify s.encMlen.toNat s.encMdist.toNat s.encPlit.toNat = none →
      exec .encMatch s = .next { s with err := true, done := false, errcode := .compressInternal, phase := .idle })
    ∧ ∀ c bs, s.encLast = .literal ∨ s.encLast = .matched →
      classify s.encMlen.toNat s.encMdist.toNat s.encPlit.toNat = some c →
      bs = matchBytes c s.encMlen.toNat s.encMdist.toNat →
      (s.eoutCap.toNat < s.eoutPos.toNat + bs.length → exec .encMatch s = .next { s with
        err := true, done := false, errcode := .outputOverrun, phase := .idle })
      ∧ (s.eoutPos.toNat + bs.length ≤ s.eoutCap.toNat → ∃ m, exec .encMatch s = .next { s with
          mem := m, eoutPos := word (s.eoutPos.toNat + bs.length), encLast := .matched
          done := true, err := false, errcode := .none, phase := .idle }
        ∧ (∀ j < bs.length, { s with mem := m }.byteAt .eout (s.eoutPos.toNat + j) = bs.getD j 0)
        ∧ ∀ a, a < s.addr .eout s.eoutPos.toNat ∨ s.addr .eout (s.eoutPos.toNat + bs.length) ≤ a →
            { s with mem := m }.cell a = s.cell a)

/-- ENC_TERM in its core step (R182): a second terminator is `COMPRESS_INTERNAL`; else `OUTPUT_OVERRUN` when 3 bytes do not
fit; else it appends `11 00 00`. Frame: no other field, no other byte. -/
def Obligations.EncTermRuns : Prop :=
  ∀ s : State, s.phase = .encTermRun →
    (s.encLast = .terminated → exec .encTerm s = .next { s with
      err := true, done := false, errcode := .compressInternal, phase := .idle })
    ∧ (s.encLast ≠ .terminated → s.eoutCap.toNat < s.eoutPos.toNat + 3 → exec .encTerm s = .next { s with
      err := true, done := false, errcode := .outputOverrun, phase := .idle })
    ∧ (s.encLast ≠ .terminated → s.eoutPos.toNat + 3 ≤ s.eoutCap.toNat → ∃ m, exec .encTerm s = .next { s with
        mem := m, eoutPos := word (s.eoutPos.toNat + 3), encLast := .terminated
        done := true, err := false, errcode := .none, phase := .idle }
      ∧ { s with mem := m }.byteAt .eout s.eoutPos.toNat = 0x11
      ∧ { s with mem := m }.byteAt .eout (s.eoutPos.toNat + 1) = 0x00
      ∧ { s with mem := m }.byteAt .eout (s.eoutPos.toNat + 2) = 0x00
      ∧ ∀ a, a < s.addr .eout s.eoutPos.toNat ∨ s.addr .eout (s.eoutPos.toNat + 3) ≤ a →
          { s with mem := m }.cell a = s.cell a)

/-- ENC_QUERY in its core step (R183): `ENC_QLEN` is the cost, 0 for "not encodable", and the command succeeds whatever
`ENC_LAST` is; the cost fits the register. Frame: `EOUT`, `EOUT_POS`, `ENC_LAST` and everything else stay. -/
def Obligations.EncQueryAnswers : Prop :=
  ∀ s : State, s.phase = .encQueryRun → ∃ q : Word,
    q.toNat = cost s.encMlen.toNat s.encMdist.toNat s.encPlit.toNat ∧
    exec .encQuery s = .next { s with
      encQlen := q, done := true, err := false, errcode := .none, phase := .idle }

/-- Every command, written to an idle core, is accepted (R23): exec of it answers that state. While another command runs it
changes nothing; DEC_START, whose core steps are the tokens of the stream, changes nothing while any command runs, a decode
included. That exec has these two cases is the model's choice (log 16). -/
def Obligations.CommandsAreAccepted : Prop :=
  ∀ s : State,
    (∀ (i : Instr) (p : Phase),
      (i, p) ∈ [(Instr.brcCopy, Phase.brcRun), (.encLit, .encLitRun), (.encMatch, .encMatchRun),
        (.encTerm, .encTermRun), (.encQuery, .encQueryRun)] →
      (s.phase = .idle → exec i s = .next { s with done := false, err := false, errcode := .none, phase := p })
      ∧ (s.phase ≠ .idle → s.phase ≠ p → exec i s = .next s))
    ∧ (s.phase = .idle → exec .decStart s = .next { s with
        done := false, err := false, errcode := .none, phase := .decFirst, inPos := 0, outPos := 0, dstate := 0 })
    ∧ (s.phase ≠ .idle → exec .decStart s = .next s)

/-! ### The ends of a command, reset -/

/-- The error end (60_exceptions.md R205): the code is recorded, a decode's positions and state are cleared, the core is idle;
nothing else changes. -/
def Obligations.ErrorEndOfCommand : Prop :=
  ∀ (c : Command) (e : ErrCode) (s : State),
    (c = .decStart → raise c e s = { s with
      err := true, done := false, errcode := e, inPos := 0, outPos := 0, dstate := 0, phase := .idle })
    ∧ (c ≠ .decStart → raise c e s = { s with err := true, done := false, errcode := e, phase := .idle })

/-- A reset (70_reset_and_hazards.md R230, R231): every register takes its reset value in one step; the buffers of an idle
core stay. -/
def Obligations.ResetRestoresRegisters : Prop :=
  ∀ (s : State) (rest : List HostAction), s.host = .reset :: rest → ∃ t, step s = .next t ∧
    t.phase = .idle ∧ statusWord t = 0 ∧ t.inLen = 0 ∧ t.outLen = 0 ∧ t.inPos = 0 ∧ t.outPos = 0 ∧
    t.brcPos = 0 ∧ t.brcDist = 0 ∧ t.brcLen = 0 ∧ t.esrcLen = 0 ∧ t.eoutCap = 0 ∧ t.eoutPos = 0 ∧
    t.encLstart = 0 ∧ t.encLlen = 0 ∧ t.encMlen = 0 ∧ t.encMdist = 0 ∧ t.encPlit = 0 ∧ t.encQlen = 0 ∧
    t.platform = s.platform ∧ (s.phase = .idle → ∀ a, t.cell a = s.cell a)

/-- A reset while a command runs (R232) leaves every byte of memory outside the range that command may have been writing. -/
def Obligations.AbortKeepsOtherBytes : Prop :=
  ∀ (s : State) (rest : List HostAction), s.host = .reset :: rest → ∃ t, step s = .next t ∧ t.host = rest ∧
    t.platform = s.platform ∧ ∀ a,
      ¬(s.decoding ∧ ∃ i < s.platform.size .dst, i < s.outLen.toNat ∧ a = s.addr .dst i) →
      ¬(s.phase = .brcRun ∧ ∃ i < s.platform.size .dst,
        s.brcPos.toNat ≤ i ∧ i < s.brcPos.toNat + s.brcLen.toNat ∧ a = s.addr .dst i) →
      ¬((s.phase = .encLitRun ∨ s.phase = .encMatchRun ∨ s.phase = .encTermRun ∨ s.phase = .encQueryRun)
        ∧ ∃ i < s.platform.size .eout, s.eoutPos.toNat - 2 ≤ i ∧ i < s.eoutCap.toNat ∧ a = s.addr .eout i) →
      t.cell a = s.cell a

/-! ### The step -/

/-- A step runs the decoded instruction. With no host action pending and the host's duties towards the running command's
buffers kept (20_memory.md R62, R72): in a decoder phase (past the first step's checks) the token at `IN_POS` runs on the state with `IN_POS` past the token's own bytes
and `PHASE` = `DEC_LOOP` (R121 to R123); in another phase the phase's command runs. A host write of a defined `OP` to `CMD`
of an idle core runs that command. The token is decoded from the bytes of `SRC` from `IN_POS` up to `IN_LEN` (R123, R124),
in the context that `PHASE` = `DEC_FIRST`, else `DSTATE` selects (10_state.md R36, R41; R129). -/
def Obligations.StepRunsInstruction : Prop :=
  ∀ s : State,
    (s.host = [] → s.Attached →
      (∀ i n, s.phase = .decLoop ∨ (s.phase = .decFirst ∧ s.olset = true ∧ s.inLen ≠ 0) →
        decodeToken s.context s.streamBytes = .ok (i, n) →
        step s = exec i { s with phase := .decLoop, inPos := word (s.inPos.toNat + n) })
      ∧ ∀ p i, (p, i) ∈ [(Phase.brcRun, Instr.brcCopy), (.encLitRun, .encLit), (.encMatchRun, .encMatch),
          (.encTermRun, .encTerm), (.encQueryRun, .encQuery)] → s.phase = p → step s = exec i s)
    ∧ (∀ w i rest, s.host = .write s.platform.regBase 32 w :: rest → s.phase = .idle → decodeCommand w = .ok i →
        step s = exec i { s with host := rest })
    ∧ (s.phase = .decFirst → s.context = .first)
    ∧ (s.phase = .decLoop →
      (s.dstate.toNat = 0 → s.context = .state0)
      ∧ (1 ≤ s.dstate.toNat → s.dstate.toNat ≤ 3 → s.context = .state123)
      ∧ (s.dstate.toNat = 4 → s.context = .state4))
    ∧ s.streamBytes.length = s.inLen.toNat - s.inPos.toNat
    ∧ ∀ i < s.inLen.toNat - s.inPos.toNat, s.streamBytes[i]? = some (s.byteAt .src (s.inPos.toNat + i))

/-- The first decoder step's checks (60_exceptions.md R203): `OPTIONS_REQUIRED` before `EMPTY_INPUT`, before any byte. The
host keeps its duties towards `SRC` and `DST` (20_memory.md R62, R72). -/
def Obligations.FirstStepChecks : Prop :=
  ∀ s : State, s.host = [] → s.Attached → s.phase = .decFirst →
    (s.olset = false → step s = .next { s with
      err := true, done := false, errcode := .optionsRequired, inPos := 0, outPos := 0, dstate := 0, phase := .idle })
    ∧ (s.olset = true → s.inLen = 0 → step s = .next { s with
      err := true, done := false, errcode := .emptyInput, inPos := 0, outPos := 0, dstate := 0, phase := .idle })

/-- Running out of input where an opcode is due (R123) is `UNEXPECTED_EOF`. The host keeps its duties towards `SRC` and
`DST` (20_memory.md R62, R72). -/
def Obligations.ExhaustedInputFails : Prop :=
  ∀ s : State, s.host = [] → s.Attached → s.phase = .decLoop → s.inLen.toNat ≤ s.inPos.toNat →
    step s = .next { s with
      err := true, done := false, errcode := .unexpectedEof, inPos := 0, outPos := 0, dstate := 0, phase := .idle }

/-- An idle core does nothing until the host acts (R46, 60_exceptions.md R217). Letting the core step, on a busy core as on an
idle one, is a core step, the host's later actions kept: it answers what the step with no host action pending answers,
whatever the host's later actions are (R47). That the host lets the core step by an action of its list is the model's choice
(log 1). -/
def Obligations.IdleCoreWaits : Prop :=
  ∀ (s : State) (rest : List HostAction),
    (s.phase = .idle → s.host = [] → step s = .next s)
    ∧ (s.host = .core :: rest →
      (s.phase = .idle → step s = .next { s with host := rest })
      ∧ (∀ t, step { s with host := [] } = .next t → t.host = [] ∧ step s = .next { t with host := rest })
      ∧ (∀ f, step { s with host := [] } = .fault f → step s = .fault f)
      ∧ ∀ r, step { s with host := [] } = .refused r → step s = .refused r)

/-! ### The host's accesses -/

/-- Host writes of an idle core's registers (R24 to R32): clamped where the rules say, `OUT_LEN` also sets `OLSET`, `EOUT_POS`
also clears `ENC_LAST`; the others are stored as written; a write of the read-only `STATUS` is ignored. That a write of the
read-only `IN_POS`, `OUT_POS` and `ENC_QLEN` is ignored too is DEDUCED (log 17), no sentence of the spec. Frame: nothing
else. -/
def Obligations.RegisterWritesStore : Prop :=
  ∀ (s : State) (off : Nat) (x : Word) (rest : List HostAction), s.phase = .idle →
    s.host = .write (s.platform.regBase + off) 32 x :: rest →
    (off = 0x04 → step s = .next { s with host := rest })
    ∧ (off = 0x10 ∨ off = 0x14 ∨ off = 0x44 → step s = .next { s with host := rest })
    ∧ (off = 0x08 → step s = .next { s with host := rest, inLen := word (min x.toNat 2147483647) })
    ∧ (off = 0x0C → step s = .next { s with host := rest, outLen := word (min x.toNat 2147483010), olset := true })
    ∧ (off = 0x18 → step s = .next { s with host := rest, brcPos := x })
    ∧ (off = 0x1C → step s = .next { s with host := rest, brcDist := x })
    ∧ (off = 0x20 → step s = .next { s with host := rest, brcLen := x })
    ∧ (off = 0x24 → step s = .next { s with host := rest, esrcLen := word (min x.toNat 2147483647) })
    ∧ (off = 0x28 → step s = .next { s with host := rest, eoutCap := word (min x.toNat 2147483647) })
    ∧ (off = 0x2C → step s = .next { s with
        host := rest, eoutPos := word (min x.toNat 2147483647), encLast := .none })
    ∧ (off = 0x30 → step s = .next { s with host := rest, encLstart := x })
    ∧ (off = 0x34 → step s = .next { s with host := rest, encLlen := x })
    ∧ (off = 0x38 → step s = .next { s with host := rest, encMlen := x })
    ∧ (off = 0x3C → step s = .next { s with host := rest, encMdist := x })
    ∧ (off = 0x40 → step s = .next { s with host := rest, encPlit := x })

/-- A host write to the block while `STATUS.BUSY` = 1 changes nothing (R43, R23). -/
def Obligations.BusyWritesAreDropped : Prop :=
  ∀ (s : State) (addr width : Nat) (x : Word) (rest : List HostAction), s.phase ≠ .idle →
    s.host = .write addr width x :: rest → step s = .next { s with host := rest }

/-- An access of another width or alignment, or at a reserved offset, changes nothing; such a read returns 0 (R42). -/
def Obligations.OddAccessesDoNothing : Prop :=
  ∀ (s : State) (off width : Nat) (x : Word) (rest : List HostAction), off < 256 →
    width ≠ 32 ∨ off % 4 ≠ 0 ∨ 0x48 ≤ off →
    (s.host = .write (s.platform.regBase + off) width x :: rest → step s = .next { s with host := rest })
    ∧ (s.host = .read (s.platform.regBase + off) width :: rest → step s = .next { s with host := rest, rdata := 0 })

/-- The fields of `STATUS` (R24): each at its bits, the reserved bits 0, `BUSY` = 1 exactly when `PHASE` ≠ `IDLE`, `ERRCODE`
by the numbers of 60_exceptions.md R200, `ENC_LAST` by those of R38. -/
def Obligations.StatusFields : Prop :=
  ∀ s : State,
    ((field 0 1 (statusWord s)).toNat = 1 ↔ s.phase ≠ .idle)
    ∧ ((field 1 1 (statusWord s)).toNat = 1 ↔ s.done = true)
    ∧ ((field 2 1 (statusWord s)).toNat = 1 ↔ s.err = true)
    ∧ ((field 3 1 (statusWord s)).toNat = 1 ↔ s.olset = true)
    ∧ field 4 4 (statusWord s) = 0
    ∧ (∀ e n, (e, n) ∈ [(ErrCode.none, 0), (.emptyInput, 1), (.optionsRequired, 2), (.inputOverrun, 3),
        (.outputOverrun, 4), (.lookbehindUnderrun, 5), (.unexpectedEof, 6), (.inputTooLarge, 7), (.compressInternal, 8)] →
        s.errcode = e → (field 8 4 (statusWord s)).toNat = n)
    ∧ field 12 4 (statusWord s) = 0
    ∧ field 16 3 (statusWord s) = s.dstate
    ∧ field 19 1 (statusWord s) = 0
    ∧ (∀ k n, (k, n) ∈ [(EncLast.none, 0), (.literal, 1), (.matched, 2), (.terminated, 3)] →
        s.encLast = k → (field 20 2 (statusWord s)).toNat = n)
    ∧ field 22 10 (statusWord s) = 0

/-- Host reads by offset (R22, R44, R45): a register returns its value at any time, but for the positions, which do so while
the core is idle, and `STATUS`, whose `DSTATE` field does so while it is idle and whose other fields do so at any time;
`CMD` reads 0. Frame: a read changes no register and no byte of memory. -/
def Obligations.ReadsReturnRegisters : Prop :=
  ∀ (s : State) (off : Nat) (rest : List HostAction), s.host = .read (s.platform.regBase + off) 32 :: rest →
    (∀ v, (off, v) ∈ [(0x00, 0), (0x08, s.inLen), (0x0C, s.outLen), (0x18, s.brcPos), (0x1C, s.brcDist),
        (0x20, s.brcLen), (0x24, s.esrcLen), (0x28, s.eoutCap), (0x30, s.encLstart), (0x34, s.encLlen),
        (0x38, s.encMlen), (0x3C, s.encMdist), (0x40, s.encPlit), (0x44, s.encQlen)] →
      step s = .next { s with host := rest, rdata := v })
    ∧ (∀ v, (off, v) ∈ [(0x10, s.inPos), (0x14, s.outPos), (0x2C, s.eoutPos)] →
      (s.phase = .idle → step s = .next { s with host := rest, rdata := v })
      ∧ (s.phase ≠ .idle → ∃ x n, step s = .next { s with host := rest, rdata := x, freeCount := n }))
    ∧ (off = 0x04 →
      (s.phase = .idle → step s = .next { s with host := rest, rdata := statusWord s })
      ∧ (s.phase ≠ .idle → ∃ x n, step s = .next { s with host := rest, rdata := x, freeCount := n } ∧
        field 0 16 x = field 0 16 (statusWord s) ∧ field 19 13 x = field 19 13 (statusWord s)))

/-- A host buffer access (20_memory.md R69): where no running command uses the byte, a write stores it, seen by every later
read of that address through any buffer, and a read returns the byte; neither changes anything else. Where a running command
uses it, a read changes only what it returns. The bytes in use are those of `SRC` and `DST` in a decode, of `DST` in a
BRC_COPY, of `ESRC` and `EOUT` in an encoder command (70_reset_and_hazards.md R243). That the write of an unused byte stores
while another command runs, and that the read returns the byte before the host has read `STATUS`, is the model's choice
(logs 25, 26). -/
def Obligations.BufferAccesses : Prop :=
  ∀ s : State,
    (∀ a, s.inUse a = true ↔ ∃ b, ∃ i < s.platform.size b, a = s.addr b i ∧
      (s.decoding ∧ (b = .src ∨ b = .dst) ∨ s.phase = .brcRun ∧ b = .dst
        ∨ (s.phase = .encLitRun ∨ s.phase = .encMatchRun ∨ s.phase = .encTermRun ∨ s.phase = .encQueryRun)
          ∧ (b = .esrc ∨ b = .eout)))
    ∧ ∀ (b : Buffer) (off : Nat) (x : Byte) (rest : List HostAction), off < s.platform.size b →
      (s.inUse (s.addr b off) = false →
        (s.host = .bufWrite b off x :: rest → ∃ m, step s = .next { s with host := rest, mem := m }
          ∧ ∀ a, { s with mem := m }.cell a = if a = s.addr b off then x else s.cell a)
        ∧ (s.host = .bufRead b off :: rest →
          step s = .next { s with host := rest, rdata := (s.byteAt b off).setWidth 32 }))
      ∧ (s.inUse (s.addr b off) = true → s.host = .bufRead b off :: rest →
        ∃ v n, step s = .next { s with host := rest, rdata := v, freeCount := n })

/-- Where the machine stops, which is the model's choice for what the spec leaves undefined (logs 7, 8, 9, 24): a core step
while a bounding register exceeds the attached memory (20_memory.md R62), or of a command whose two disjoint buffers have an
address in common (R72), a host access past the attached memory, a host write of a byte that the running command uses
(70_reset_and_hazards.md R243), and re-attaching a buffer that it uses (R233). -/
def Obligations.HostMisuseStops : Prop :=
  ∀ s : State,
    (s.host = [] → s.decoding → s.platform.size .src < s.inLen.toNat → step s = .fault (.beyondAttached .src))
    ∧ (s.host = [] → s.decoding ∧ s.inLen.toNat ≤ s.platform.size .src ∨ s.phase = .brcRun →
      s.platform.size .dst < s.outLen.toNat → step s = .fault (.beyondAttached .dst))
    ∧ (s.host = [] → s.phase = .encLitRun → s.platform.size .esrc < s.esrcLen.toNat →
      step s = .fault (.beyondAttached .esrc))
    ∧ (s.host = [] → s.phase = .encLitRun ∧ s.esrcLen.toNat ≤ s.platform.size .esrc ∨ s.phase = .encMatchRun
        ∨ s.phase = .encTermRun → s.platform.size .eout < s.eoutCap.toNat → step s = .fault (.beyondAttached .eout))
    ∧ (s.host = [] → s.decoding → s.inLen.toNat ≤ s.platform.size .src → s.outLen.toNat ≤ s.platform.size .dst →
      (∃ i < s.platform.size .src, ∃ j < s.platform.size .dst, s.addr .src i = s.addr .dst j) →
      step s = .refused (.buffersOverlap .src .dst))
    ∧ (s.host = [] →
      s.phase = .encLitRun ∨ s.phase = .encMatchRun ∨ s.phase = .encTermRun ∨ s.phase = .encQueryRun →
      s.esrcLen.toNat ≤ s.platform.size .esrc → s.eoutCap.toNat ≤ s.platform.size .eout →
      (∃ i < s.platform.size .esrc, ∃ j < s.platform.size .eout, s.addr .esrc i = s.addr .eout j) →
      step s = .refused (.buffersOverlap .esrc .eout))
    ∧ ∀ b off x w rest,
      (s.host = .bufWrite b off x :: rest ∨ s.host = .bufRead b off :: rest → s.platform.size b ≤ off →
        step s = .fault (.beyondAttached b))
      ∧ (s.host = .bufWrite b off x :: rest → off < s.platform.size b → s.inUse (s.addr b off) = true →
        step s = .refused (.bufferInUse b))
      ∧ (s.host = .attach b w :: rest →
        s.decoding ∧ (b = .src ∨ b = .dst) ∨ s.phase = .brcRun ∧ b = .dst
          ∨ (s.phase = .encLitRun ∨ s.phase = .encMatchRun ∨ s.phase = .encTermRun ∨ s.phase = .encQueryRun)
            ∧ (b = .esrc ∨ b = .eout) → step s = .refused (.bufferInUse b))

/-! ### Whole-machine rules -/

/-- Reset meets the invariant of the core. -/
def Obligations.ResetMeetsInvariant : Prop := State.reset.Inv

/-- Every step keeps the invariant: the canonical form of the memory, the legal `DSTATE` (R37), `DONE` and `ERR` exclusive
(R24), `ERRCODE` (R200), the register bounds (R48), the positions within the buffers during a decode (R33, R34), the output
below `OUT_POS` written (R35). -/
def Obligations.StepKeepsInvariant : Prop :=
  ∀ s t : State, s.Inv → step s = .next t → t.Inv

/-- A core step of a decode moves `IN_POS` forward, within `IN_LEN`, and never moves `OUT_POS` back or past `OUT_LEN`, or it
ends the command (R33, R34, R46). -/
def Obligations.DecodeAdvancesOrEnds : Prop :=
  ∀ s t : State, s.Inv → s.host = [] → s.decoding → step s = .next t →
    t.phase = .idle
    ∨ t.phase = .decLoop ∧ s.inPos.toNat < t.inPos.toNat ∧ t.inPos.toNat ≤ t.inLen.toNat ∧
      s.outPos.toNat ≤ t.outPos.toNat ∧ t.outPos.toNat ≤ t.outLen.toNat

/-- Termination (00_scope.md R18): a decode ends after at most `IN_LEN` + 1 core steps, and from any later point after at
most one step for each byte left and one more; every other command takes one. The host keeps its duties towards the running
command's buffers (20_memory.md R62, R72). -/
def Obligations.CommandsTerminate : Prop :=
  ∀ s : State, s.Inv → s.host = [] → s.Attached →
    (s.decoding → ∃ k t, 1 ≤ k ∧ k ≤ s.inLen.toNat - s.inPos.toNat + 1 ∧
      core.run k s = .next t ∧ State.phase t = .idle)
    ∧ (s.phase ≠ .idle → ¬s.decoding → ∃ t, step s = .next t ∧ t.phase = .idle)

/-- The content of `DST` at and past `OUT_POS` never affects a decode (20_memory.md R73): two states that differ only there
step to states that differ only there. -/
def Obligations.DecodeIgnoresOldOutput : Prop :=
  ∀ (s t : State) (m : Memory), s.Inv → s.host = [] → s.decoding →
    (∀ a, ¬(s.addr .dst s.outPos.toNat ≤ a ∧ a < s.addr .dst (s.platform.size .dst)) →
      { s with mem := m }.cell a = s.cell a) →
    step s = .next t →
    ∃ m', step { s with mem := m } = .next { t with mem := m' } ∧
      ∀ a, ¬(s.addr .dst t.outPos.toNat ≤ a ∧ a < s.addr .dst (s.platform.size .dst)) →
        { t with mem := m' }.cell a = t.cell a

/-- The decoder never reads `SRC` at or past `IN_LEN` (20_memory.md R61, 10_state.md R25): two states whose memory differs
only there step to states that differ only there, and as before. -/
def Obligations.DecodeIgnoresInputPastLength : Prop :=
  ∀ (s t : State) (m : Memory), s.Inv → s.host = [] → s.decoding →
    (∀ a, ¬(s.addr .src s.inLen.toNat ≤ a ∧ a < s.addr .src (s.platform.size .src)) →
      { s with mem := m }.cell a = s.cell a) →
    step s = .next t →
    ∃ m', step { s with mem := m } = .next { t with mem := m' } ∧
      ∀ a, { t with mem := m' }.cell a =
        if s.addr .src s.inLen.toNat ≤ a ∧ a < s.addr .src (s.platform.size .src) then { s with mem := m }.cell a
        else t.cell a

/-- What a core step writes (20_memory.md R60, R61, R71; 10_state.md R27, R28): in the memory, a decode and BRC_COPY only
`DST` below `OUT_LEN`, an encoder command only `EOUT` below `EOUT_CAP`, ENC_QUERY nothing; so never `SRC` in a decode, nor
`ESRC` in an encoder command; no operand register; and a command that is no decode leaves `IN_POS`, `OUT_POS` and
`DSTATE`. -/
def Obligations.CoreStepWritesInBounds : Prop :=
  ∀ s t : State, s.host = [] → step s = .next t →
    (s.decoding ∨ s.phase = .brcRun →
      (∀ a, a < s.addr .dst 0 ∨ s.addr .dst s.outLen.toNat ≤ a → t.cell a = s.cell a)
      ∧ t.eoutPos = s.eoutPos ∧ t.encLast = s.encLast)
    ∧ (s.phase = .encLitRun ∨ s.phase = .encMatchRun ∨ s.phase = .encTermRun →
      ∀ a, a < s.addr .eout 0 ∨ s.addr .eout s.eoutCap.toNat ≤ a → t.cell a = s.cell a)
    ∧ (s.phase = .encQueryRun ∨ s.phase = .idle → t.mem = s.mem)
    ∧ (s.decoding → ∀ i < s.platform.size .src, t.byteAt .src i = s.byteAt .src i)
    ∧ (s.phase = .encLitRun ∨ s.phase = .encMatchRun ∨ s.phase = .encTermRun → s.eoutCap.toNat ≤ s.platform.size .eout →
      ∀ i < s.platform.size .esrc, t.byteAt .esrc i = s.byteAt .esrc i)
    ∧ (¬s.decoding → t.inPos = s.inPos ∧ t.outPos = s.outPos ∧ t.dstate = s.dstate)
    ∧ t.inLen = s.inLen ∧ t.outLen = s.outLen ∧ t.olset = s.olset ∧ t.brcPos = s.brcPos ∧ t.brcDist = s.brcDist
    ∧ t.brcLen = s.brcLen ∧ t.esrcLen = s.esrcLen ∧ t.eoutCap = s.eoutCap ∧ t.encLstart = s.encLstart
    ∧ t.encLlen = s.encLlen ∧ t.encMlen = s.encMlen ∧ t.encMdist = s.encMdist ∧ t.encPlit = s.encPlit
    ∧ (s.phase ≠ .encQueryRun → t.encQlen = s.encQlen) ∧ t.platform = s.platform

/-- A core step that ends in an error writes nothing to any buffer (60_exceptions.md R207, 90_conflicts.md C10; log 10). -/
def Obligations.ErrorWritesNoBuffer : Prop :=
  ∀ s t : State, s.Inv → s.host = [] → s.phase ≠ .idle → step s = .next t → t.err = true →
    t.mem = s.mem

/-- `OLSET` changes only by a host write of `OUT_LEN` to an idle core, which sets it, and by a reset, which clears it
(10_state.md R24, R26). -/
def Obligations.OlsetChangesOnlyByHost : Prop :=
  ∀ s t : State, step s = .next t → t.olset ≠ s.olset →
    (∃ x rest, s.host = .write (s.platform.regBase + 0x0C) 32 x :: rest ∧ s.phase = .idle ∧ t.olset = true)
    ∨ ∃ rest, s.host = .reset :: rest ∧ t.olset = false

/-- `ENC_LAST` is written only by a host write of `EOUT_POS`, which clears it, by a successful ENC_LIT, ENC_MATCH or
ENC_TERM, to its own kind, and by a reset (10_state.md R38). -/
def Obligations.EncLastWriters : Prop :=
  ∀ s t : State, step s = .next t → t.encLast ≠ s.encLast →
    (t.encLast = .none ∧ ∃ x rest, s.host = .write (s.platform.regBase + 0x2C) 32 x :: rest ∧ s.phase = .idle)
    ∨ (t.encLast = .literal ∧ s.phase = .encLitRun ∧ t.done = true)
    ∨ (t.encLast = .matched ∧ s.phase = .encMatchRun ∧ t.done = true)
    ∨ (t.encLast = .terminated ∧ s.phase = .encTermRun ∧ t.done = true)
    ∨ (t.encLast = .none ∧ ∃ rest, s.host = .reset :: rest)

/-- The machine stops only for a host that breaks a duty (70_reset_and_hazards.md R246): with the running
command's bounding registers within the attached memory, its buffers of R72 disjoint and the next host action dutiful, every
step answers a next state. -/
def Obligations.DutifulHostNeverStops : Prop :=
  ∀ s : State, s.Attached → (∀ a rest, s.host = a :: rest → a.dutiful s) → ∃ t, step s = .next t

/-! ### Cut tokens, re-attached buffers -/

/-- A token cut off by the end of the input decodes with its first missing operand failed by `INPUT_OVERRUN` (R124, R128;
30_encoding.md R82): the byte after M1, M1B and M2, the distance word of M3, M4, M3_X and M4_X, the last byte of a
zero-extension of LIT_X, M3_X and M4_X. -/
def Obligations.CutTokensMissOperands : Prop :=
  ∀ (ctx : Context) (t : Byte) (bs : List Byte),
    (t.toNat < 16 → ∃ d k n, decodeToken .state123 [t] = .ok (.m1 d k (.failed .inputOverrun), n))
    ∧ (t.toNat < 16 → ∃ d k n, decodeToken .state4 [t] = .ok (.m1b d k (.failed .inputOverrun), n))
    ∧ (ctx ≠ .first → 0x40 ≤ t.toNat → ∃ l d k n, decodeToken ctx [t] = .ok (.m2 l d k (.failed .inputOverrun), n))
    ∧ (ctx ≠ .first → 0x21 ≤ t.toNat → t.toNat ≤ 0x3F → bs.length < 2 →
      ∃ l n, decodeToken ctx (t :: bs) = .ok (.m3 l (.failed .inputOverrun), n))
    ∧ (ctx ≠ .first ∨ t.toNat = 0x11 → 0x10 ≤ t.toNat → t.toNat ≤ 0x1F → t.toNat &&& 7 ≠ 0 → bs.length < 2 →
      ∃ h l n, decodeToken ctx (t :: bs) = .ok (.m4 h l (.failed .inputOverrun), n))
    ∧ ∀ (k : Nat) (b : Byte) (zeros : List Byte), k ≤ Config.kMax → zeros = List.replicate k 0 →
      (ctx = .first ∨ ctx = .state0 → ∃ n, decodeToken ctx (0x00 :: zeros) = .ok (.litX (.failed .inputOverrun), n))
      ∧ (ctx ≠ .first → ∃ v n, decodeToken ctx (0x20 :: zeros) = .ok (.m3X (.failed .inputOverrun) v, n))
      ∧ (ctx ≠ .first → b ≠ 0 → bs.length < 2 →
        ∃ n, decodeToken ctx (0x20 :: (zeros ++ b :: bs)) = .ok (.m3X (.got ⟨k, b⟩) (.failed .inputOverrun), n))
      ∧ (t.toNat = 0x10 ∨ ctx ≠ .first ∧ t.toNat = 0x18 →
        (∃ h v n, decodeToken ctx (t :: zeros) = .ok (.m4X h (.failed .inputOverrun) v, n))
        ∧ (b ≠ 0 → bs.length < 2 →
          ∃ h n, decodeToken ctx (t :: (zeros ++ b :: bs)) = .ok (.m4X h (.got ⟨k, b⟩) (.failed .inputOverrun), n)))

/-- Re-attaching a buffer that no running command uses (70_reset_and_hazards.md R233; log 8): the buffer shows the memory of
its new window, every other buffer, register and byte of memory stays. `SRC` re-attached at its old offset plus `IN_POS` shows
the bytes that follow the decoded stream, so that the next of several concatenated streams stands at offset 0. R233 asks for
`BUSY` = 0: that a buffer unused by the running command may be re-attached while `BUSY` = 1, and with what effect, is the
model's choice (log 8), no sentence of the spec. -/
def Obligations.AttachMovesBuffer : Prop :=
  ∀ (s : State) (b : Buffer) (w : Window) (rest : List HostAction), s.host = .attach b w :: rest →
    ¬(s.decoding ∧ (b = .src ∨ b = .dst) ∨ s.phase = .brcRun ∧ b = .dst
      ∨ (s.phase = .encLitRun ∨ s.phase = .encMatchRun ∨ s.phase = .encTermRun ∨ s.phase = .encQueryRun)
        ∧ (b = .esrc ∨ b = .eout)) →
    ∃ p, step s = .next { s with host := rest, platform := p } ∧ p.regBase = s.platform.regBase ∧
      (∀ c, p.size c = if c = b then w.size else s.platform.size c)
      ∧ (∀ i, { s with platform := p }.byteAt b i = s.cell (w.base + i))
      ∧ (∀ c i, c ≠ b → { s with platform := p }.byteAt c i = s.byteAt c i)
      ∧ (b = .src → w.base = s.addr .src s.inPos.toNat →
        ∀ i, { s with platform := p }.byteAt .src i = s.byteAt .src (s.inPos.toNat + i))
end

