-- ==== Sys2Proof/Laws/Decode.lean ====
section
/-! SUPPORT. What each part of the decoder reads: the zero-extension, the operands, and the token by its opcode byte. -/

namespace Sys2Proof

/-! ### The zero-extension -/

theorem readZext_zeros (cap j k : Nat) (rest : List Byte) (h : j + k ≤ cap) :
    readZext cap j (List.replicate k 0 ++ rest) = readZext cap (j + k) rest := by
  induction k generalizing j with
  | zero => simp
  | succ k ih =>
    rw [List.replicate_succ, List.cons_append, readZext, if_neg (by simp), if_neg (by omega), ih _ (by omega)]
    congr 1; omega

theorem readZext_got (cap k : Nat) (b : Byte) (rest : List Byte) (h : k ≤ cap) (hb : b ≠ 0) :
    readZext cap 0 (List.replicate k 0 ++ b :: rest) = .got ⟨k, b⟩ := by
  rw [readZext_zeros _ _ _ _ (by omega), readZext, if_pos hb, Nat.zero_add]

/-- What a read zero-extension is, and where it stood. -/
theorem readZext_eq_got {cap j : Nat} {bs : List Byte} {z : Zext} (h : readZext cap j bs = .got z) :
    ∃ k rest, z.k = j + k ∧ bs = List.replicate k 0 ++ z.b :: rest ∧ z.b ≠ 0 ∧ (j ≤ cap → z.k ≤ cap) := by
  induction bs generalizing j with
  | nil => simp [readZext] at h
  | cons b bs ih =>
    rw [readZext] at h
    split at h
    · rename_i hb
      obtain rfl := Operand.got.inj h
      exact ⟨0, bs, rfl, rfl, hb, id⟩
    · split at h
      · simp at h
      · rename_i hb hc
        obtain ⟨k, rest, hk, rfl, hz, hcap⟩ := ih h
        refine ⟨k + 1, rest, by omega, ?_, hz, fun _ => hcap (by omega)⟩
        rw [List.replicate_succ, List.cons_append, Decidable.not_not.1 hb]

/-- A failed zero-extension ran off the input or passed the cap. -/
theorem readZext_eq_failed {cap j : Nat} {bs : List Byte} {e : ErrCode} (h : readZext cap j bs = .failed e) :
    e = .inputOverrun ∨ e = .outputOverrun := by
  induction bs generalizing j with
  | nil => simp [readZext] at h; exact .inl h.symm
  | cons b bs ih =>
    rw [readZext] at h
    split at h
    · simp at h
    · split at h
      · simp at h; exact .inr h.symm
      · exact ih h

theorem readOperand_eq_failed {bs : List Byte} {e : ErrCode} (h : readOperand bs = .failed e) :
    e = .inputOverrun := by
  cases bs <;> simp [readOperand] at h; exact h.symm

theorem readLE16_eq_failed {bs : List Byte} {e : ErrCode} (h : readLE16 bs = .failed e) : e = .inputOverrun := by
  match bs with
  | [] | [_] => simp [readLE16] at h; exact h.symm
  | _ :: _ :: _ => simp [readLE16] at h

/-- The bytes after a zero-extension. -/
theorem drop_zext (k : Nat) (b : Byte) (rest : List Byte) :
    (List.replicate k 0 ++ b :: rest).drop (k + 1) = rest := by
  rw [List.append_cons]
  exact List.drop_left' (by simp)

/-! ### The distance word -/

theorem readLE16_halfBytes (v : Half) (rest : List Byte) : readLE16 (halfBytes v ++ rest) = .got v := by
  simp only [halfBytes, List.cons_append, List.nil_append, readLE16, field]
  rw [BitVec.extractLsb'_append_extractLsb'_eq_extractLsb' (by rfl)]
  simp

/-- The distance word as a number: `lo | (hi << 8)`. -/
theorem append_toNat (hi lo : Byte) : (hi ++ lo : Half).toNat = lo.toNat ||| (hi.toNat <<< 8) := by
  rw [BitVec.toNat_append, Nat.or_comm]

theorem append_toNat_eq (hi lo : Byte) : (hi ++ lo : Half).toNat = 256 * hi.toNat + lo.toNat := by
  rw [BitVec.toNat_append, Nat.shiftLeft_eq, Nat.mul_comm]
  exact (Nat.two_pow_add_eq_or_of_lt lo.isLt hi.toNat).symm

theorem half_ext (v : Half) : (field 8 8 v ++ field 0 8 v : Half) = v := by
  rw [BitVec.extractLsb'_append_extractLsb'_eq_extractLsb' (by rfl)]
  simp

/-- The terminator's two bytes are those whose distance word has `v >> 2` = 0 (30_encoding.md R89). -/
theorem isEndMark_iff (lo hi : Byte) (rest : List Byte) :
    isEndMark (lo :: hi :: rest) = true ↔ (hi ++ lo : Half).toNat >>> 2 = 0 := by
  have h : ∀ lo : Byte, lo &&& 0xFC = 0 ↔ lo.toNat < 4 := by decide
  have hz : hi = 0 ↔ hi.toNat = 0 := BitVec.toNat_inj.symm
  simp only [isEndMark, Bool.and_eq_true, beq_iff_eq, h, hz, append_toNat_eq, Nat.shiftRight_eq_div_pow]
  omega

/-! ### Opcode bytes as their fields -/

theorem litByte_fields : ∀ l : BitVec 4,
    (0#4 ++ l : Byte).toNat < 16 ∧ field 0 4 (0#4 ++ l : Byte) = l ∧ ((0#4 ++ l : Byte) = 0 ↔ l = 0) := by decide

theorem shortByte_fields : ∀ d s : BitVec 2, (0#4 ++ d ++ s : Byte).toNat < 16 ∧
    field 2 2 (0#4 ++ d ++ s : Byte) = d ∧ field 0 2 (0#4 ++ d ++ s : Byte) = s := by decide

theorem m2Byte_fields : ∀ (l d : BitVec 3) (s : BitVec 2), 2 ≤ l.toNat → 64 ≤ (l ++ d ++ s : Byte).toNat ∧
    field 5 3 (l ++ d ++ s : Byte) = l ∧ field 2 3 (l ++ d ++ s : Byte) = d ∧
    field 0 2 (l ++ d ++ s : Byte) = s := by decide

theorem m3Byte_fields : ∀ l : BitVec 5, 32 ≤ (0b001#3 ++ l : Byte).toNat ∧ (0b001#3 ++ l : Byte).toNat < 64 ∧
    field 0 5 (0b001#3 ++ l : Byte) = l := by decide

theorem m4Byte_fields : ∀ (h : BitVec 1) (l : BitVec 3),
    16 ≤ (0b0001#4 ++ h ++ l : Byte).toNat ∧ (0b0001#4 ++ h ++ l : Byte).toNat < 32 ∧
    field 0 3 (0b0001#4 ++ h ++ l : Byte) = l ∧ field 3 1 (0b0001#4 ++ h ++ l : Byte) = h ∧
    ((0b0001#4 ++ h ++ l : Byte) = 0x11 ↔ h = 0 ∧ l = 1) ∧
    (h = 0 → l = 0 ∨ l = 1 → (0b0001#4 ++ h ++ l : Byte).toNat < 18) := by decide

/-! ### Dispatch by opcode range -/

theorem tokenOf_first {t : Byte} (bs : List Byte) (h : 18 ≤ t.toNat) :
    tokenOf .first t bs = (.initLit (t - 17), 1) := by simp [tokenOf, h]

theorem tokenOf_later {ctx : Context} (t : Byte) (bs : List Byte) (h : ctx ≠ .first) :
    tokenOf ctx t bs = dispatch ctx t bs := by simp [tokenOf, h]

theorem tokenOf_small (ctx : Context) {t : Byte} (bs : List Byte) (h : t.toNat < 18) :
    tokenOf ctx t bs = dispatch ctx t bs := by rw [tokenOf, if_neg (by omega)]

theorem dispatch_m2 (ctx : Context) {t : Byte} (bs : List Byte) (h : 64 ≤ t.toNat) :
    dispatch ctx t bs = (.m2 (field 5 3 t) (field 2 3 t) (field 0 2 t) (readOperand bs), 2) := by
  rw [dispatch, if_pos h]

theorem dispatch_m3 (ctx : Context) {t : Byte} (bs : List Byte) (h : 32 ≤ t.toNat) (h' : t.toNat < 64)
    (hl : field 0 5 t ≠ 0) : dispatch ctx t bs = (.m3 (field 0 5 t) (readLE16 bs), 3) := by
  rw [dispatch, if_neg (by omega), if_pos h, if_pos hl]

theorem dispatch_m3X (ctx : Context) (bs : List Byte) : dispatch ctx 0x20 bs = zextThenWord .m3X bs := rfl

theorem dispatch_m4 (ctx : Context) {t : Byte} (bs : List Byte) (h : 16 ≤ t.toNat) (h' : t.toNat < 32)
    (hl : field 0 3 t ≠ 0) : dispatch ctx t bs = decodeM4 t bs := by
  rw [dispatch, if_neg (by omega), if_neg (by omega), if_pos h, if_pos hl]

theorem dispatch_m4X (ctx : Context) {t : Byte} (bs : List Byte) (h : 16 ≤ t.toNat) (h' : t.toNat < 32)
    (hl : field 0 3 t = 0) : dispatch ctx t bs = zextThenWord (.m4X (field 3 1 t)) bs := by
  rw [dispatch, if_neg (by omega), if_neg (by omega), if_pos h, if_neg (by simp [hl])]

theorem dispatch_low (ctx : Context) {t : Byte} (bs : List Byte) (h : t.toNat < 16) :
    dispatch ctx t bs = decodeLow ctx t bs := by
  rw [dispatch, if_neg (by omega), if_neg (by omega), if_neg (by omega)]

theorem zextThenWord_got (make : Operand Zext → Operand Half → Instr) (k : Nat) (b : Byte) (rest : List Byte)
    (hk : k ≤ Config.kMax) (hb : b ≠ 0) :
    zextThenWord make (List.replicate k 0 ++ b :: rest) = (make (.got ⟨k, b⟩) (readLE16 rest), k + 4) := by
  rw [zextThenWord, readZext_got _ _ _ _ hk hb]
  simp only [Zext.size, drop_zext, Prod.mk.injEq, true_and]
  omega

theorem decodeLitX_got (k : Nat) (b : Byte) (rest : List Byte) (hk : k ≤ Config.kMax) (hb : b ≠ 0) :
    decodeLitX (List.replicate k 0 ++ b :: rest) = (.litX (.got ⟨k, b⟩), k + 2) := by
  rw [decodeLitX, readZext_got _ _ _ _ hk hb]
  simp only [Zext.size, Prod.mk.injEq, true_and]
  omega

end Sys2Proof
end

