-- ==== Sys2Proof/Laws/Memory.lean ====
section
/-! SUPPORT. The laws of the byte memories: read after write, what each bulk operation writes and leaves alone, and that
every operation keeps the canonical form. -/

namespace Sys2Proof.Machine

variable {m : Memory} {free : Nat → Byte}

/-! ### One byte -/

theorem Memory.get?_write_same (m : Memory) (a : Nat) (v : Byte) : (m.write a v).get? a = some v := by
  induction m with
  | nil => simp [Memory.write, Memory.get?]
  | cons c m ih =>
    obtain ⟨k, x⟩ := c
    simp only [Memory.write]
    split
    · simp [Memory.get?]
    · split
      · simp [Memory.get?]
      · simp [Memory.get?, ih, Ne.symm ‹¬a = k›]

theorem Memory.get?_write_other (m : Memory) {a b : Nat} (v : Byte) (h : b ≠ a) :
    (m.write a v).get? b = m.get? b := by
  induction m with
  | nil => simp [Memory.write, Memory.get?, Ne.symm h]
  | cons c m ih =>
    obtain ⟨k, x⟩ := c
    simp only [Memory.write]
    split
    · simp [Memory.get?, Ne.symm h]
    · split
      · subst_vars; simp [Memory.get?, Ne.symm h]
      · simp [Memory.get?, ih]

@[simp] theorem Memory.read_nil (free : Nat → Byte) (a : Nat) : Memory.read free [] a = free a := rfl

@[simp] theorem Memory.read_write_same (free : Nat → Byte) (m : Memory) (a : Nat) (v : Byte) :
    Memory.read free (m.write a v) a = v := by
  simp [Memory.read, Memory.get?_write_same]

theorem Memory.read_write_other (free : Nat → Byte) (m : Memory) {a b : Nat} (v : Byte) (h : b ≠ a) :
    Memory.read free (m.write a v) b = Memory.read free m b := by
  simp [Memory.read, Memory.get?_write_other m v h]

theorem Memory.read_write (free : Nat → Byte) (m : Memory) (a b : Nat) (v : Byte) :
    Memory.read free (m.write a v) b = if b = a then v else Memory.read free m b := by
  split
  · subst_vars; simp
  · exact Memory.read_write_other free m v ‹_›

/-- Every offset listed after a write was listed before or is the one written. -/
theorem Memory.mem_write {m : Memory} {a : Nat} {v : Byte} {c : Host.Cell} (h : c ∈ m.write a v) :
    c ∈ m ∨ c.1 = a := by
  induction m with
  | nil => simp_all [Memory.write]
  | cons d m ih =>
    obtain ⟨k, x⟩ := d
    simp only [Memory.write] at h
    split at h
    · rcases List.mem_cons.1 h with rfl | h
      · exact .inr rfl
      · exact .inl h
    · split at h
      · rcases List.mem_cons.1 h with rfl | h
        · exact .inr rfl
        · exact .inl (List.mem_cons_of_mem _ h)
      · rcases List.mem_cons.1 h with rfl | h
        · exact .inl (List.mem_cons_self ..)
        · exact (ih h).imp (List.mem_cons_of_mem _) id

theorem Memory.write_wf {m : Memory} (h : m.wf) (a : Nat) (v : Byte) : (m.write a v).wf := by
  induction m with
  | nil => simp [Memory.write, Memory.wf]
  | cons d m ih =>
    obtain ⟨k, x⟩ := d
    obtain ⟨hk, hm⟩ := List.pairwise_cons.1 h
    simp only [Memory.write]
    split
    · refine List.pairwise_cons.2 ⟨fun c hc => ?_, h⟩
      rcases List.mem_cons.1 hc with rfl | hc
      · assumption
      · exact Nat.lt_trans ‹a < k› (hk c hc)
    · split
      · subst_vars; exact List.pairwise_cons.2 ⟨hk, hm⟩
      · refine List.pairwise_cons.2 ⟨fun c hc => ?_, ih hm⟩
        rcases Memory.mem_write hc with hc | hc
        · exact hk c hc
        · simp only [hc]; omega

theorem Memory.isSome_write {m : Memory} {a b : Nat} {v : Byte} (h : (m.get? b).isSome = true) :
    ((m.write a v).get? b).isSome = true := by
  by_cases hb : b = a
  · subst hb; simp [Memory.get?_write_same]
  · rwa [Memory.get?_write_other m v hb]

/-! ### The literal copy -/

theorem Memory.blit_wf {m : Memory} (h : m.wf) (p : Nat) (f : Nat → Byte) (n : Nat) : (m.blit p f n).wf := by
  induction n with
  | zero => exact h
  | succ n ih => exact Memory.write_wf ih _ _

/-- A blit writes `f i` at `p + i` for `i < n` and nothing else. -/
theorem Memory.read_blit (free : Nat → Byte) (m : Memory) (p : Nat) (f : Nat → Byte) (n a : Nat) :
    Memory.read free (m.blit p f n) a = if p ≤ a ∧ a < p + n then f (a - p) else Memory.read free m a := by
  induction n with
  | zero => simp only [Memory.blit]; split <;> [omega; rfl]
  | succ n ih =>
    simp only [Memory.blit, Memory.read_write, ih]
    split
    · subst_vars; simp
    · split <;> split <;> first | rfl | omega

theorem Memory.isSome_blit {m : Memory} (p : Nat) (f : Nat → Byte) (n : Nat) {a : Nat}
    (h : (m.get? a).isSome = true ∨ p ≤ a ∧ a < p + n) : ((m.blit p f n).get? a).isSome = true := by
  induction n with
  | zero => exact h.resolve_right (by omega)
  | succ n ih =>
    by_cases ha : a = p + n
    · subst ha; simp [Memory.blit, Memory.get?_write_same]
    · exact Memory.isSome_write (ih (h.imp_right (by omega)))

/-! ### The back-reference copy -/

theorem Memory.copyBack_wf {m : Memory} (h : m.wf) (free : Nat → Byte) (p d n : Nat) :
    (Memory.copyBack free m p d n).wf := by
  induction n with
  | zero => exact h
  | succ n ih => exact Memory.write_wf ih _ _

theorem Memory.read_copyBack_outside (free : Nat → Byte) (m : Memory) (p d n : Nat) {a : Nat}
    (h : a < p ∨ p + n ≤ a) : Memory.read free (Memory.copyBack free m p d n) a = Memory.read free m a := by
  induction n with
  | zero => rfl
  | succ n ih =>
    rw [Memory.copyBack, Memory.read_write_other _ _ _ (by omega), ih (by omega)]

/-- A byte once copied stays. -/
theorem Memory.read_copyBack_step (free : Nat → Byte) (m : Memory) (p d : Nat) {i n : Nat} (h : i < n) :
    Memory.read free (Memory.copyBack free m p d n) (p + i) =
      Memory.read free (Memory.copyBack free m p d i) (p - d + i) := by
  induction n with
  | zero => omega
  | succ n ih =>
    rw [Memory.copyBack, Memory.read_write]
    split
    · rw [show i = n by omega]
    · exact ih (by omega)

theorem Memory.isSome_copyBack {m : Memory} (free : Nat → Byte) (p d n : Nat) {a : Nat}
    (h : (m.get? a).isSome = true ∨ p ≤ a ∧ a < p + n) :
    ((Memory.copyBack free m p d n).get? a).isSome = true := by
  induction n with
  | zero => exact h.resolve_right (by omega)
  | succ n ih =>
    by_cases ha : a = p + n
    · subst ha; simp [Memory.copyBack, Memory.get?_write_same]
    · exact Memory.isSome_write (ih (h.imp_right (by omega)))

/-! ### Lists of bytes -/

theorem Memory.store_wf {m : Memory} (h : m.wf) (p : Nat) (bs : List Byte) : (m.store p bs).wf := by
  induction bs generalizing m p with
  | nil => exact h
  | cons b bs ih => exact ih (Memory.write_wf h _ _) _

/-- A store writes byte `i` of the list at `p + i` and nothing else. -/
theorem Memory.read_store (free : Nat → Byte) (m : Memory) (p : Nat) (bs : List Byte) (a : Nat) :
    Memory.read free (m.store p bs) a =
      if p ≤ a ∧ a < p + bs.length then bs.getD (a - p) 0 else Memory.read free m a := by
  induction bs generalizing m p with
  | nil => simp only [Memory.store, List.length_nil]; split <;> [omega; rfl]
  | cons b bs ih =>
    simp only [Memory.store, ih, Memory.read_write, List.length_cons]
    rcases Nat.lt_trichotomy a p with h | rfl | h
    · rw [if_neg (by omega), if_neg (by omega), if_neg (by omega)]
    · rw [if_neg (by omega), if_pos rfl, if_pos (by omega)]; simp
    · obtain ⟨k, rfl⟩ : ∃ k, a = p + 1 + k := ⟨a - (p + 1), by omega⟩
      rw [show p + 1 + k - (p + 1) = k by omega, show p + 1 + k - p = k + 1 by omega, List.getD_cons_succ]
      by_cases hk : k < bs.length
      · rw [if_pos (by omega), if_pos (by omega)]
      · rw [if_neg (by omega), if_neg (by omega), if_neg (by omega)]

theorem Memory.forget_wf {m : Memory} (h : m.wf) (lo hi : Nat) : (m.forget lo hi).wf := List.Pairwise.filter _ h

theorem Memory.get?_forget (m : Memory) (lo hi a : Nat) :
    (m.forget lo hi).get? a = if lo ≤ a ∧ a < hi then none else m.get? a := by
  induction m with
  | nil => simp [Memory.forget, Memory.get?]
  | cons c m ih =>
    obtain ⟨k, x⟩ := c
    simp only [Memory.forget, List.filter_cons] at ih ⊢
    by_cases hk : k = a
    · subst hk
      split <;> simp_all [Memory.get?]
      omega
    · split <;> simp only [Memory.get?, if_neg hk, ih]

theorem bytesFrom_length (f : Nat → Byte) (a n : Nat) : (bytesFrom f a n).length = n := by
  induction n generalizing a with
  | zero => rfl
  | succ n ih => simp [bytesFrom, ih]

theorem bytesFrom_getD (f : Nat → Byte) (a n i : Nat) (h : i < n) (d : Byte) :
    (bytesFrom f a n).getD i d = f (a + i) := by
  induction n generalizing a i with
  | zero => omega
  | succ n ih =>
    cases i with
    | zero => simp [bytesFrom]
    | succ i => rw [bytesFrom, List.getD_cons_succ, ih _ _ (by omega)]; congr 1; omega

end Sys2Proof.Machine
end

