-- ==== Sys2Proof/Laws/State.lean ====
section
/-! SUPPORT. One lemma per field for each named update of the state, so that no later proof unfolds one. -/

namespace Sys2Proof.Machine

variable (s : State) (c : Command) (e : ErrCode)


/-! ### finish (60_exceptions.md R206) -/

@[simp] theorem finish_phase : (finish s).phase = .idle := rfl
@[simp] theorem finish_done : (finish s).done = true := rfl
@[simp] theorem finish_err : (finish s).err = false := rfl
@[simp] theorem finish_olset : (finish s).olset = s.olset := rfl
@[simp] theorem finish_errcode : (finish s).errcode = .none := rfl
@[simp] theorem finish_dstate : (finish s).dstate = s.dstate := rfl
@[simp] theorem finish_encLast : (finish s).encLast = s.encLast := rfl
@[simp] theorem finish_inLen : (finish s).inLen = s.inLen := rfl
@[simp] theorem finish_outLen : (finish s).outLen = s.outLen := rfl
@[simp] theorem finish_inPos : (finish s).inPos = s.inPos := rfl
@[simp] theorem finish_outPos : (finish s).outPos = s.outPos := rfl
@[simp] theorem finish_brcPos : (finish s).brcPos = s.brcPos := rfl
@[simp] theorem finish_brcDist : (finish s).brcDist = s.brcDist := rfl
@[simp] theorem finish_brcLen : (finish s).brcLen = s.brcLen := rfl
@[simp] theorem finish_esrcLen : (finish s).esrcLen = s.esrcLen := rfl
@[simp] theorem finish_eoutCap : (finish s).eoutCap = s.eoutCap := rfl
@[simp] theorem finish_eoutPos : (finish s).eoutPos = s.eoutPos := rfl
@[simp] theorem finish_encLstart : (finish s).encLstart = s.encLstart := rfl
@[simp] theorem finish_encLlen : (finish s).encLlen = s.encLlen := rfl
@[simp] theorem finish_encMlen : (finish s).encMlen = s.encMlen := rfl
@[simp] theorem finish_encMdist : (finish s).encMdist = s.encMdist := rfl
@[simp] theorem finish_encPlit : (finish s).encPlit = s.encPlit := rfl
@[simp] theorem finish_encQlen : (finish s).encQlen = s.encQlen := rfl
@[simp] theorem finish_mem : (finish s).mem = s.mem := rfl
@[simp] theorem finish_platform : (finish s).platform = s.platform := rfl
@[simp] theorem finish_voids : (finish s).voids = s.voids := rfl
@[simp] theorem finish_host : (finish s).host = s.host := rfl
@[simp] theorem finish_rdata : (finish s).rdata = s.rdata := rfl
@[simp] theorem finish_freeCount : (finish s).freeCount = s.freeCount := rfl

/-! ### raise (60_exceptions.md R205) -/

@[simp] theorem raise_phase : (raise c e s).phase = .idle := by cases c <;> rfl
@[simp] theorem raise_done : (raise c e s).done = false := by cases c <;> rfl
@[simp] theorem raise_err : (raise c e s).err = true := by cases c <;> rfl
@[simp] theorem raise_olset : (raise c e s).olset = s.olset := by cases c <;> rfl
@[simp] theorem raise_errcode : (raise c e s).errcode = e := by cases c <;> rfl
@[simp] theorem raise_dstate : (raise c e s).dstate = if c = .decStart then 0 else s.dstate := by cases c <;> rfl
@[simp] theorem raise_encLast : (raise c e s).encLast = s.encLast := by cases c <;> rfl
@[simp] theorem raise_inLen : (raise c e s).inLen = s.inLen := by cases c <;> rfl
@[simp] theorem raise_outLen : (raise c e s).outLen = s.outLen := by cases c <;> rfl
@[simp] theorem raise_inPos : (raise c e s).inPos = if c = .decStart then 0 else s.inPos := by cases c <;> rfl
@[simp] theorem raise_outPos : (raise c e s).outPos = if c = .decStart then 0 else s.outPos := by cases c <;> rfl
@[simp] theorem raise_brcPos : (raise c e s).brcPos = s.brcPos := by cases c <;> rfl
@[simp] theorem raise_brcDist : (raise c e s).brcDist = s.brcDist := by cases c <;> rfl
@[simp] theorem raise_brcLen : (raise c e s).brcLen = s.brcLen := by cases c <;> rfl
@[simp] theorem raise_esrcLen : (raise c e s).esrcLen = s.esrcLen := by cases c <;> rfl
@[simp] theorem raise_eoutCap : (raise c e s).eoutCap = s.eoutCap := by cases c <;> rfl
@[simp] theorem raise_eoutPos : (raise c e s).eoutPos = s.eoutPos := by cases c <;> rfl
@[simp] theorem raise_encLstart : (raise c e s).encLstart = s.encLstart := by cases c <;> rfl
@[simp] theorem raise_encLlen : (raise c e s).encLlen = s.encLlen := by cases c <;> rfl
@[simp] theorem raise_encMlen : (raise c e s).encMlen = s.encMlen := by cases c <;> rfl
@[simp] theorem raise_encMdist : (raise c e s).encMdist = s.encMdist := by cases c <;> rfl
@[simp] theorem raise_encPlit : (raise c e s).encPlit = s.encPlit := by cases c <;> rfl
@[simp] theorem raise_encQlen : (raise c e s).encQlen = s.encQlen := by cases c <;> rfl
@[simp] theorem raise_mem : (raise c e s).mem = s.mem := by cases c <;> rfl
@[simp] theorem raise_platform : (raise c e s).platform = s.platform := by cases c <;> rfl
@[simp] theorem raise_voids : (raise c e s).voids = s.voids := by cases c <;> rfl
@[simp] theorem raise_host : (raise c e s).host = s.host := by cases c <;> rfl
@[simp] theorem raise_rdata : (raise c e s).rdata = s.rdata := by cases c <;> rfl
@[simp] theorem raise_freeCount : (raise c e s).freeCount = s.freeCount := by cases c <;> rfl

/-! ### accept (10_state.md R23) -/

@[simp] theorem accept_phase : (accept c s).phase = c.firstPhase := by cases c <;> rfl
@[simp] theorem accept_done : (accept c s).done = false := by cases c <;> rfl
@[simp] theorem accept_err : (accept c s).err = false := by cases c <;> rfl
@[simp] theorem accept_olset : (accept c s).olset = s.olset := by cases c <;> rfl
@[simp] theorem accept_errcode : (accept c s).errcode = .none := by cases c <;> rfl
@[simp] theorem accept_dstate : (accept c s).dstate = if c = .decStart then 0 else s.dstate := by cases c <;> rfl
@[simp] theorem accept_encLast : (accept c s).encLast = s.encLast := by cases c <;> rfl
@[simp] theorem accept_inLen : (accept c s).inLen = s.inLen := by cases c <;> rfl
@[simp] theorem accept_outLen : (accept c s).outLen = s.outLen := by cases c <;> rfl
@[simp] theorem accept_inPos : (accept c s).inPos = if c = .decStart then 0 else s.inPos := by cases c <;> rfl
@[simp] theorem accept_outPos : (accept c s).outPos = if c = .decStart then 0 else s.outPos := by cases c <;> rfl
@[simp] theorem accept_brcPos : (accept c s).brcPos = s.brcPos := by cases c <;> rfl
@[simp] theorem accept_brcDist : (accept c s).brcDist = s.brcDist := by cases c <;> rfl
@[simp] theorem accept_brcLen : (accept c s).brcLen = s.brcLen := by cases c <;> rfl
@[simp] theorem accept_esrcLen : (accept c s).esrcLen = s.esrcLen := by cases c <;> rfl
@[simp] theorem accept_eoutCap : (accept c s).eoutCap = s.eoutCap := by cases c <;> rfl
@[simp] theorem accept_eoutPos : (accept c s).eoutPos = s.eoutPos := by cases c <;> rfl
@[simp] theorem accept_encLstart : (accept c s).encLstart = s.encLstart := by cases c <;> rfl
@[simp] theorem accept_encLlen : (accept c s).encLlen = s.encLlen := by cases c <;> rfl
@[simp] theorem accept_encMlen : (accept c s).encMlen = s.encMlen := by cases c <;> rfl
@[simp] theorem accept_encMdist : (accept c s).encMdist = s.encMdist := by cases c <;> rfl
@[simp] theorem accept_encPlit : (accept c s).encPlit = s.encPlit := by cases c <;> rfl
@[simp] theorem accept_encQlen : (accept c s).encQlen = s.encQlen := by cases c <;> rfl
@[simp] theorem accept_mem : (accept c s).mem = s.mem := by cases c <;> rfl
@[simp] theorem accept_platform : (accept c s).platform = s.platform := by cases c <;> rfl
@[simp] theorem accept_voids : (accept c s).voids = s.voids := by cases c <;> rfl
@[simp] theorem accept_host : (accept c s).host = s.host := by cases c <;> rfl
@[simp] theorem accept_rdata : (accept c s).rdata = s.rdata := by cases c <;> rfl
@[simp] theorem accept_freeCount : (accept c s).freeCount = s.freeCount := by cases c <;> rfl

/-! ### resetRegisters (70_reset_and_hazards.md R230) -/

@[simp] theorem resetRegisters_phase : (resetRegisters s).phase = State.reset.phase := rfl
@[simp] theorem resetRegisters_done : (resetRegisters s).done = State.reset.done := rfl
@[simp] theorem resetRegisters_err : (resetRegisters s).err = State.reset.err := rfl
@[simp] theorem resetRegisters_olset : (resetRegisters s).olset = State.reset.olset := rfl
@[simp] theorem resetRegisters_errcode : (resetRegisters s).errcode = State.reset.errcode := rfl
@[simp] theorem resetRegisters_dstate : (resetRegisters s).dstate = State.reset.dstate := rfl
@[simp] theorem resetRegisters_encLast : (resetRegisters s).encLast = State.reset.encLast := rfl
@[simp] theorem resetRegisters_inLen : (resetRegisters s).inLen = State.reset.inLen := rfl
@[simp] theorem resetRegisters_outLen : (resetRegisters s).outLen = State.reset.outLen := rfl
@[simp] theorem resetRegisters_inPos : (resetRegisters s).inPos = State.reset.inPos := rfl
@[simp] theorem resetRegisters_outPos : (resetRegisters s).outPos = State.reset.outPos := rfl
@[simp] theorem resetRegisters_brcPos : (resetRegisters s).brcPos = State.reset.brcPos := rfl
@[simp] theorem resetRegisters_brcDist : (resetRegisters s).brcDist = State.reset.brcDist := rfl
@[simp] theorem resetRegisters_brcLen : (resetRegisters s).brcLen = State.reset.brcLen := rfl
@[simp] theorem resetRegisters_esrcLen : (resetRegisters s).esrcLen = State.reset.esrcLen := rfl
@[simp] theorem resetRegisters_eoutCap : (resetRegisters s).eoutCap = State.reset.eoutCap := rfl
@[simp] theorem resetRegisters_eoutPos : (resetRegisters s).eoutPos = State.reset.eoutPos := rfl
@[simp] theorem resetRegisters_encLstart : (resetRegisters s).encLstart = State.reset.encLstart := rfl
@[simp] theorem resetRegisters_encLlen : (resetRegisters s).encLlen = State.reset.encLlen := rfl
@[simp] theorem resetRegisters_encMlen : (resetRegisters s).encMlen = State.reset.encMlen := rfl
@[simp] theorem resetRegisters_encMdist : (resetRegisters s).encMdist = State.reset.encMdist := rfl
@[simp] theorem resetRegisters_encPlit : (resetRegisters s).encPlit = State.reset.encPlit := rfl
@[simp] theorem resetRegisters_encQlen : (resetRegisters s).encQlen = State.reset.encQlen := rfl
@[simp] theorem resetRegisters_mem : (resetRegisters s).mem = s.mem := rfl
@[simp] theorem resetRegisters_platform : (resetRegisters s).platform = s.platform := rfl
@[simp] theorem resetRegisters_voids : (resetRegisters s).voids = s.voids := rfl
@[simp] theorem resetRegisters_host : (resetRegisters s).host = s.host := rfl
@[simp] theorem resetRegisters_rdata : (resetRegisters s).rdata = s.rdata := rfl
@[simp] theorem resetRegisters_freeCount : (resetRegisters s).freeCount = s.freeCount := rfl

/-! ### returnFree -/

@[simp] theorem returnFree_phase (x : Word) : (returnFree x s).phase = s.phase := rfl
@[simp] theorem returnFree_done (x : Word) : (returnFree x s).done = s.done := rfl
@[simp] theorem returnFree_err (x : Word) : (returnFree x s).err = s.err := rfl
@[simp] theorem returnFree_olset (x : Word) : (returnFree x s).olset = s.olset := rfl
@[simp] theorem returnFree_errcode (x : Word) : (returnFree x s).errcode = s.errcode := rfl
@[simp] theorem returnFree_dstate (x : Word) : (returnFree x s).dstate = s.dstate := rfl
@[simp] theorem returnFree_encLast (x : Word) : (returnFree x s).encLast = s.encLast := rfl
@[simp] theorem returnFree_inLen (x : Word) : (returnFree x s).inLen = s.inLen := rfl
@[simp] theorem returnFree_outLen (x : Word) : (returnFree x s).outLen = s.outLen := rfl
@[simp] theorem returnFree_inPos (x : Word) : (returnFree x s).inPos = s.inPos := rfl
@[simp] theorem returnFree_outPos (x : Word) : (returnFree x s).outPos = s.outPos := rfl
@[simp] theorem returnFree_brcPos (x : Word) : (returnFree x s).brcPos = s.brcPos := rfl
@[simp] theorem returnFree_brcDist (x : Word) : (returnFree x s).brcDist = s.brcDist := rfl
@[simp] theorem returnFree_brcLen (x : Word) : (returnFree x s).brcLen = s.brcLen := rfl
@[simp] theorem returnFree_esrcLen (x : Word) : (returnFree x s).esrcLen = s.esrcLen := rfl
@[simp] theorem returnFree_eoutCap (x : Word) : (returnFree x s).eoutCap = s.eoutCap := rfl
@[simp] theorem returnFree_eoutPos (x : Word) : (returnFree x s).eoutPos = s.eoutPos := rfl
@[simp] theorem returnFree_encLstart (x : Word) : (returnFree x s).encLstart = s.encLstart := rfl
@[simp] theorem returnFree_encLlen (x : Word) : (returnFree x s).encLlen = s.encLlen := rfl
@[simp] theorem returnFree_encMlen (x : Word) : (returnFree x s).encMlen = s.encMlen := rfl
@[simp] theorem returnFree_encMdist (x : Word) : (returnFree x s).encMdist = s.encMdist := rfl
@[simp] theorem returnFree_encPlit (x : Word) : (returnFree x s).encPlit = s.encPlit := rfl
@[simp] theorem returnFree_encQlen (x : Word) : (returnFree x s).encQlen = s.encQlen := rfl
@[simp] theorem returnFree_mem (x : Word) : (returnFree x s).mem = s.mem := rfl
@[simp] theorem returnFree_platform (x : Word) : (returnFree x s).platform = s.platform := rfl
@[simp] theorem returnFree_voids (x : Word) : (returnFree x s).voids = s.voids := rfl
@[simp] theorem returnFree_host (x : Word) : (returnFree x s).host = s.host := rfl
@[simp] theorem returnFree_rdata (x : Word) : (returnFree x s).rdata = x := rfl
@[simp] theorem returnFree_freeCount (x : Word) : (returnFree x s).freeCount = s.freeCount + 1 := rfl

/-! ### hostAttach: the platform's windows (70_reset_and_hazards.md R233) -/

@[simp] theorem attach_window (p : Platform) (b b' : Buffer) (w : Window) :
    (p.attach b w).window b' = if b' = b then w else p.window b' := by cases b <;> cases b' <;> rfl
@[simp] theorem attach_regBase (p : Platform) (b : Buffer) (w : Window) : (p.attach b w).regBase = p.regBase := by
  cases b <;> rfl
@[simp] theorem window_src (p : Platform) : p.window .src = p.src := rfl
@[simp] theorem window_dst (p : Platform) : p.window .dst = p.dst := rfl
@[simp] theorem window_esrc (p : Platform) : p.window .esrc = p.esrc := rfl
@[simp] theorem window_eout (p : Platform) : p.window .eout = p.eout := rfl

/-! ### Addresses and bytes under the named updates -/

@[simp] theorem finish_addr (b : Buffer) (i : Nat) : (finish s).addr b i = s.addr b i := by
  simp [State.addr]
@[simp] theorem finish_cell (a : Nat) : (finish s).cell a = s.cell a := by
  simp [State.cell, State.unlisted, Memory.read]
@[simp] theorem finish_byteAt (b : Buffer) (i : Nat) : (finish s).byteAt b i = s.byteAt b i := by
  simp [State.byteAt]
@[simp] theorem raise_addr (b : Buffer) (i : Nat) : (raise c e s).addr b i = s.addr b i := by
  simp [State.addr]
@[simp] theorem raise_cell (a : Nat) : (raise c e s).cell a = s.cell a := by
  simp [State.cell, State.unlisted, Memory.read]
@[simp] theorem raise_byteAt (b : Buffer) (i : Nat) : (raise c e s).byteAt b i = s.byteAt b i := by
  simp [State.byteAt]
@[simp] theorem accept_addr (b : Buffer) (i : Nat) : (accept c s).addr b i = s.addr b i := by
  simp [State.addr]
@[simp] theorem accept_cell (a : Nat) : (accept c s).cell a = s.cell a := by
  simp [State.cell, State.unlisted, Memory.read]
@[simp] theorem accept_byteAt (b : Buffer) (i : Nat) : (accept c s).byteAt b i = s.byteAt b i := by
  simp [State.byteAt]
@[simp] theorem resetRegisters_addr (b : Buffer) (i : Nat) : (resetRegisters s).addr b i = s.addr b i := by
  simp [State.addr]
@[simp] theorem resetRegisters_cell (a : Nat) : (resetRegisters s).cell a = s.cell a := by
  simp [State.cell, State.unlisted, Memory.read]
@[simp] theorem resetRegisters_byteAt (b : Buffer) (i : Nat) : (resetRegisters s).byteAt b i = s.byteAt b i := by
  simp [State.byteAt]
@[simp] theorem returnFree_addr (x : Word) (b : Buffer) (i : Nat) : (returnFree x s).addr b i = s.addr b i := by
  simp [State.addr]
@[simp] theorem returnFree_cell (x : Word) (a : Nat) : (returnFree x s).cell a = s.cell a := by
  simp [State.cell, State.unlisted, Memory.read]
@[simp] theorem returnFree_byteAt (x : Word) (b : Buffer) (i : Nat) : (returnFree x s).byteAt b i = s.byteAt b i := by
  simp [State.byteAt]

/-- What a byte of the memory reads as depends on the memory and the voids alone. -/
theorem cell_congr {s t : State} (hm : t.mem = s.mem) (hv : t.voids = s.voids) (a : Nat) : t.cell a = s.cell a := by
  simp [State.cell, State.unlisted, Memory.read, hm, hv]

/-- The address of an offset depends on the platform alone. -/
theorem addr_congr {s t : State} (hp : t.platform = s.platform) (b : Buffer) (i : Nat) : t.addr b i = s.addr b i := by
  simp [State.addr, hp]

/-- Windows that do not overlap have no address in common. -/
theorem overlaps_eq_false {v w : Window} (h : v.overlaps w = false) {i j : Nat} (hi : i < v.size) (hj : j < w.size) :
    v.base + i ≠ w.base + j := by
  simp only [Window.overlaps, decide_eq_false_iff_not] at h; omega

theorem contains_iff {w : Window} {a : Nat} : w.contains a = true ↔ w.base ≤ a ∧ a < w.base + w.size := by
  simp [Window.contains]

@[simp] theorem command?_idle {p : Phase} : p.command? = none ↔ p = .idle := by cases p <;> simp [Phase.command?]

@[simp] theorem firstPhase_ne_idle : c.firstPhase ≠ .idle := by cases c <;> simp [Command.firstPhase]

@[simp] theorem command?_firstPhase : c.firstPhase.command? = some c := by cases c <;> rfl

theorem busy_iff : s.busy = true ↔ s.phase ≠ .idle := by simp [State.busy]

end Sys2Proof.Machine
end

