-- ==== Sys2Proof/Laws/Ops.lean ====
section
/-! SUPPORT. One lemma per shared operation that says everything it can do; later proofs cite these and unfold none of the
operations. -/

namespace Sys2Proof.Machine

/-! ### Registers -/

theorem word_toNat {n : Nat} (h : n < 2 ^ 32) : (word n).toNat = n := by
  rw [word, BitVec.toNat_ofNat, Nat.mod_eq_of_lt h]

/-- A number that a register bounds is held exactly. -/
theorem word_toNat_of_le {n : Nat} {w : Word} (h : n ≤ w.toNat) : (word n).toNat = n :=
  word_toNat (Nat.lt_of_le_of_lt h w.isLt)

theorem trailDstate_toNat (k : BitVec 2) : (trailDstate k).toNat = k.toNat := by
  simp [trailDstate, BitVec.toNat_setWidth]; omega

/-! ### The copier -/

theorem backRefCopy_ok_iff {p d n : Nat} {s : State} {m : Memory} :
    backRefCopy p d n s = .ok m ↔
      1 ≤ d ∧ d ≤ p ∧ p + n ≤ s.outLen.toNat ∧ m = Memory.copyBack s.unlisted s.mem (s.addr .dst p) d n := by
  simp only [backRefCopy]
  split
  · simp; omega
  · split
    · simp; omega
    · simp only [Except.ok.injEq]
      constructor
      · rintro rfl; exact ⟨by omega, by omega, by omega, rfl⟩
      · rintro ⟨-, -, -, rfl⟩; rfl

theorem backRefCopy_error_iff {p d n : Nat} {s : State} {e : ErrCode} :
    backRefCopy p d n s = .error e ↔
      (d < 1 ∨ p < d) ∧ e = .lookbehindUnderrun
      ∨ (1 ≤ d ∧ d ≤ p) ∧ s.outLen.toNat < p + n ∧ e = .outputOverrun := by
  simp only [backRefCopy]
  split
  · simp only [Except.error.injEq, eq_comm (b := e)]
    constructor
    · intro h; exact .inl ⟨by omega, h⟩
    · rintro (h | h)
      · exact h.2
      · omega
  · split
    · simp only [Except.error.injEq, eq_comm (b := e)]
      constructor
      · intro h; exact .inr ⟨by omega, by omega, h⟩
      · rintro (h | h)
        · omega
        · exact h.2.2
    · simp; omega

/-! ### Literals -/

theorem copyLiterals_ok_iff {n : Nat} {s t : State} :
    copyLiterals n s = .ok t ↔
      s.outPos.toNat + n ≤ s.outLen.toNat ∧ s.inPos.toNat + n ≤ s.inLen.toNat ∧
      t = { s with
        mem := s.mem.blit (s.addr .dst s.outPos.toNat) (fun i => s.byteAt .src (s.inPos.toNat + i)) n
        outPos := word (s.outPos.toNat + n)
        inPos := word (s.inPos.toNat + n) } := by
  simp only [copyLiterals]
  split
  · simp; omega
  · split
    · simp; omega
    · simp only [Except.ok.injEq, eq_comm (b := t)]
      constructor
      · intro h; exact ⟨by omega, by omega, h⟩
      · exact fun h => h.2.2

theorem copyLiterals_error_iff {n : Nat} {s : State} {e : ErrCode} :
    copyLiterals n s = .error e ↔
      s.outLen.toNat < s.outPos.toNat + n ∧ e = .outputOverrun
      ∨ s.outPos.toNat + n ≤ s.outLen.toNat ∧ s.inLen.toNat < s.inPos.toNat + n ∧ e = .inputOverrun := by
  simp only [copyLiterals]
  split
  · simp only [Except.error.injEq, eq_comm (b := e)]
    constructor
    · intro h; exact .inl ⟨by omega, h⟩
    · rintro (h | h)
      · exact h.2
      · omega
  · split
    · simp only [Except.error.injEq, eq_comm (b := e)]
      constructor
      · intro h; exact .inr ⟨by omega, by omega, h⟩
      · rintro (h | h)
        · omega
        · exact h.2.2
    · simp; omega

/-- The state after a literal run. -/
def afterLiterals (n : Nat) (d : BitVec 3) (s : State) : State :=
  { s with
    mem := s.mem.blit (s.addr .dst s.outPos.toNat) (fun i => s.byteAt .src (s.inPos.toNat + i)) n
    outPos := word (s.outPos.toNat + n)
    inPos := word (s.inPos.toNat + n)
    dstate := d }

theorem execLiterals_ok_iff {n : Nat} {d : BitVec 3} {s t : State} :
    execLiterals n d s = .ok t ↔
      s.outPos.toNat + n ≤ s.outLen.toNat ∧ s.inPos.toNat + n ≤ s.inLen.toNat ∧ t = afterLiterals n d s := by
  unfold execLiterals
  split
  · rename_i e h
    have := copyLiterals_error_iff.1 h
    simp only [reduceCtorEq, false_iff]
    rintro ⟨h1, h2, -⟩
    omega
  · rename_i u h
    obtain ⟨h1, h2, rfl⟩ := copyLiterals_ok_iff.1 h
    simp only [Except.ok.injEq, eq_comm (b := t)]
    exact ⟨fun h => ⟨h1, h2, h⟩, fun h => h.2.2⟩

theorem execLiterals_error_iff {n : Nat} {d : BitVec 3} {s : State} {e : ErrCode} :
    execLiterals n d s = .error e ↔
      s.outLen.toNat < s.outPos.toNat + n ∧ e = .outputOverrun
      ∨ s.outPos.toNat + n ≤ s.outLen.toNat ∧ s.inLen.toNat < s.inPos.toNat + n ∧ e = .inputOverrun := by
  rw [← copyLiterals_error_iff]
  unfold execLiterals
  split
  · rename_i h; rw [h]
  · rename_i h; simp [h]

/-! ### Matches -/

/-- The memory after the copy of a match at `OUT_POS`. -/
def matchCopy (dist len : Nat) (s : State) : Memory :=
  Memory.copyBack s.unlisted s.mem (s.addr .dst s.outPos.toNat) dist len

/-- The state after a match and its `k` trailing literals. -/
def afterMatch (dist len : Nat) (k : BitVec 2) (s : State) : State :=
  { s with
    mem := (matchCopy dist len s).blit (s.addr .dst (s.outPos.toNat + len))
      (fun i => { s with mem := matchCopy dist len s }.byteAt .src (s.inPos.toNat + i)) k.toNat
    outPos := word (s.outPos.toNat + len + k.toNat)
    inPos := word (s.inPos.toNat + k.toNat)
    dstate := trailDstate k }

theorem execMatch_ok_iff {dist len : Nat} {k : BitVec 2} {s t : State} :
    execMatch dist len k s = .ok t ↔
      1 ≤ dist ∧ dist ≤ s.outPos.toNat ∧ s.outPos.toNat + len + k.toNat ≤ s.outLen.toNat ∧
      s.inPos.toNat + k.toNat ≤ s.inLen.toNat ∧ t = afterMatch dist len k s := by
  unfold execMatch
  split
  · rename_i e h
    have := backRefCopy_error_iff.1 h
    simp; omega
  · rename_i m h
    obtain ⟨h1, h2, h3, rfl⟩ := backRefCopy_ok_iff.1 h
    have hw : (word (s.outPos.toNat + len)).toNat = s.outPos.toNat + len := word_toNat_of_le h3
    rw [execLiterals_ok_iff]
    simp only [hw, afterLiterals]
    exact ⟨fun h => ⟨h1, h2, h.1, h.2.1, h.2.2⟩, fun h => ⟨h.2.2.1, h.2.2.2.1, h.2.2.2.2⟩⟩

theorem execMatch_error_iff {dist len : Nat} {k : BitVec 2} {s : State} {e : ErrCode} :
    execMatch dist len k s = .error e ↔
      (dist < 1 ∨ s.outPos.toNat < dist) ∧ e = .lookbehindUnderrun
      ∨ (1 ≤ dist ∧ dist ≤ s.outPos.toNat) ∧
        (s.outLen.toNat < s.outPos.toNat + len + k.toNat ∧ e = .outputOverrun
        ∨ s.outPos.toNat + len + k.toNat ≤ s.outLen.toNat ∧ s.inLen.toNat < s.inPos.toNat + k.toNat ∧
          e = .inputOverrun) := by
  unfold execMatch
  split
  · rename_i e' h
    simp only [Except.error.injEq]
    rcases backRefCopy_error_iff.1 h with ⟨h1, rfl⟩ | ⟨h1, h2, rfl⟩
    · constructor
      · rintro rfl; exact .inl ⟨h1, rfl⟩
      · rintro (h | h)
        · exact h.2.symm
        · omega
    · constructor
      · rintro rfl; exact .inr ⟨h1, .inl ⟨by omega, rfl⟩⟩
      · rintro (h | ⟨-, h | h⟩)
        · omega
        · exact h.2.symm
        · omega
  · rename_i m h
    obtain ⟨h1, h2, h3, rfl⟩ := backRefCopy_ok_iff.1 h
    have hw : (word (s.outPos.toNat + len)).toNat = s.outPos.toNat + len := word_toNat_of_le h3
    rw [execLiterals_error_iff]
    simp only [hw]
    constructor
    · intro h; exact .inr ⟨⟨h1, h2⟩, h⟩
    · rintro (h | h)
      · omega
      · exact h.2

/-- The copy of a match leaves every address outside it. -/
theorem matchCopy_outside (dist len : Nat) (s : State) {a : Nat}
    (h : a < s.addr .dst s.outPos.toNat ∨ s.addr .dst (s.outPos.toNat + len) ≤ a) :
    { s with mem := matchCopy dist len s }.cell a = s.cell a :=
  Memory.read_copyBack_outside _ _ _ _ _ (by simp only [State.addr] at h ⊢; omega)

/-- The memory after a match: its trailing literals, its copy, and every other byte as before. -/
theorem afterMatch_cell (dist len : Nat) (k : BitVec 2) (s : State) (a : Nat) :
    (afterMatch dist len k s).cell a =
      if s.addr .dst (s.outPos.toNat + len) ≤ a ∧ a < s.addr .dst (s.outPos.toNat + len + k.toNat) then
        { s with mem := matchCopy dist len s }.byteAt .src
          (s.inPos.toNat + (a - s.addr .dst (s.outPos.toNat + len)))
      else { s with mem := matchCopy dist len s }.cell a := by
  have e : s.addr .dst (s.outPos.toNat + len + k.toNat) = s.addr .dst (s.outPos.toNat + len) + k.toNat := by
    simp only [State.addr]; omega
  rw [e]
  exact Memory.read_blit ..

/-- The memory after a literal run: its literals, and every other byte as before. -/
theorem afterLiterals_cell (n : Nat) (d : BitVec 3) (s : State) (a : Nat) :
    (afterLiterals n d s).cell a =
      if s.addr .dst s.outPos.toNat ≤ a ∧ a < s.addr .dst (s.outPos.toNat + n) then
        s.byteAt .src (s.inPos.toNat + (a - s.addr .dst s.outPos.toNat))
      else s.cell a := by
  have e : s.addr .dst (s.outPos.toNat + n) = s.addr .dst s.outPos.toNat + n := by simp only [State.addr]; omega
  rw [e]
  exact Memory.read_blit ..

/-! ### Ends -/

theorem endToken_ok (s t : State) : endToken s (.ok t) = .next t := rfl

theorem endToken_error (s : State) (e : ErrCode) : endToken s (.error e) = .next (raise .decStart e s) := rfl

/-- A token always answers a next state: its result, or the error end. -/
theorem endToken_cases {s t : State} {r : Except ErrCode State} (h : endToken s r = .next t) :
    r = .ok t ∨ ∃ e, r = .error e ∧ t = raise .decStart e s := by
  cases r with
  | ok u => simp only [endToken, Host.Outcome.next.injEq] at h; exact .inl (by rw [h])
  | error e => simp only [endToken, Host.Outcome.next.injEq] at h; exact .inr ⟨e, rfl, h.symm⟩

theorem commandStep_idle {c : Command} {run : State → State} {s : State} (h : s.phase = .idle) :
    commandStep c run s = .next (accept c s) := by simp [commandStep, h]

theorem commandStep_run {c : Command} {run : State → State} {s : State} (h : s.phase = c.firstPhase) :
    commandStep c run s = .next (run s) := by simp [commandStep, h]

theorem commandStep_other {c : Command} {run : State → State} {s : State} (h : s.phase ≠ .idle)
    (h' : s.phase ≠ c.firstPhase) : commandStep c run s = .next s := by simp [commandStep, h, h']

/-- What the append of an encoder command can do. -/
theorem appendStream_cases (c : Command) (last : EncLast) (m : Memory) (bs : List Byte) (s : State) :
    (s.eoutCap.toNat < s.eoutPos.toNat + bs.length ∧ appendStream c last m bs s = raise c .outputOverrun s)
    ∨ (s.eoutPos.toNat + bs.length ≤ s.eoutCap.toNat ∧
      appendStream c last m bs s = finish { s with
        mem := m.store (s.addr .eout s.eoutPos.toNat) bs, eoutPos := word (s.eoutPos.toNat + bs.length), encLast := last }) := by
  unfold appendStream
  split
  · exact .inl ⟨‹_›, rfl⟩
  · exact .inr ⟨by omega, rfl⟩

/-- The memory after bytes are stored in a buffer: the bytes, and every other byte as before. -/
theorem store_cell (s : State) (m : Memory) (b : Buffer) (p : Nat) (bs : List Byte) (a : Nat) :
    { s with mem := m.store (s.addr b p) bs }.cell a =
      if s.addr b p ≤ a ∧ a < s.addr b (p + bs.length) then bs.getD (a - s.addr b p) 0 else { s with mem := m }.cell a := by
  have e : s.addr b (p + bs.length) = s.addr b p + bs.length := by simp only [State.addr]; omega
  rw [e]
  exact Memory.read_store ..

/-- The byte of a stored list at an offset past its start. -/
theorem store_byteAt (s : State) (m : Memory) (b : Buffer) (p : Nat) (bs : List Byte) {j : Nat} (h : j < bs.length) :
    { s with mem := m.store (s.addr b p) bs }.byteAt b (p + j) = bs.getD j 0 := by
  have := store_cell s m b p bs (s.addr b (p + j))
  rw [if_pos (by simp only [State.addr]; omega), show s.addr b (p + j) - s.addr b p = j by simp only [State.addr]; omega]
    at this
  exact this

theorem runLiterals_length (s : State) : (runLiterals s).length = s.encLlen.toNat := bytesFrom_length ..

theorem litForm_orInto {p n : Nat} : litForm p n = .orInto ↔ p ≠ 0 ∧ n ≤ 3 := by
  unfold litForm
  split
  · simp; omega
  · split
    · simp; omega
    · split <;> simp <;> omega

theorem zextBytes_length (x : Nat) : (zextBytes x).length = (x - 1) / 255 + 1 := by simp [zextBytes]

end Sys2Proof.Machine
end

