-- ==== Sys2Proof/Laws/Exec.lean ====
section
/-! SUPPORT. What each group of instructions runs, in terms of the shared operations. -/

namespace Sys2Proof.Machine

/-- A literal-run token is the literal run of its operands (41_decoder.md R130 to R132). -/
theorem exec_literal {i : Instr} {n : Nat} {d : BitVec 3} (h : literalOperands i = some (n, d)) (s : State) :
    exec i s = endToken s (execLiterals n d s) := by
  cases i with
  | initLit x => cases h; rfl
  | lit l => cases h; rfl
  | litX x => cases x <;> cases h; rfl
  | _ => cases h

/-- A match token is the match of its operands (41_decoder.md R133 to R139). -/
theorem exec_match {i : Instr} {len dist : Nat} {k : BitVec 2} (h : matchOperands i = some (len, dist, k))
    (s : State) : exec i s = endToken s (execMatch dist len k s) := by
  cases i with
  | m1 d k next => cases next <;> cases h; rfl
  | m1b d k next => cases next <;> cases h; rfl
  | m2 l d k next => cases next <;> cases h; rfl
  | m3 l v => cases v <;> cases h; rfl
  | m3X x v => cases x <;> cases v <;> cases h; rfl
  | m4 a l v =>
    cases v with
    | failed e => cases h
    | got v =>
      simp only [matchOperands] at h
      split at h
      · cases h
      · rename_i hb
        cases h
        simp only [exec, execM4, withOperand, m4Tail, if_neg hb]
  | m4X a x v =>
    cases x with
    | failed e => cases v <;> cases h
    | got z =>
      cases v with
      | failed e => cases h
      | got v =>
        simp only [matchOperands] at h
        split at h
        · cases h
        · rename_i hb
          cases h
          simp only [exec, execM4X, withOperand, m4Tail, if_neg hb]
  | _ => cases h

/-- The distance of a match token is positive (30_encoding.md R97). -/
theorem matchOperands_dist_pos {i : Instr} {len dist : Nat} {k : BitVec 2}
    (h : matchOperands i = some (len, dist, k)) : 1 ≤ dist := by
  cases i with
  | m1 d k next => cases next <;> cases h; simp only [m1Dist]; omega
  | m1b d k next => cases next <;> cases h; simp only [m1bDist]; omega
  | m2 l d k next => cases next <;> cases h; simp only [m2Dist]; omega
  | m3 l v => cases v <;> cases h; simp only [m3Dist]; omega
  | m3X x v => cases x <;> cases v <;> cases h; simp only [m3Dist]; omega
  | m4 a l v =>
    cases v with
    | failed e => cases h
    | got v => simp only [matchOperands] at h; split at h <;> cases h; simp only [m4Dist]; omega
  | m4X a x v =>
    cases x with
    | failed e => cases v <;> cases h
    | got z =>
      cases v with
      | failed e => cases h
      | got v => simp only [matchOperands] at h; split at h <;> cases h; simp only [m4Dist]; omega
  | _ => cases h

/-- The error that reading the operands of a token raised. -/
def readError : Instr → Option ErrCode
  | .litX (.failed e) | .m1 _ _ (.failed e) | .m1b _ _ (.failed e) | .m2 _ _ _ (.failed e) | .m3 _ (.failed e)
  | .m3X (.failed e) _ | .m3X (.got _) (.failed e) | .m4 _ _ (.failed e) | .m4X _ (.failed e) _
  | .m4X _ (.got _) (.failed e) => some e
  | .litX (.got _) | .m1 _ _ (.got _) | .m1b _ _ (.got _) | .m2 _ _ _ (.got _) | .m3 _ (.got _)
  | .m3X (.got _) (.got _) | .m4 _ _ (.got _) | .m4X _ (.got _) (.got _) | .initLit _ | .lit _ | .term _
  | .decStart | .brcCopy | .encLit | .encMatch | .encTerm | .encQuery => none

/-- A token whose operands could not be read ends the decode in that error (41_decoder.md R124, R125). -/
theorem exec_readError {i : Instr} {e : ErrCode} (h : readError i = some e) (s : State) :
    exec i s = .next (raise .decStart e s) := by
  cases i with
  | litX x => cases x <;> cases h; rfl
  | m1 d k x => cases x <;> cases h; rfl
  | m1b d k x => cases x <;> cases h; rfl
  | m2 l d k x => cases x <;> cases h; rfl
  | m3 l v => cases v <;> cases h; rfl
  | m3X x v => cases x <;> cases v <;> cases h <;> rfl
  | m4 a l v => cases v <;> cases h; rfl
  | m4X a x v => cases x <;> cases v <;> cases h <;> rfl
  | _ => cases h

/-- What a token can do: a literal run, a match, the end of the stream, or an error. -/
inductive TokenRuns (i : Instr) : (State → Except ErrCode State) → Prop where
  | literal (n : Nat) (d : BitVec 3) (h : literalOperands i = some (n, d)) : TokenRuns i (execLiterals n d)
  | matched (len dist : Nat) (k : BitVec 2) (h : matchOperands i = some (len, dist, k)) :
    TokenRuns i (execMatch dist len k)
  | done : TokenRuns i fun s => .ok (finish s)
  | failed (e : ErrCode) (h : readError i = some e ∨ e = .inputOverrun) : TokenRuns i fun _ => .error e

/-- Every token does one of those, the same on every state. -/
theorem exec_token {i : Instr} (h : i.isToken = true) :
    ∃ run, TokenRuns i run ∧ ∀ s, exec i s = endToken s (run s) := by
  by_cases hl : ∃ n d, literalOperands i = some (n, d)
  · obtain ⟨n, d, hl⟩ := hl
    exact ⟨_, .literal n d hl, fun s => exec_literal hl s⟩
  by_cases hm : ∃ len dist k, matchOperands i = some (len, dist, k)
  · obtain ⟨len, dist, k, hm⟩ := hm
    exact ⟨_, .matched len dist k hm, fun s => exec_match hm s⟩
  cases i with
  | initLit n => exact absurd ⟨_, _, rfl⟩ hl
  | lit l => exact absurd ⟨_, _, rfl⟩ hl
  | litX x =>
    cases x with
    | got z => exact absurd ⟨_, _, rfl⟩ hl
    | failed e => exact ⟨_, .failed e (.inl rfl), fun _ => rfl⟩
  | m1 d k next =>
    cases next with
    | got b => exact absurd ⟨_, _, _, rfl⟩ hm
    | failed e => exact ⟨_, .failed e (.inl rfl), fun _ => rfl⟩
  | m1b d k next =>
    cases next with
    | got b => exact absurd ⟨_, _, _, rfl⟩ hm
    | failed e => exact ⟨_, .failed e (.inl rfl), fun _ => rfl⟩
  | m2 l d k next =>
    cases next with
    | got b => exact absurd ⟨_, _, _, rfl⟩ hm
    | failed e => exact ⟨_, .failed e (.inl rfl), fun _ => rfl⟩
  | m3 l v =>
    cases v with
    | got v => exact absurd ⟨_, _, _, rfl⟩ hm
    | failed e => exact ⟨_, .failed e (.inl rfl), fun _ => rfl⟩
  | m3X x v =>
    cases x with
    | failed e => exact ⟨_, .failed e (.inl (by cases v <;> rfl)), fun _ => rfl⟩
    | got z =>
      cases v with
      | got v => exact absurd ⟨_, _, _, rfl⟩ hm
      | failed e => exact ⟨_, .failed e (.inl rfl), fun _ => rfl⟩
  | m4 a l v =>
    cases v with
    | failed e => exact ⟨_, .failed e (.inl rfl), fun _ => rfl⟩
    | got v =>
      by_cases hb : m4DistBase a v = 0
      · by_cases h3 : m4Len l = 3
        · exact ⟨_, .done, fun s => by simp [exec, execM4, withOperand, m4Tail, hb, h3]⟩
        · exact ⟨_, .failed .inputOverrun (.inr rfl), fun s => by simp [exec, execM4, withOperand, m4Tail, hb, h3]⟩
      · exact absurd ⟨_, _, _, if_neg hb⟩ hm
  | m4X a x v =>
    cases x with
    | failed e => exact ⟨_, .failed e (.inl (by cases v <;> rfl)), fun _ => rfl⟩
    | got z =>
      cases v with
      | failed e => exact ⟨_, .failed e (.inl rfl), fun _ => rfl⟩
      | got v =>
        by_cases hb : m4DistBase a v = 0
        · by_cases h3 : zextLen Config.m4Base z = 3
          · exact ⟨_, .done, fun s => by simp [exec, execM4X, withOperand, m4Tail, hb, h3]⟩
          · exact ⟨_, .failed .inputOverrun (.inr rfl), fun s => by simp [exec, execM4X, withOperand, m4Tail, hb, h3]⟩
        · exact absurd ⟨_, _, _, if_neg hb⟩ hm
  | term lo => exact ⟨_, .done, fun _ => rfl⟩
  | decStart | brcCopy | encLit | encMatch | encTerm | encQuery => cases h

/-! ### The host's coming actions -/

/-- The outcome with the host's coming actions in its next state. -/
def withHost (r : List HostAction) : Host.Outcome State Fault Refusal → Host.Outcome State Fault Refusal
  | .next t => .next { t with host := r }
  | .fault f => .fault f
  | .refused x => .refused x

theorem raise_withHost (c : Command) (e : ErrCode) (r : List HostAction) (s : State) :
    raise c e { s with host := r } = { raise c e s with host := r } := by cases c <;> rfl

theorem accept_withHost (c : Command) (r : List HostAction) (s : State) :
    accept c { s with host := r } = { accept c s with host := r } := by cases c <;> rfl

theorem execLiterals_withHost (n : Nat) (d : BitVec 3) (r : List HostAction) (s : State) :
    execLiterals n d { s with host := r } = (execLiterals n d s).map ({ · with host := r }) := by
  simp only [execLiterals, copyLiterals]
  split_ifs <;> rfl

theorem execMatch_withHost (dist len : Nat) (k : BitVec 2) (r : List HostAction) (s : State) :
    execMatch dist len k { s with host := r } = (execMatch dist len k s).map ({ · with host := r }) := by
  simp only [execMatch, backRefCopy]
  split_ifs
  · rfl
  · rfl
  · exact execLiterals_withHost k.toNat (trailDstate k) r { s with
      mem := Memory.copyBack s.unlisted s.mem (s.addr .dst s.outPos.toNat) dist len
      outPos := word (s.outPos.toNat + len) }

theorem endToken_withHost (r : List HostAction) (s : State) (x : Except ErrCode State) :
    endToken { s with host := r } (x.map ({ · with host := r })) = withHost r (endToken s x) := by
  cases x <;> rfl

theorem commandStep_withHost {c : Command} {run : State → State} {r : List HostAction}
    (h : ∀ s, run { s with host := r } = { run s with host := r }) (s : State) :
    commandStep c run { s with host := r } = withHost r (commandStep c run s) := by
  simp only [commandStep, h, accept_withHost]
  split_ifs <;> rfl

theorem appendStream_withHost (c : Command) (last : EncLast) (m : Memory) (bs : List Byte) (r : List HostAction) (s : State) :
    appendStream c last m bs { s with host := r } = { appendStream c last m bs s with host := r } := by
  simp only [appendStream, raise_withHost]
  split_ifs <;> rfl

/-- No instruction reads the host's coming actions, and none changes them (10_state.md R47). -/
theorem exec_withHost (i : Instr) (r : List HostAction) (s : State) :
    exec i { s with host := r } = withHost r (exec i s) := by
  by_cases ht : i.isToken = true
  · obtain ⟨run, hrun, hex⟩ := exec_token ht
    rw [hex, hex, ← endToken_withHost]
    congr 1
    cases hrun with
    | literal n d => exact execLiterals_withHost n d r s
    | matched len dist k => exact execMatch_withHost dist len k r s
    | done | failed => rfl
  · cases i <;> simp only [Instr.isToken, not_true_eq_false] at ht
    · exact commandStep_withHost (fun _ => rfl) s
    · refine commandStep_withHost (fun s => ?_) s
      simp only [runBrcCopy, backRefCopy]
      split_ifs <;> rfl
    · refine commandStep_withHost (fun s => ?_) s
      simp only [runEncLit]
      cases litForm s.eoutPos.toNat s.encLlen.toNat <;> simp only <;> split_ifs <;>
        first | rfl | exact appendStream_withHost ..
    · refine commandStep_withHost (fun s => ?_) s
      simp only [runEncMatch]
      split_ifs
      · rfl
      · cases classify s.encMlen.toNat s.encMdist.toNat s.encPlit.toNat with
        | none => rfl
        | some c => exact appendStream_withHost ..
    · refine commandStep_withHost (fun s => ?_) s
      simp only [runEncTerm]
      split_ifs
      · rfl
      · exact appendStream_withHost ..
    · exact commandStep_withHost (fun _ => rfl) s

end Sys2Proof.Machine
end

