-- ==== Sys2Proof/Laws/PerInstr.lean ====
section
/-! SUPPORT. The family of statements made for every instruction: what is encoded carries its opcode-table row. -/

namespace Sys2Proof.Laws.TableRow

/-- A well-formed token's first byte matches a row of its mnemonic (30_encoding.md R106), and a command's word has the `OP`
of its row (R103). -/
def Statement (i : Instr) : Prop :=
  i.WellFormed = true →
    (i.isToken = true → ∃ t bs, encodeToken i = t :: bs ∧
      ∃ r ∈ opcodeRows, r.mnemonic = i.mnemonic ∧ t &&& r.mask = r.pattern)
    ∧ (i.isToken = false → decodeCommand (encodeCommand i) = .ok i)

/-- The rows of a mnemonic, for a byte. -/
theorem of_byte {i : Instr} {t : Byte} {bs : List Byte} (ht : i.isToken = true) (he : encodeToken i = t :: bs)
    (h : (opcodeRows.any fun r => r.mnemonic == i.mnemonic && t &&& r.mask == r.pattern) = true) : Statement i := by
  refine fun _ => ⟨fun _ => ⟨t, bs, he, ?_⟩, fun h' => ?_⟩
  · obtain ⟨r, hr, h⟩ := List.any_eq_true.1 h
    simp only [Bool.and_eq_true, beq_iff_eq] at h
    exact ⟨r, hr, h⟩
  · rw [ht] at h'; cases h'

theorem initLit (n : Byte) : Statement (.initLit n) := by
  intro hw
  have h : ∀ n : Byte, 1 ≤ n.toNat → n.toNat ≤ 238 →
      (opcodeRows.any fun r => r.mnemonic == "INIT_LIT" && (n + 17) &&& r.mask == r.pattern) = true := by decide
  simp only [Instr.WellFormed, Bool.and_eq_true, decide_eq_true_eq] at hw
  exact of_byte rfl rfl (h n hw.1 hw.2) (by simpa [Instr.WellFormed] using hw)

theorem lit (l : BitVec 4) : Statement (.lit l) :=
  of_byte rfl rfl ((by decide : ∀ l : BitVec 4,
    (opcodeRows.any fun r => r.mnemonic == "LIT" && (0#4 ++ l : Byte) &&& r.mask == r.pattern) = true) l)

theorem litX (x : Operand Zext) : Statement (.litX x) := of_byte rfl rfl (t := 0x00) (by simp only [Instr.mnemonic]; decide)

theorem m1 (d s : BitVec 2) (next : Operand Byte) : Statement (.m1 d s next) :=
  of_byte rfl rfl ((by decide : ∀ d s : BitVec 2,
    (opcodeRows.any fun r => r.mnemonic == "M1" && (0#4 ++ d ++ s : Byte) &&& r.mask == r.pattern) = true) d s)

theorem m1b (d s : BitVec 2) (next : Operand Byte) : Statement (.m1b d s next) :=
  of_byte rfl rfl ((by decide : ∀ d s : BitVec 2,
    (opcodeRows.any fun r => r.mnemonic == "M1B" && (0#4 ++ d ++ s : Byte) &&& r.mask == r.pattern) = true) d s)

theorem m2 (l d : BitVec 3) (s : BitVec 2) (next : Operand Byte) : Statement (.m2 l d s next) := by
  intro hw
  have h : ∀ (l d : BitVec 3) (s : BitVec 2), 2 ≤ l.toNat →
      (opcodeRows.any fun r => r.mnemonic == "M2" && (l ++ d ++ s : Byte) &&& r.mask == r.pattern) = true := by decide
  have hl : 2 ≤ l.toNat := by simp only [Instr.WellFormed, Bool.and_eq_true, decide_eq_true_eq] at hw; exact hw.1
  exact of_byte rfl rfl (h l d s hl) hw

theorem m3 (l : BitVec 5) (v : Operand Half) : Statement (.m3 l v) :=
  of_byte rfl rfl ((by decide : ∀ l : BitVec 5,
    (opcodeRows.any fun r => r.mnemonic == "M3" && (0b001#3 ++ l : Byte) &&& r.mask == r.pattern) = true) l)

theorem m3X (x : Operand Zext) (v : Operand Half) : Statement (.m3X x v) :=
  of_byte rfl rfl (t := 0x20) (by simp only [Instr.mnemonic]; decide)

theorem m4 (h : BitVec 1) (l : BitVec 3) (v : Operand Half) : Statement (.m4 h l v) :=
  of_byte rfl rfl ((by decide : ∀ (h : BitVec 1) (l : BitVec 3),
    (opcodeRows.any fun r => r.mnemonic == "M4" && (0b0001#4 ++ h ++ l : Byte) &&& r.mask == r.pattern) = true) h l)

theorem m4X (h : BitVec 1) (x : Operand Zext) (v : Operand Half) : Statement (.m4X h x v) :=
  of_byte rfl rfl ((by decide : ∀ h : BitVec 1,
    (opcodeRows.any fun r => r.mnemonic == "M4_X" && (0b0001#4 ++ h ++ 0#3 : Byte) &&& r.mask == r.pattern) = true) h)

theorem term (lo : BitVec 2) : Statement (.term lo) := of_byte rfl rfl (t := 0x11) (by simp only [Instr.mnemonic]; decide)

/-- A command decodes from its word. -/
theorem of_command {i : Instr} (ht : i.isToken = false) (h : decodeCommand (encodeCommand i) = .ok i) : Statement i :=
  fun _ => ⟨fun h' => absurd (ht.symm.trans h') (by decide), fun _ => h⟩

theorem decStart : Statement .decStart := of_command rfl (by decide)
theorem brcCopy : Statement .brcCopy := of_command rfl (by decide)
theorem encLit : Statement .encLit := of_command rfl (by decide)
theorem encMatch : Statement .encMatch := of_command rfl (by decide)
theorem encTerm : Statement .encTerm := of_command rfl (by decide)
theorem encQuery : Statement .encQuery := of_command rfl (by decide)

end Sys2Proof.Laws.TableRow
end

