-- ==== Sys2Proof/Laws/Step.lean ====
section
/-! SUPPORT. What a step can do: the token it fetches and its size, the core step of each phase, and the updates of the
host's accesses. -/

namespace Sys2Proof.Machine

/-! ### The token that is fetched -/

/-- The bytes of a token all stand in the stream, or reading its operands failed. -/
def Fits (r : Instr × Nat) (bs : List Byte) : Prop :=
  r.1.isToken = true ∧ 1 ≤ r.2 ∧
    (r.2 ≤ bs.length + 1 ∨ ∃ e, readError r.1 = some e) ∧
    ∀ e, readError r.1 = some e → e = .inputOverrun ∨ e = .outputOverrun

theorem fits_byte {bs : List Byte} (make : Operand Byte → Instr) (ht : ∀ x, (make x).isToken = true)
    (hg : ∀ b, readError (make (.got b)) = none) (hf : ∀ e, readError (make (.failed e)) = some e) :
    Fits (make (readOperand bs), 2) bs := by
  cases bs with
  | nil => exact ⟨ht _, by simp, .inr ⟨_, hf _⟩, by simp only [readOperand, hf]; rintro _ ⟨⟩; simp⟩
  | cons b bs => exact ⟨ht _, by simp, .inl (by simp), by simp [readOperand, hg]⟩

theorem fits_word {bs : List Byte} (make : Operand Half → Instr) (ht : ∀ x, (make x).isToken = true)
    (hg : ∀ b, readError (make (.got b)) = none) (hf : ∀ e, readError (make (.failed e)) = some e) :
    Fits (make (readLE16 bs), 3) bs := by
  match bs with
  | [] => exact ⟨ht _, by simp, .inr ⟨_, hf _⟩, by simp only [readLE16, hf]; rintro _ ⟨⟩; simp⟩
  | [_] => exact ⟨ht _, by simp, .inr ⟨_, hf _⟩, by simp only [readLE16, hf]; rintro _ ⟨⟩; simp⟩
  | _ :: _ :: _ => exact ⟨ht _, by simp, .inl (by simp), by simp [readLE16, hg]⟩

theorem fits_zext {bs : List Byte} (make : Operand Zext → Operand Half → Instr)
    (ht : ∀ x v, (make x v).isToken = true) (hg : ∀ z v, readError (make (.got z) (.got v)) = none)
    (hf : ∀ e v, readError (make (.failed e) v) = some e)
    (hf' : ∀ z e, readError (make (.got z) (.failed e)) = some e) : Fits (zextThenWord make bs) bs := by
  unfold zextThenWord
  split
  · rename_i z hz
    obtain ⟨k, rest, hk, rfl, -, -⟩ := readZext_eq_got hz
    have hd : (List.replicate k 0 ++ z.b :: rest).drop z.size = rest := by
      rw [Zext.size, hk, Nat.zero_add]; exact drop_zext ..
    rw [hd]
    obtain ⟨h1, h2, h3, h4⟩ := fits_word (bs := rest) (make (.got z)) (ht _) (hg z) (hf' z)
    refine ⟨h1, by simp only; omega, h3.imp_left fun h => ?_, h4⟩
    simp [Zext.size, hk] at h ⊢; omega
  · rename_i e he
    exact ⟨ht _ _, Nat.le_refl _, .inr ⟨_, hf _ _⟩, fun e' h => by
      rw [hf] at h; cases h; exact readZext_eq_failed he⟩

theorem fits_litX (bs : List Byte) : Fits (decodeLitX bs) bs := by
  unfold decodeLitX
  split
  · rename_i z hz
    obtain ⟨k, rest, hk, rfl, -, -⟩ := readZext_eq_got hz
    exact ⟨rfl, by simp only; omega, .inl (by simp [Zext.size, hk]; omega), fun e h => by cases h⟩
  · rename_i e he
    exact ⟨rfl, Nat.le_refl _, .inr ⟨_, rfl⟩, fun e' h => by cases h; exact readZext_eq_failed he⟩

theorem fits_one {bs : List Byte} {i : Instr} (ht : i.isToken = true) (h : readError i = none) : Fits (i, 1) bs :=
  ⟨ht, Nat.le_refl _, .inl (by simp), by simp [h]⟩

/-- Every decoded token fits its bytes (41_decoder.md R124, R125). -/
theorem tokenOf_fits (ctx : Context) (t : Byte) (bs : List Byte) : Fits (tokenOf ctx t bs) bs := by
  unfold tokenOf
  split
  · exact fits_one rfl rfl
  unfold dispatch
  split
  · exact fits_byte (.m2 _ _ _) (fun _ => rfl) (fun _ => rfl) fun _ => rfl
  split
  · split
    · exact fits_word (.m3 _) (fun _ => rfl) (fun _ => rfl) fun _ => rfl
    · exact fits_zext .m3X (fun _ _ => rfl) (fun _ _ => rfl) (fun _ v => by cases v <;> rfl) fun _ _ => rfl
  split
  · split
    · unfold decodeM4
      split
      · rename_i h
        match bs, h with
        | _ :: _ :: _, _ => exact ⟨rfl, by simp, .inl (by simp), fun e h => by cases h⟩
        | [], h => simp [isEndMark] at h
        | [_], h => simp [isEndMark] at h
      · exact fits_word (.m4 _ _) (fun _ => rfl) (fun _ => rfl) fun _ => rfl
    · exact fits_zext (.m4X _) (fun _ _ => rfl) (fun _ _ => rfl) (fun _ v => by cases v <;> rfl) fun _ _ => rfl
  have hlit : Fits (if t = 0 then decodeLitX bs else (.lit (field 0 4 t), 1)) bs := by
    split
    · exact fits_litX bs
    · exact fits_one rfl rfl
  unfold decodeLow
  cases ctx with
  | first => exact hlit
  | state0 => exact hlit
  | state123 => exact fits_byte (.m1 _ _) (fun _ => rfl) (fun _ => rfl) fun _ => rfl
  | state4 => exact fits_byte (.m1b _ _) (fun _ => rfl) (fun _ => rfl) fun _ => rfl

/-! ### The core step -/

/-- The host's duties towards the running command's buffers are what lets its core step run. -/
theorem attached_iff {s : State} : s.Attached ↔ s.overBound = none ∧ s.overlap = none := by
  unfold State.Attached State.overBound State.overlap
  cases hs : s.platform.src.overlaps s.platform.dst <;> cases he : s.platform.esrc.overlaps s.platform.eout <;>
    cases s.phase <;>
    simp [Phase.command?, Command.bounds, Command.disjointPair, State.attachedFor, overAttached, Platform.window,
      ite_eq_iff, hs, he]

theorem attached_overBound {s : State} (h : s.Attached) : s.overBound = none := (attached_iff.1 h).1

theorem attached_overlap {s : State} (h : s.Attached) : s.overlap = none := (attached_iff.1 h).2

/-- During a decode that may step, `SRC` and `DST` do not overlap. -/
theorem overlap_decoding {s : State} (h : s.overlap = none) (hd : s.decoding) :
    s.platform.src.overlaps s.platform.dst = false := by
  cases hc : s.platform.src.overlaps s.platform.dst with
  | false => rfl
  | true => rcases hd with hd | hd <;> simp [State.overlap, hd, Phase.command?, Command.disjointPair, hc] at h

/-- What running what is fetched answers. -/
def Fetched.outcome : Fetched → Host.Outcome State Fault Refusal
  | .run i s => exec i s
  | .out o => o

theorem step_eq (s : State) : step s = (fetch s).outcome := by
  unfold step Fetched.outcome
  cases fetch s <;> rfl

/-- A core step (10_state.md R46). -/
def coreStep (s : State) : Host.Outcome State Fault Refusal := (coreFetch s).outcome

/-- With no host action pending a step is a core step. -/
theorem step_core {s : State} (hh : s.host = []) : step s = coreStep s := by rw [step_eq, fetch, hh]; rfl

/-- A step in which the host lets the core step is a core step. -/
theorem step_coreAction {s : State} {r : List HostAction} (hh : s.host = .core :: r) :
    step s = coreStep { s with host := r } := by rw [step_eq, fetch, hh]; rfl

/-- What a core step fetches does not depend on the host's coming actions. -/
theorem phaseFetch_withHost (r : List HostAction) (s : State) :
    (phaseFetch { s with host := r }).outcome = withHost r (phaseFetch s).outcome := by
  have htok : (tokenFetch { s with host := r }).outcome = withHost r (tokenFetch s).outcome := by
    show (match decodeToken s.context s.streamBytes with
      | .ok (i, n) => Fetched.run i { s with phase := .decLoop, inPos := word (s.inPos.toNat + n), host := r }
      | .reject _ => .out (.next (raise .decStart .unexpectedEof { s with host := r }))).outcome = _
    unfold tokenFetch
    cases decodeToken s.context s.streamBytes with
    | ok p => exact exec_withHost p.1 r { s with phase := .decLoop, inPos := word (s.inPos.toNat + p.2) }
    | reject e => rfl
  have hfirst : (firstFetch { s with host := r }).outcome = withHost r (firstFetch s).outcome := by
    simp only [firstFetch]
    split_ifs <;> first | rfl | exact htok
  have hrun := fun i => exec_withHost i r s
  rcases s with ⟨_ | _ | _ | _ | _ | _ | _ | _⟩
  case idle => rfl
  case decFirst => exact hfirst
  case decLoop => exact htok
  case brcRun => exact hrun .brcCopy
  case encLitRun => exact hrun .encLit
  case encMatchRun => exact hrun .encMatch
  case encTermRun => exact hrun .encTerm
  case encQueryRun => exact hrun .encQuery

theorem overBound_withHost (r : List HostAction) (s : State) :
    { s with host := r }.overBound = s.overBound := by rcases s with ⟨_ | _ | _ | _ | _ | _ | _ | _⟩ <;> rfl

theorem overlap_withHost (r : List HostAction) (s : State) :
    { s with host := r }.overlap = s.overlap := by rcases s with ⟨_ | _ | _ | _ | _ | _ | _ | _⟩ <;> rfl

/-- A core step does not depend on the host's coming actions, and keeps them (10_state.md R47). -/
theorem coreStep_withHost (r : List HostAction) (s : State) :
    coreStep { s with host := r } = withHost r (coreStep s) := by
  simp only [coreStep, coreFetch, overBound_withHost, overlap_withHost]
  cases s.overBound <;> cases s.overlap <;> first | exact phaseFetch_withHost r s | rfl

theorem coreStep_phase {s : State} (hb : s.overBound = none) (ho : s.overlap = none) :
    coreStep s = (phaseFetch s).outcome := by
  rw [coreStep, coreFetch, hb, ho]

/-- A core step that answers a next state has its bounds kept and its buffers disjoint. -/
theorem coreStep_next_duties {s t : State} (h : coreStep s = .next t) : s.overBound = none ∧ s.overlap = none := by
  cases hb : s.overBound with
  | some b => simp [coreStep, coreFetch, hb, Fetched.outcome] at h
  | none =>
    cases ho : s.overlap with
    | some p => simp [coreStep, coreFetch, hb, ho, Fetched.outcome] at h
    | none => exact ⟨rfl, rfl⟩

/-- The state on which the token just decoded runs. -/
def afterToken (n : Nat) (s : State) : State :=
  { s with phase := .decLoop, inPos := word (s.inPos.toNat + n) }

theorem streamBytes_length (s : State) : s.streamBytes.length = s.inLen.toNat - s.inPos.toNat := bytesFrom_length ..

/-- A decoder step runs the token at `IN_POS`, or raises an error of the command. -/
theorem coreStep_decoding {s : State} (hb : s.overBound = none) (hv : s.overlap = none) (hd : s.decoding) :
    (∃ e, coreStep s = .next (raise .decStart e s) ∧
      (e = .optionsRequired ∨ e = .emptyInput ∨ e = .unexpectedEof))
    ∨ ∃ t bs, s.streamBytes = t :: bs ∧ (s.phase = .decFirst → s.olset = true) ∧
        coreStep s = exec (tokenOf s.context t bs).1 (afterToken (tokenOf s.context t bs).2 s) := by
  have htok : ∀ o, (tokenFetch s).outcome = o →
      (∃ e, o = .next (raise .decStart e s) ∧ (e = .optionsRequired ∨ e = .emptyInput ∨ e = .unexpectedEof))
      ∨ ∃ t bs, s.streamBytes = t :: bs ∧
        o = exec (tokenOf s.context t bs).1 (afterToken (tokenOf s.context t bs).2 s) := by
    intro o h
    unfold tokenFetch at h
    cases hs : s.streamBytes with
    | nil => simp [hs, decodeToken, Fetched.outcome] at h; exact .inl ⟨_, h.symm, by simp⟩
    | cons t bs => simp only [hs, decodeToken, Fetched.outcome] at h; exact .inr ⟨t, bs, rfl, h.symm⟩
  rw [coreStep_phase hb hv]
  rcases hd with h | h
  · simp only [phaseFetch, h, firstFetch]
    split
    · exact .inl ⟨_, rfl, by simp⟩
    · split
      · exact .inl ⟨_, rfl, by simp⟩
      · rename_i ho _
        rcases htok _ rfl with h' | ⟨t, bs, h1, h2⟩
        · exact .inl h'
        · exact .inr ⟨t, bs, h1, fun _ => by simpa using ho, h2⟩
  · simp only [phaseFetch, h]
    rcases htok _ rfl with h' | ⟨t, bs, h1, h2⟩
    · exact .inl h'
    · exact .inr ⟨t, bs, h1, (by simp), h2⟩

/-- The errors that a decode ends in (60_exceptions.md R200). -/
def ErrCode.ofDecode (e : ErrCode) : Prop :=
  e = .optionsRequired ∨ e = .emptyInput ∨ e = .unexpectedEof ∨ e = .inputOverrun ∨ e = .outputOverrun
    ∨ e = .lookbehindUnderrun

/-- What a decoder step answers: the error end, the success end, or the state after a literal run or a match whose bytes
all stand in the stream. -/
inductive DecoderStep (s : State) : State → Prop where
  | failed (e : ErrCode) (he : ErrCode.ofDecode e) : DecoderStep s (raise .decStart e s)
  | done (n : Nat) (h1 : 1 ≤ n) (hn : s.inPos.toNat + n ≤ s.inLen.toNat) : DecoderStep s (finish (afterToken n s))
  | literals (n k : Nat) (d : BitVec 3) (h1 : 1 ≤ n) (hn : s.inPos.toNat + n ≤ s.inLen.toNat)
      (hd : d.toNat ≤ 4) (ho : s.outPos.toNat + k ≤ s.outLen.toNat)
      (hi : s.inPos.toNat + n + k ≤ s.inLen.toNat) (hf : s.phase = .decFirst → s.olset = true) :
      DecoderStep s (afterLiterals k d (afterToken n s))
  | matched (n len dist : Nat) (k : BitVec 2) (h1 : 1 ≤ n) (hn : s.inPos.toNat + n ≤ s.inLen.toNat)
      (hd : 1 ≤ dist) (hp : dist ≤ s.outPos.toNat) (ho : s.outPos.toNat + len + k.toNat ≤ s.outLen.toNat)
      (hi : s.inPos.toNat + n + k.toNat ≤ s.inLen.toNat) (hf : s.phase = .decFirst → s.olset = true) :
      DecoderStep s (afterMatch dist len k (afterToken n s))

theorem literalOperands_dstate {i : Instr} {n : Nat} {d : BitVec 3} (h : literalOperands i = some (n, d)) :
    d.toNat ≤ 4 := by
  have hi : ∀ n, (initDstate n).toNat ≤ 4 := by
    intro n; rw [initDstate, BitVec.toNat_ofNat, Nat.mod_eq_of_lt (by omega)]; omega
  cases i with
  | initLit x => cases h; exact hi _
  | lit l => cases h; decide
  | litX x => cases x <;> cases h; decide
  | _ => cases h

/-- The error end of a token is that of the state before it: the cleared `IN_POS` and `PHASE` are all that differ. -/
theorem raise_afterToken (e : ErrCode) (n : Nat) (s : State) :
    raise .decStart e (afterToken n s) = raise .decStart e s := rfl

/-- A decoder step always answers a next state, one of those of `DecoderStep`. -/
theorem decoder_step {s : State} (hb : s.overBound = none) (hv : s.overlap = none) (hd : s.decoding) :
    ∃ t, coreStep s = .next t ∧ DecoderStep s t := by
  rcases coreStep_decoding hb hv hd with ⟨e, he, h⟩ | ⟨b, bs, hs, hf, he⟩
  · exact ⟨_, he, .failed e (by unfold ErrCode.ofDecode; tauto)⟩
  · obtain ⟨htok, h1, hsize, herr⟩ := tokenOf_fits s.context b bs
    have hl : s.inLen.toNat - s.inPos.toNat = bs.length + 1 := by rw [← streamBytes_length, hs]; rfl
    rw [he]
    generalize hi : (tokenOf s.context b bs).1 = i at *
    generalize hn : (tokenOf s.context b bs).2 = n at *
    have hfail : ∀ e, readError i = some e → ∃ t, exec i (afterToken n s) = .next t ∧ DecoderStep s t := fun e h =>
      ⟨_, exec_readError h _, raise_afterToken e n s ▸ .failed e (by
        have := herr e h; unfold ErrCode.ofDecode; tauto)⟩
    rcases hsize with hsize | ⟨e, h⟩
    · have hle : s.inPos.toNat + n ≤ s.inLen.toNat := by omega
      have hw : (afterToken n s).inPos.toNat = s.inPos.toNat + n := word_toNat_of_le hle
      obtain ⟨run, hrun, hex⟩ := exec_token htok
      rw [hex]
      cases hrun with
      | literal k d hk =>
        cases hr : execLiterals k d (afterToken n s) with
        | error e =>
          refine ⟨_, rfl, raise_afterToken e n s ▸ .failed e ?_⟩
          have := execLiterals_error_iff.1 hr
          unfold ErrCode.ofDecode; tauto
        | ok t =>
          obtain ⟨g1, g2, rfl⟩ := execLiterals_ok_iff.1 hr
          rw [hw] at g2
          exact ⟨_, rfl, .literals n k d h1 hle (literalOperands_dstate hk) g1 g2 hf⟩
      | matched len dist k hk =>
        cases hr : execMatch dist len k (afterToken n s) with
        | error e =>
          refine ⟨_, rfl, raise_afterToken e n s ▸ .failed e ?_⟩
          have := execMatch_error_iff.1 hr
          unfold ErrCode.ofDecode; tauto
        | ok t =>
          obtain ⟨g1, g2, g3, g4, rfl⟩ := execMatch_ok_iff.1 hr
          rw [hw] at g4
          exact ⟨_, rfl, .matched n len dist k h1 hle g1 g2 g3 g4 hf⟩
      | done => exact ⟨_, rfl, .done n h1 hle⟩
      | failed e h =>
        rcases h with h | rfl
        · rw [← hex]; exact hfail e h
        · exact ⟨_, rfl, raise_afterToken _ n s ▸ .failed _ (by unfold ErrCode.ofDecode; tauto)⟩
    · exact hfail e h

theorem decoder_step_next {s t : State} (hd : s.decoding) (h : coreStep s = .next t) : DecoderStep s t := by
  obtain ⟨hb, hv⟩ := coreStep_next_duties h
  obtain ⟨t', h', hs⟩ := decoder_step hb hv hd
  rw [h] at h'; cases h'; exact hs

/-- The core step of every other command. -/
theorem coreStep_command {s : State} (hb : s.overBound = none) (hv : s.overlap = none) :
    (s.phase = .idle → coreStep s = .next s)
    ∧ (s.phase = .brcRun → coreStep s = .next (runBrcCopy s))
    ∧ (s.phase = .encLitRun → coreStep s = .next (runEncLit s))
    ∧ (s.phase = .encMatchRun → coreStep s = .next (runEncMatch s))
    ∧ (s.phase = .encTermRun → coreStep s = .next (runEncTerm s))
    ∧ (s.phase = .encQueryRun → coreStep s = .next (runEncQuery s)) := by
  rw [coreStep_phase hb hv]
  refine ⟨fun h => ?_, fun h => ?_, fun h => ?_, fun h => ?_, fun h => ?_, fun h => ?_⟩ <;>
    simp only [phaseFetch, h, Fetched.outcome] <;> exact commandStep_run h

/-! ### The host's steps -/

/-- A host write runs the command it starts, or only writes. -/
theorem step_write {s : State} {addr width : Nat} {x : Word} {r : List HostAction}
    (h : s.host = .write addr width x :: r) :
    step s = match hostCommand addr width x { s with host := r } with
      | some i => exec i { s with host := r }
      | none => .next (hostWrite addr width x { s with host := r }) := by
  rw [step_eq]; simp only [fetch, h, hostFetch]
  cases hostCommand addr width x { s with host := r } <;> rfl

theorem step_hostRead {s : State} {addr width : Nat} {r : List HostAction} (h : s.host = .read addr width :: r) :
    step s = .next (hostRead addr width { s with host := r }) := by rw [step_eq, fetch, h]; rfl

theorem step_bufWrite {s : State} {b : Buffer} {off : Nat} {x : Byte} {r : List HostAction}
    (h : s.host = .bufWrite b off x :: r) : step s = hostBufWrite b off x { s with host := r } := by
  rw [step_eq, fetch, h]; rfl

theorem step_bufRead {s : State} {b : Buffer} {off : Nat} {r : List HostAction} (h : s.host = .bufRead b off :: r) :
    step s = hostBufRead b off { s with host := r } := by rw [step_eq, fetch, h]; rfl

theorem step_attach {s : State} {b : Buffer} {w : Window} {r : List HostAction} (h : s.host = .attach b w :: r) :
    step s = hostAttach b w { s with host := r } := by rw [step_eq, fetch, h]; rfl

theorem step_reset {s : State} {r : List HostAction} (h : s.host = .reset :: r) :
    step s = .next (resetCore { s with host := r }) := by rw [step_eq, fetch, h]; rfl

theorem blockOffset_add (s : State) {off : Nat} (h : off < 256) :
    s.blockOffset (s.platform.regBase + off) = some off := by simp [State.blockOffset, h]

theorem blockOffset_eq_some {s : State} {addr off : Nat} (h : s.blockOffset addr = some off) :
    addr = s.platform.regBase + off ∧ off < 256 := by
  unfold State.blockOffset at h; split at h
  · cases h; omega
  · cases h

/-- A started command came from a 32-bit write of a defined `OP` to `CMD` of an idle core. -/
theorem hostCommand_eq_some {addr width : Nat} {x : Word} {s : State} {i : Instr}
    (h : hostCommand addr width x s = some i) :
    s.phase = .idle ∧ addr = s.platform.regBase ∧ width = 32 ∧ decodeCommand x = .ok i ∧ i.isToken = false := by
  unfold hostCommand at h
  split at h
  · cases h
  rename_i hb
  split at h
  · cases h
  rename_i off ho
  split at h
  · rename_i hs
    split at h
    · rename_i hd
      cases h
      unfold selectReg at hs
      split at hs
      · rename_i hw
        have h0 : off = 0 := by unfold Reg.at? at hs; split at hs <;> cases hs; rfl
        obtain ⟨ha, -⟩ := blockOffset_eq_some ho
        refine ⟨by simpa [State.busy] using hb, by omega, hw.1, hd, ?_⟩
        unfold decodeCommand at hd; split at hd <;> cases hd <;> rfl
      · cases hs
    · cases h
  · cases h

/-- On an idle core a command is accepted. -/
theorem exec_command_idle {i : Instr} {s : State} (h : i.isToken = false) (hi : s.phase = .idle) :
    ∃ c, exec i s = .next (accept c s) := by
  cases i <;> first | exact ⟨_, commandStep_idle hi⟩ | cases h

theorem clampTo_toNat {bound : Nat} (h : bound < 2 ^ 32) (x : Word) : (clampTo bound x).toNat = min x.toNat bound :=
  word_toNat (by omega)

/-! ### What the core steps of the commands answer -/

theorem runBrcCopy_cases (s : State) :
    (∃ e, (e = .lookbehindUnderrun ∨ e = .outputOverrun) ∧ runBrcCopy s = raise .brcCopy e s)
    ∨ (s.brcPos.toNat + s.brcLen.toNat ≤ s.outLen.toNat ∧ runBrcCopy s = finish { s with
      mem := Memory.copyBack s.unlisted s.mem (s.addr .dst s.brcPos.toNat) s.brcDist.toNat s.brcLen.toNat }) := by
  unfold runBrcCopy
  cases h : backRefCopy s.brcPos.toNat s.brcDist.toNat s.brcLen.toNat s with
  | error e =>
    refine .inl ⟨e, ?_, rfl⟩
    rcases backRefCopy_error_iff.1 h with h | h
    · exact .inl h.2
    · exact .inr h.2.2
  | ok m =>
    obtain ⟨-, -, h3, rfl⟩ := backRefCopy_ok_iff.1 h
    exact .inr ⟨h3, rfl⟩

/-- A successful append of an encoder command. -/
def appended (last : EncLast) (m : Memory) (bs : List Byte) (s : State) : State :=
  finish { s with
    mem := m.store (s.addr .eout s.eoutPos.toNat) bs, eoutPos := word (s.eoutPos.toNat + bs.length), encLast := last }

theorem runEncLit_cases (s : State) :
    runEncLit s = finish s
    ∨ (∃ e, (e = .compressInternal ∨ e = .outputOverrun) ∧ runEncLit s = raise .encLit e s)
    ∨ (∃ bs, s.eoutPos.toNat + bs.length ≤ s.eoutCap.toNat ∧ runEncLit s = appended .literal s.mem bs s)
    ∨ (s.encLast = .matched ∧ s.encLlen.toNat ≤ 3 ∧ s.eoutPos.toNat + (runLiterals s).length ≤ s.eoutCap.toNat ∧
      runEncLit s = appended .literal (orTrailing s.encLlen.toNat s) (runLiterals s) s) := by
  unfold runEncLit
  split
  · exact .inl rfl
  · split
    · exact .inr (.inl ⟨_, .inl rfl, rfl⟩)
    · split
      · exact .inr (.inl ⟨_, .inl rfl, rfl⟩)
      · cases hf : litForm s.eoutPos.toNat s.encLlen.toNat with
        | header bytes =>
          rcases appendStream_cases .encLit .literal s.mem (bytes ++ runLiterals s) s with ⟨-, h⟩ | ⟨h1, h⟩
          · exact .inr (.inl ⟨_, .inr rfl, h⟩)
          · exact .inr (.inr (.inl ⟨_, h1, h⟩))
        | orInto =>
          simp only
          split
          · exact .inr (.inl ⟨_, .inl rfl, rfl⟩)
          · rename_i hm
            rcases appendStream_cases .encLit .literal (orTrailing s.encLlen.toNat s) (runLiterals s) s
              with ⟨-, h⟩ | ⟨h1, h⟩
            · exact .inr (.inl ⟨_, .inr rfl, h⟩)
            · exact .inr (.inr (.inr ⟨by simpa using hm, (litForm_orInto.1 hf).2, h1, h⟩))

theorem matchBytes_length (c : MatchClass) (len dist : Nat) : 2 ≤ (matchBytes c len dist).length := by
  cases c <;> simp [matchBytes, shortBytes, wordBytes, zextBytes_length]

theorem runEncMatch_cases (s : State) :
    (∃ e, (e = .compressInternal ∨ e = .outputOverrun) ∧ runEncMatch s = raise .encMatch e s)
    ∨ ∃ bs, 2 ≤ bs.length ∧ s.eoutPos.toNat + bs.length ≤ s.eoutCap.toNat ∧
      runEncMatch s = appended .matched s.mem bs s := by
  unfold runEncMatch
  split
  · exact .inl ⟨_, .inl rfl, rfl⟩
  · split
    · exact .inl ⟨_, .inl rfl, rfl⟩
    · rename_i c _
      rcases appendStream_cases .encMatch .matched s.mem (matchBytes c s.encMlen.toNat s.encMdist.toNat) s
        with ⟨-, h⟩ | ⟨h1, h⟩
      · exact .inl ⟨_, .inr rfl, h⟩
      · exact .inr ⟨_, matchBytes_length .., h1, h⟩

theorem runEncTerm_cases (s : State) :
    (∃ e, (e = .compressInternal ∨ e = .outputOverrun) ∧ runEncTerm s = raise .encTerm e s)
    ∨ (s.eoutPos.toNat + termBytes.length ≤ s.eoutCap.toNat ∧
      runEncTerm s = appended .terminated s.mem termBytes s) := by
  unfold runEncTerm
  split
  · exact .inl ⟨_, .inl rfl, rfl⟩
  · rcases appendStream_cases .encTerm .terminated s.mem termBytes s with ⟨-, h⟩ | ⟨h1, h⟩
    · exact .inl ⟨_, .inr rfl, h⟩
    · exact .inr ⟨h1, h⟩

end Sys2Proof.Machine
end

