-- ==== Sys2Proof/Tests/Slice0.lean ====
section
/-! SUPPORT. The model's own tests: ill-formed terms that WellFormed refuses, words written out from the formats, single
steps from 95_test_vectors.md, and a witness for the hypotheses of every statement. -/

namespace Sys2Proof.Tests

open Sys2Proof Sys2Proof.Machine

/-! ### WellFormed refuses (30_encoding.md R84 to R92, R97) -/

theorem test_wf_initLit_zero : (Instr.initLit 0).WellFormed = false := by decide
theorem test_wf_initLit_239 : (Instr.initLit 239).WellFormed = false := by decide
theorem test_wf_lit_zero : (Instr.lit 0).WellFormed = false := by decide
theorem test_wf_litX_zero_byte : (Instr.litX (.got ⟨1, 0⟩)).WellFormed = false := by decide
theorem test_wf_litX_cap : (Instr.litX (.got ⟨8421503, 1⟩)).WellFormed = false := by decide
theorem test_wf_litX_cap_itself : (Instr.litX (.got ⟨8421502, 1⟩)).WellFormed = true := by decide
theorem test_wf_litX_missing : (Instr.litX (.failed .inputOverrun)).WellFormed = false := by decide
theorem test_wf_m1_missing : (Instr.m1 0 0 (.failed .inputOverrun)).WellFormed = false := by decide
theorem test_wf_m1b_missing : (Instr.m1b 0 0 (.failed .inputOverrun)).WellFormed = false := by decide
theorem test_wf_m2_short : (Instr.m2 1 0 0 (.got 0)).WellFormed = false := by decide
theorem test_wf_m2_missing : (Instr.m2 2 0 0 (.failed .inputOverrun)).WellFormed = false := by decide
theorem test_wf_m3_zero : (Instr.m3 0 (.got 0)).WellFormed = false := by decide
theorem test_wf_m3_missing : (Instr.m3 1 (.failed .inputOverrun)).WellFormed = false := by decide
theorem test_wf_m3X_zero_byte : (Instr.m3X (.got ⟨0, 0⟩) (.got 0)).WellFormed = false := by decide
theorem test_wf_m3X_missing : (Instr.m3X (.got ⟨0, 1⟩) (.failed .inputOverrun)).WellFormed = false := by decide
theorem test_wf_m4_zero : (Instr.m4 0 0 (.got 4)).WellFormed = false := by decide
theorem test_wf_m4_terminator : (Instr.m4 0 1 (.got 3)).WellFormed = false := by decide
theorem test_wf_m4_missing : (Instr.m4 1 1 (.failed .inputOverrun)).WellFormed = false := by decide
theorem test_wf_m4X_zero_byte : (Instr.m4X 0 (.got ⟨2, 0⟩) (.got 4)).WellFormed = false := by decide
theorem test_wf_m4X_missing : (Instr.m4X 0 (.failed .outputOverrun) (.got 4)).WellFormed = false := by decide

/-! ### Words written out from the formats -/

/-- R91: byte0 = 17 + n; 0xFF is n = 238. -/
theorem test_decode_initLit : decodeToken .first [0b11111111] = .ok (.initLit 238, 1) := by decide
/-- R90: `0000LLLL`, len = 18. -/
theorem test_decode_lit : decodeToken .state0 [0b00001111] = .ok (.lit 15, 1) := by decide
/-- R90, R92: `00000000`, no zero byte, `b` = 1; DV12. -/
theorem test_decode_litX : decodeToken .first [0b00000000, 0b00000001] = .ok (.litX (.got ⟨0, 1⟩), 2) := by decide
/-- R84: `0000DDSS NNNNNNNN`, D = 1, S = 2. -/
theorem test_decode_m1 : decodeToken .state123 [0b00000110, 0b10000001] = .ok (.m1 1 2 (.got 0x81), 2) := by decide
/-- R85: the same layout in state 4. -/
theorem test_decode_m1b : decodeToken .state4 [0b00000110, 0b10000001] = .ok (.m1b 1 2 (.got 0x81), 2) := by decide
/-- R86: `LLLDDDSS NNNNNNNN`, L = 7, D = 2, S = 1. -/
theorem test_decode_m2 : decodeToken .state4 [0b11101001, 0b00000011] = .ok (.m2 7 2 1 (.got 3), 2) := by decide
/-- R87: `001LLLLL`, L = 10, v = 0x0010; P1's `2A 10 00`. -/
theorem test_decode_m3 : decodeToken .state123 [0b00101010, 0b00010000, 0] = .ok (.m3 10 (.got 0x0010), 3) := by decide
/-- R87, R92: S1's `20 00 DF 00 00`, k = 1, b = 0xDF. -/
theorem test_decode_m3X : decodeToken .state123 [0b00100000, 0, 0xDF, 0, 0] = .ok (.m3X (.got ⟨1, 0xDF⟩) (.got 0), 5) := by
  decide
/-- R88: `0001HLLL`, H = 1, L = 7, v = 0xFFFC; EV19's `1F FC FF`. -/
theorem test_decode_m4 : decodeToken .state0 [0b00011111, 0b11111100, 0xFF] = .ok (.m4 1 7 (.got 0xFFFC), 3) := by decide
/-- R88, R92: EV24's `10 00 24 80 38`. -/
theorem test_decode_m4X :
    decodeToken .state0 [0b00010000, 0, 0x24, 0x80, 0x38] = .ok (.m4X 0 (.got ⟨1, 0x24⟩) (.got 0x3880), 5) := by decide
/-- R89: `00010001 000000xx 00000000`, lo = 2. -/
theorem test_decode_term : decodeToken .state4 [0b00010001, 0b00000010, 0] = .ok (.term 2, 3) := by decide
/-- R89: a `hi` that is not 0 makes it an M4. -/
theorem test_decode_not_term : decodeToken .first [0x11, 0x00, 0x01] = .ok (.m4 0 1 (.got 0x0100), 3) := by decide
/-- R123: no byte is left where an opcode is due. -/
theorem test_decode_nothing : decodeToken .state0 [] = .reject .noOpcode := by decide
/-- R103: the six commands, whatever bits[31:4] are, and a reserved `OP`. -/
theorem test_decode_decStart : decodeCommand 0xFFFFFFF1 = .ok .decStart := by decide
theorem test_decode_brcCopy : decodeCommand 0b0010 = .ok .brcCopy := by decide
theorem test_decode_encLit : decodeCommand 0b0011 = .ok .encLit := by decide
theorem test_decode_encMatch : decodeCommand 0b0100 = .ok .encMatch := by decide
theorem test_decode_encTerm : decodeCommand 0b0101 = .ok .encTerm := by decide
theorem test_decode_encQuery : decodeCommand 0b0110 = .ok .encQuery := by decide
theorem test_decode_reserved : decodeCommand 0xFFFFFFF7 = .reject .reservedCommand := by decide

/-- The zero-run cap taken as 2 (ZV1's and ZV3's zero runs). -/
theorem test_zext_at_cap : readZext 2 0 [0, 0, 1] = .got ⟨2, 1⟩ := by decide
theorem test_zext_past_cap : readZext 2 0 [0, 0, 0] = .failed .outputOverrun := by decide
theorem test_zext_off_input : readZext 2 0 [0, 0] = .failed .inputOverrun := by decide

/-! ### Single steps -/

/-- What a step answers, if it is a next state. -/
def result : Host.Outcome State Fault Refusal → Option State
  | .next s => some s
  | .fault _ | .refused _ => none

/-- The memory of the reset platform with some bytes at the start of a buffer. -/
def holding (m : Memory) (b : Buffer) (bytes : List Byte) : Memory := m.store (State.reset.addr b 0) bytes

/-- A decode at work: the bytes of the stream, the bytes decoded so far, the state, and where the decoder stands. -/
def decoding (bytes out : List Byte) (inPos : Nat) (dstate : BitVec 3) (outLen : Nat) : State :=
  { State.reset with
    phase := if inPos = 0 then .decFirst else .decLoop, olset := true, inLen := word bytes.length
    outLen := word outLen, inPos := word inPos, outPos := word out.length, dstate := dstate
    mem := holding (holding [] .src bytes) .dst out }

/-- Where a decode stands, and what it has written. -/
def decoded (s : State) : Nat × Nat × BitVec 3 × List Byte :=
  (s.inPos.toNat, s.outPos.toNat, s.dstate, bytesFrom (s.byteAt .dst) 0 s.outPos.toNat)

/-- DV6's first token. -/
theorem test_step_initLit : (result (step (decoding [0x13, 0x41, 0x42, 0x11, 0, 0] [] 0 0 10))).map decoded
    = some (3, 2, 2, [0x41, 0x42]) := by decide
/-- DV36: the literal is missing. -/
theorem test_step_initLit_missing : (result (step (decoding [0x13, 0x41] [] 0 0 10))).map statusWord
    = some 0x0000030C := by decide
/-- P1 step 3. -/
theorem test_step_lit :
    (result (step (decoding [0x12, 0x41, 0, 0, 0x02, 0x61, 0x62, 0x63, 0x64, 0x65] [0x41, 0x41, 0x41] 4 0 64))).map decoded
    = some (10, 8, 4, [0x41, 0x41, 0x41, 0x61, 0x62, 0x63, 0x64, 0x65]) := by decide
/-- DV46: the zero-extension runs off the input. -/
theorem test_step_litX_off_input : (result (step (decoding [0, 0, 0] [] 0 0 10))).map statusWord
    = some 0x0000030C := by decide
/-- DV12's LIT_X of 19 bytes, cut short: the run does not fit an output of 18. -/
theorem test_step_litX_output : (result (step (decoding [0, 1] [] 0 0 18))).map statusWord = some 0x0000040C := by decide
/-- DV16's M1. -/
theorem test_step_m1 : (result (step (decoding [0x13, 0x41, 0x42, 0x05, 0, 0x5A] [0x41, 0x42] 3 2 10))).map decoded
    = some (6, 5, 1, [0x41, 0x42, 0x41, 0x42, 0x5A]) := by decide
/-- DV18: distance 2 past the one byte of output. -/
theorem test_step_m1_lookbehind : (result (step (decoding [0x12, 0x41, 0x04, 0] [0x41] 2 1 10))).map statusWord
    = some 0x0000050C := by decide
/-- DV27: M1B reaches too far. -/
theorem test_step_m1b_lookbehind :
    (result (step (decoding [0x15, 0x41, 0x42, 0x43, 0x44, 0, 0] [0x41, 0x42, 0x43, 0x44] 5 4 4096))).map statusWord
    = some 0x0000050C := by decide
/-- DV21's M2 with three trailing literals. -/
theorem test_step_m2 :
    (result (step (decoding [0x13, 0x41, 0x42, 0x43, 0, 0x58, 0x59, 0x5A] [0x41, 0x42] 3 2 16))).map decoded
    = some (8, 8, 3, [0x41, 0x42, 0x42, 0x42, 0x42, 0x58, 0x59, 0x5A]) := by decide
/-- DV38: M2 without its second byte. -/
theorem test_step_m2_missing : (result (step (decoding [0x12, 0x41, 0x44] [0x41] 2 1 10))).map statusWord
    = some 0x0000030C := by decide
/-- P2's M3 with two trailing literals: distance 3, length 9. -/
theorem test_step_m3 :
    (result (step (decoding [0x14, 0x41, 0x42, 0x43, 0x27, 0x0A, 0, 0x58, 0x59] [0x41, 0x42, 0x43] 4 3 64))).map decoded
    = some (9, 14, 2,
      [0x41, 0x42, 0x43, 0x41, 0x42, 0x43, 0x41, 0x42, 0x43, 0x41, 0x42, 0x43, 0x58, 0x59]) := by decide
/-- DV41: the trailing literal does not fit. -/
theorem test_step_m3_output : (result (step (decoding [0x12, 0x41, 0x21, 1, 0, 0x5A] [0x41] 2 1 4))).map statusWord
    = some 0x0000040C := by decide
/-- DV24's M3_X: 34 bytes at distance 1. -/
theorem test_step_m3X : (result (step (decoding [0x12, 0x41, 0x20, 1, 0, 0] [0x41] 2 1 64))).map decoded
    = some (6, 35, 0, List.replicate 35 0x41) := by decide
/-- DV30: M4 with H = 1 and v = 0 is a match at distance 32768. -/
theorem test_step_m4_lookbehind : (result (step (decoding [0x12, 0x41, 0x19, 0, 0] [0x41] 2 1 10))).map statusWord
    = some 0x0000050C := by decide
/-- DV32: a malformed terminator of length 4. -/
theorem test_step_m4_malformed : (result (step (decoding [0x12, 0x41, 0x12, 0, 0] [0x41] 2 1 10))).map statusWord
    = some 0x0000030C := by decide
/-- DV34: a malformed terminator of length 10, as the first token. -/
theorem test_step_m4X_malformed : (result (step (decoding [0x10, 1, 0, 0] [] 0 0 10))).map statusWord
    = some 0x0000030C := by decide
/-- DV31: the terminator `11 03 00`. -/
theorem test_step_term : (result (step (decoding [0x12, 0x41, 0x11, 3, 0] [0x41] 2 1 10))).map
    (fun t => (statusWord t, decoded t)) = some (0x0001000A, 5, 1, 1, [0x41]) := by decide
/-- DV5: nothing left where an opcode is due. -/
theorem test_step_eof : (result (step (decoding [0x13, 0x41, 0x42] [0x41, 0x42] 3 2 10))).map statusWord
    = some 0x0000060C := by decide
/-- DV3: no input. -/
theorem test_step_empty : (result (step (decoding [] [] 0 0 10))).map statusWord = some 0x0000010C := by decide
/-- DV4: `OUT_LEN` never written. -/
theorem test_step_options : (result (step { decoding [0x11, 0, 0] [] 0 0 0 with olset := false })).map statusWord
    = some 0x00000204 := by decide

/-- A host action on an idle core. -/
def host (a : HostAction) : State := { State.reset with host := [a] }

/-- R23: DEC_START is accepted. -/
theorem test_step_decStart : (result (step (host (.write 0 32 0xFFFFFFF1)))).map (fun t => (t.phase, statusWord t))
    = some (.decFirst, 1) := by decide

/-- A copy at work on `XYZ` (95_test_vectors.md section 2). -/
def copying (p d l : Nat) : State :=
  { State.reset with
    phase := .brcRun, olset := true, outLen := 8, brcPos := word p, brcDist := word d, brcLen := word l
    mem := holding [] .dst [0x58, 0x59, 0x5A, 0, 0, 0, 0, 0] }

/-- BV12. -/
theorem test_step_brcCopy : (result (step (copying 2 2 6))).map
    (fun t => (statusWord t, bytesFrom (t.byteAt .dst) 0 8))
    = some (0x0000000A, [0x58, 0x59, 0x58, 0x59, 0x58, 0x59, 0x58, 0x59]) := by decide
/-- BV9: both checks fail, lookbehind first. -/
theorem test_step_brcCopy_fails : (result (step (copying 3 4 9))).map statusWord = some 0x0000050C := by decide

/-- An encoder at work: the phase, the stream so far, its last kind, the capacity. -/
def encoding (phase : Phase) (stream : List Byte) (last : EncLast) (cap : Nat) : State :=
  { State.reset with
    phase := phase, esrcLen := 6, eoutCap := word cap, eoutPos := word stream.length, encLast := last
    mem := holding (holding [] .esrc [0x41, 0x42, 0x43, 0x44, 0x45, 0x46]) .eout stream }

/-- What an encoder command left: `STATUS` and the stream. -/
def encoded (s : State) : Word × List Byte := (statusWord s, bytesFrom (s.byteAt .eout) 0 s.eoutPos.toNat)

/-- ES6's third command: one literal OR-ed into the M2 before it. -/
theorem test_step_encLit_or :
    (result (step { encoding .encLitRun [0x13, 0x41, 0x42, 0x44, 0] .matched 1000 with encLstart := 2, encLlen := 1 })).map
      encoded = some (0x00100002, [0x13, 0x41, 0x42, 0x45, 0, 0x43]) := by decide
/-- ES7: three bytes do not fit a capacity of two. -/
theorem test_step_encLit_fails :
    (result (step { encoding .encLitRun [] .none 2 with encLlen := 2 })).map encoded = some (0x00000404, []) := by decide
/-- ES18's last match. -/
theorem test_step_encMatch :
    (result (step { encoding .encMatchRun [0x13, 0x41, 0x42, 0x44, 0] .matched 1000 with encMlen := 3, encMdist := 2 })).map
      encoded = some (0x00200002, [0x13, 0x41, 0x42, 0x44, 0, 0x44, 0]) := by decide
/-- ES3: a match with nothing before it. -/
theorem test_step_encMatch_fails :
    (result (step { encoding .encMatchRun [] .none 1000 with encMlen := 3, encMdist := 1 })).map encoded
      = some (0x00000804, []) := by decide
/-- ES15. -/
theorem test_step_encTerm : (result (step (encoding .encTermRun [] .none 1000))).map encoded
    = some (0x00300002, [0x11, 0, 0]) := by decide
/-- ES16: three bytes do not fit. -/
theorem test_step_encTerm_fails : (result (step (encoding .encTermRun [0x13, 0x41, 0x42] .literal 5))).map encoded
    = some (0x00100404, [0x13, 0x41, 0x42]) := by decide
/-- ES17: the query ignores `ENC_LAST`. -/
theorem test_step_encQuery :
    (result (step { encoding .encQueryRun [0x11, 0, 0] .terminated 3 with encMlen := 289, encMdist := 1 })).map
      (fun t => (t.encQlen, statusWord t)) = some (5, 0x00300002) := by decide

/-! ### Serialization (95_test_vectors.md sections 4.1 to 4.3) -/

theorem test_zextBytes : [1, 255, 256, 510, 511, 765].map zextBytes
    = [[0x01], [0xFF], [0x00, 0x01], [0x00, 0xFF], [0x00, 0x00, 0x01], [0x00, 0x00, 0xFF]] := by decide

/-- The bytes of a match, none where it is not encodable. -/
def bytesOf (len dist plit : Nat) : Option (List Byte) := (classify len dist plit).map fun c => matchBytes c len dist

/-- EV2, EV5, EV7, EV8, EV11, EV12. -/
theorem test_classify_near : [bytesOf 2 1024 3, bytesOf 2 5 4, bytesOf 8 2048 0, bytesOf 9 2048 0, bytesOf 3 3072 4,
    bytesOf 3 3073 4] = [some [0x0C, 0xFF], none, some [0xFC, 0xFF], some [0x27, 0xFC, 0x1F], some [0x0C, 0xFF],
    some [0x21, 0x00, 0x30]] := by decide
/-- EV17, EV18, EV19, EV20, EV24, EV25. -/
theorem test_classify_far : [bytesOf 289 1 0, bytesOf 3 16385 0, bytesOf 9 49151 0, bytesOf 3 32768 0, bytesOf 300 20000 0,
    bytesOf 3 49152 0] = [some [0x20, 0x00, 0x01, 0x00, 0x00], some [0x11, 0x04, 0x00], some [0x1F, 0xFC, 0xFF],
    some [0x19, 0x00, 0x00], some [0x10, 0x00, 0x24, 0x80, 0x38], none] := by decide
/-- Section 4.2: the headers of 238 and 239 literals at the start, and of 3, 4 and 19 after a match. -/
theorem test_litForm : [litForm 0 238, litForm 0 239, litForm 7 3, litForm 7 4, litForm 7 19]
    = [.header [0xFF], .header [0x00, 0xDD], .orInto, .header [0x01], .header [0x00, 0x01]] := by decide

/-! ### The host's side -/

/-- R24: `STATUS` after P2's decode. -/
theorem test_status : statusWord { State.reset with done := true, olset := true, dstate := 2, encLast := .terminated }
    = 0x0032000A := by decide
/-- R26, R7: `OUT_LEN` clamps to 255 · 8421502. -/
theorem test_outLen_clamps : (result (step (host (.write 0x0C 32 0xFFFFFFFF)))).map (fun t => (t.outLen, t.olset))
    = some (2147483010, true) := by decide
/-- R42: a 16-bit write does nothing. -/
theorem test_narrow_write : (result (step (host (.write 0x0C 16 5)))).map (fun t => (t.outLen, t.olset)) = some (0, false) := by
  decide
/-- R43: a write while busy is dropped. -/
theorem test_busy_write : (result (step { copying 3 3 5 with host := [.write 0x18 32 0] })).map (fun t => (t.brcPos, t.phase))
    = some (3, .brcRun) := by decide
/-- R230: reset clears a running decode. -/
theorem test_reset : (result (step { decoding [0x13, 0x41, 0x42] [0x41, 0x42] 3 2 10 with host := [.reset] })).map
    (fun t => (t.phase, statusWord t, t.inPos, t.inLen)) = some (.idle, 0, 0, 0) := by decide

/-- R233: two streams one after the other; `SRC` re-attached at the old offset plus `IN_POS` shows the second. -/
theorem test_attach : (result (step { decoding [0x11, 0, 0, 0x12, 0x41] [] 0 0 9 with
      phase := .idle, inPos := 3, host := [.attach .src ⟨3, 2⟩] })).map (fun t => bytesFrom (t.byteAt .src) 0 2)
    = some [0x12, 0x41] := by decide
/-- R72: `EOUT` and `SRC` may be one memory: ENC_TERM's bytes are seen through `SRC`. -/
theorem test_shared : (result (step { encoding .encTermRun [] .none 3 with
      platform := { Platform.default with src := Platform.default.eout } })).map (fun t => bytesFrom (t.byteAt .src) 0 3)
    = some [0x11, 0, 0] := by decide
/-- R72, U4: `ESRC` and `EOUT` may not. -/
theorem test_overlap : step { encoding .encLitRun [] .none 9 with
      encLlen := 2, platform := { Platform.default with esrc := Platform.default.eout } }
    = .refused (.buffersOverlap .esrc .eout) := by rfl

/-! ### The table's words run as the first instruction after reset -/

theorem test_table_words :
    ([0x12, 0x40, 0x21, 0x11, 0x10, 0x00, 0x01, 0x06].map fun w => (decodeTableWord 8 w).map Instr.mnemonic)
      = [some "INIT_LIT", some "M2", some "M3", some "TERM", some "M4_X", some "LIT_X", some "DEC_START",
        some "ENC_QUERY"] := by decide
theorem test_table_step : (result (step (State.reset.withFetchWord 8 0x11))).map (fun t => (t.phase, t.done))
    = some (.idle, true) := by decide
theorem test_table_step_command : (result (step (State.reset.withFetchWord 8 0x02))).map (fun t => t.phase)
    = some .brcRun := by decide

/-! ### Witnesses: the hypotheses of each statement hold together, clause by clause, at boundary values -/

theorem witness_TokenDecodesFromItsBytes :
    (∀ i ∈ [Instr.m4 0 1 (.got 4), .m4X 0 (.got ⟨8421502, 255⟩) (.got 0), .term 3, .litX (.got ⟨0, 1⟩)],
      i.WellFormed = true ∧ i.isToken = true ∧ i.fits .first = true)
    ∧ (∀ i ∈ [Instr.m1 3 3 (.got 0xFF), .m2 2 0 0 (.got 0), .m3 31 (.got 0xFFFF), .m3X (.got ⟨0, 1⟩) (.got 0)],
      i.WellFormed = true ∧ i.isToken = true ∧ i.fits .state123 = true)
    ∧ (Instr.m1b 0 0 (.got 0)).WellFormed = true ∧ (Instr.m1b 0 0 (.got 0)).fits .state4 = true
    ∧ (Instr.lit 1).WellFormed = true ∧ (Instr.lit 1).fits .state0 = true := by decide

theorem witness_OpcodeMapClasses :
    0x12 ≤ (0x12 : Byte).toNat ∧ 0x12 ≤ (0xFF : Byte).toNat ∧ (0 : Byte).toNat = 0 ∧ 0x01 ≤ (1 : Byte).toNat
    ∧ (0x0F : Byte).toNat ≤ 0x0F ∧ (0x10 : Byte).toNat = 0x10 ∧ (0x11 : Byte).toNat = 0x11
    ∧ readLE16 [3, 0] = .got 3 ∧ (3 : Half).toNat >>> 2 = 0 ∧ readLE16 [4, 0] = .got 4 ∧ (4 : Half).toNat >>> 2 ≠ 0
    ∧ Context.state0 ≠ .first ∧ 0x12 ≤ (0x1F : Byte).toNat ∧ (0x1F : Byte).toNat ≤ 0x1F ∧ (0x1F : Byte).toNat ≠ 0x18
    ∧ (0x18 : Byte).toNat = 0x18 ∧ (0x20 : Byte).toNat = 0x20 ∧ (0x3F : Byte).toNat ≤ 0x3F ∧ 0x40 ≤ (0x40 : Byte).toNat := by
  decide

theorem witness_LiteralFormats :
    0x12 ≤ (0x12 : Byte).toNat ∧ 1 ≤ (1 : Byte).toNat ∧ (0x0F : Byte).toNat ≤ 0x0F ∧ 8421502 ≤ Config.kMax
    ∧ (255 : Byte) ≠ 0 := by decide

theorem witness_ShortMatchFormats :
    (0 : Byte).toNat < 16 ∧ (15 : Byte).toNat < 16 ∧ Context.state4 ≠ .first ∧ 0x40 ≤ (0x40 : Byte).toNat
    ∧ 0x40 ≤ (0xFF : Byte).toNat := by decide

theorem witness_MediumMatchFormats :
    Context.state0 ≠ .first ∧ 0x21 ≤ (0x21 : Byte).toNat ∧ (0x3F : Byte).toNat ≤ 0x3F ∧ 8421502 ≤ Config.kMax
    ∧ (1 : Byte) ≠ 0 := by decide

theorem witness_LongMatchFormats :
    Context.state0 ≠ .first ∧ 0x10 ≤ (0x10 : Byte).toNat ∧ (0x1F : Byte).toNat ≤ 0x1F ∧ (0x19 : Byte).toNat &&& 7 ≠ 0
    ∧ (0x18 : Byte).toNat &&& 7 = 0 ∧ 0 ≤ Config.kMax ∧ (255 : Byte) ≠ 0
    ∧ (((0x11 : Byte).toNat &&& 8) <<< 11) + (((3 : Byte).toNat ||| ((0 : Byte).toNat <<< 8)) >>> 2) = 0
    ∧ (((0x19 : Byte).toNat &&& 8) <<< 11) + (((0 : Byte).toNat ||| ((0 : Byte).toNat <<< 8)) >>> 2) ≠ 0 := by decide

theorem witness_ZeroExtensionIsReadAndCapped :
    2 ≤ 2 ∧ (1 : Byte) ≠ 0 ∧ Config.kMax < 8421503 ∧ Context.state0 ≠ .first
    ∧ ∃ zeros, zeros = List.replicate (Config.kMax + 1) (0 : Byte) := ⟨by decide, by decide, by decide, by decide, _, rfl⟩

theorem witness_ZextBytesReadBack : 1 ≤ 256 ∧ (256 - 1) / 255 ≤ 1 := by decide

/-- One match of each class, at the edge of its range. -/
theorem witness_SerializedMatchDecodes :
    classify 2 1024 3 = some .m1 ∧ classify 3 3072 4 = some .m1b ∧ classify 8 2048 0 = some .m2
    ∧ classify 33 16384 0 = some .m3 ∧ classify 34 1 0 = some .m3X ∧ classify 9 49151 0 = some .m4
    ∧ classify 10 16385 0 = some .m4X ∧ (34 - 34) / 255 ≤ Config.kMax ∧ (10 - 10) / 255 ≤ Config.kMax := by decide

theorem witness_OredTrailingCountDecodes :
    classify 3 16385 0 = some .m4 ∧ Context.state0 ≠ .first ∧ 1 ≤ 1 ∧ 3 ≤ 3
    ∧ [0x11, 0x04, 0x00] = matchBytes .m4 3 16385 := by decide

theorem witness_LiteralHeaderDecodes :
    litForm 0 238 = .header [0xFF] ∧ litForm 0 239 = .header [0x00, 0xDD] ∧ litForm 5 4 = .header [0x01]
    ∧ litForm 5 18 = .header [0x0F] ∧ litForm 5 19 = .header [0x00, 0x01] ∧ (239 - 19) / 255 ≤ Config.kMax := by decide

theorem witness_CostIsLengthOfBytes :
    classify 3 49152 0 = none ∧ classify 2 1 1 = some .m1 ∧ classify 3 2049 4 = some .m1b ∧ classify 3 1 0 = some .m2
    ∧ classify 3 2049 3 = some .m3 ∧ classify 289 1 0 = some .m3X ∧ classify 3 16385 0 = some .m4
    ∧ classify 265 16385 0 = some .m4X := by decide

theorem witness_CopyIsPeriodicExpansion : ∃ m, backRefCopy 3 3 5 (copying 3 3 5) = .ok m := ⟨_, rfl⟩

/-- BV6 and BV5, BV8 and BV10, BV1: each check at its edge. -/
theorem witness_BrcCopyRuns :
    (copying 3 3 5).phase = .brcRun ∧ (copying 3 0 2).brcDist.toNat < 1
    ∧ (copying 3 4 5).brcPos.toNat < (copying 3 4 5).brcDist.toNat
    ∧ (copying 3 3 6).outLen.toNat < (copying 3 3 6).brcPos.toNat + (copying 3 3 6).brcLen.toNat
    ∧ (copying 3 3 6).brcDist.toNat ≤ (copying 3 3 6).brcPos.toNat
    ∧ 1 ≤ (copying 3 3 5).brcDist.toNat ∧ (copying 3 3 5).brcDist.toNat ≤ (copying 3 3 5).brcPos.toNat
    ∧ (copying 3 3 5).brcPos.toNat + (copying 3 3 5).brcLen.toNat ≤ (copying 3 3 5).outLen.toNat := by decide

/-- A decode with room for 4 bytes of output and of input, at an M1 of distance 2. -/
def room : State := decoding [0x12, 0x5A, 0x04, 0x00, 0x11, 0x00] [0x5A, 0x5A] 2 1 6

theorem witness_LiteralTokensComplete :
    literalOperands (.initLit 4) = some (4, 4) ∧ literalOperands (.lit 1) = some (4, 4)
    ∧ room.outPos.toNat + 4 ≤ room.outLen.toNat ∧ room.inPos.toNat + 4 ≤ room.inLen.toNat
    ∧ literalOperands (.litX (.got ⟨0, 1⟩)) = some (19, 4)
    ∧ ({ room with outPos := 0, outLen := 19, inLen := 21 } : State).outPos.toNat + 19 ≤
      ({ room with outPos := 0, outLen := 19, inLen := 21 } : State).outLen.toNat
    ∧ ({ room with outPos := 0, outLen := 19, inLen := 21 } : State).inPos.toNat + 19 ≤
      ({ room with outPos := 0, outLen := 19, inLen := 21 } : State).inLen.toNat := by decide +kernel

theorem witness_LiteralTokensFail :
    literalOperands (.lit 2) = some (5, 4) ∧ room.outLen.toNat < room.outPos.toNat + 5
    ∧ ({ room with outLen := 7 } : State).outPos.toNat + 5 ≤ ({ room with outLen := 7 } : State).outLen.toNat
    ∧ room.inLen.toNat < room.inPos.toNat + 5 := by decide

/-- Every class of match at the nearest distance it has, on an output that holds it. -/
theorem witness_MatchTokensComplete :
    room.attachedFor .decStart ∧ matchOperands (.m1 0 2 (.got 0)) = some (2, 1, 2) ∧ 1 ≤ room.outPos.toNat
    ∧ room.outPos.toNat + 2 + (2 : BitVec 2).toNat ≤ room.outLen.toNat ∧ room.inPos.toNat + (2 : BitVec 2).toNat ≤ room.inLen.toNat
    ∧ (∀ i ∈ [(Instr.m1b 0 0 (.got 0), 3, 2049), (.m2 2 0 0 (.got 0), 3, 1), (.m3 1 (.got 0), 3, 1),
        (.m3X (.got ⟨0, 1⟩) (.got 0), 34, 1), (.m4 1 1 (.got 0), 3, 32768), (.m4X 0 (.got ⟨0, 1⟩) (.got 4), 10, 16385)],
      matchOperands i.1 = some (i.2.1, i.2.2, 0)
      ∧ i.2.2 ≤ ({ room with outPos := 32768, outLen := 40000 } : State).outPos.toNat
      ∧ ({ room with outPos := 32768, outLen := 40000 } : State).outPos.toNat + i.2.1 + 0 ≤
        ({ room with outPos := 32768, outLen := 40000 } : State).outLen.toNat) :=
  ⟨⟨by decide, by decide, by decide⟩, by decide⟩

theorem witness_MatchTokensFailInOrder :
    matchOperands (.m2 2 2 3 (.got 0)) = some (3, 3, 3) ∧ room.outPos.toNat < 3
    ∧ matchOperands (.m2 2 1 3 (.got 0)) = some (3, 2, 3) ∧ 2 ≤ room.outPos.toNat
    ∧ room.outLen.toNat < room.outPos.toNat + 3 + (3 : BitVec 2).toNat
    ∧ matchOperands (.m2 2 1 1 (.got 0)) = some (3, 2, 1) ∧ room.outPos.toNat + 3 + (1 : BitVec 2).toNat ≤ room.outLen.toNat
    ∧ ({ room with inPos := 6 } : State).inLen.toNat < ({ room with inPos := 6 } : State).inPos.toNat + (1 : BitVec 2).toNat := by
  decide

theorem witness_MissingOperandsFail :
    (∃ d k, Instr.m1 0 0 (.failed .inputOverrun) = .m1 d k (.failed .inputOverrun))
    ∧ (∃ h z, Instr.m4X 1 (.got ⟨0, 1⟩) (.failed .inputOverrun) = .m4X h (.got z) (.failed .inputOverrun)) :=
  ⟨⟨_, _, rfl⟩, _, _, rfl⟩

theorem witness_MalformedTerminatorFails :
    m4DistBase 0 3 = 0 ∧ m4Len 2 ≠ 3 ∧ m4Len 1 = 3 := by decide

theorem witness_DecStartIsAccepted : State.reset.phase = .idle := rfl

theorem witness_CmdWriteAcceptsCommand :
    (∀ w, (host (.write 0 32 w)).host = .write (host (.write 0 32 w)).platform.regBase 32 w :: []
      ∧ (host (.write 0 32 w)).phase = .idle)
    ∧ [(1 : Word), 0xFFFFFFF2, 3, 4, 5, 6].map (fun w => (field 0 4 w).toNat) = [1, 2, 3, 4, 5, 6]
    ∧ (field 0 4 (0 : Word)).toNat = 0 ∧ 7 ≤ (field 0 4 (7 : Word)).toNat ∧ (copying 3 3 5).phase ≠ .idle
    ∧ (host (.read 0 32)).host = .read (host (.read 0 32)).platform.regBase 32 :: [] :=
  ⟨fun _ => ⟨rfl, rfl⟩, by decide, by decide, by decide, by decide, rfl⟩

/-- Section 4.2's rows, each at its edge, on the six literals of `encoding`. -/
def writing (p start n : Nat) (last : EncLast) (cap : Nat) : State :=
  { encoding .encLitRun [] last cap with eoutPos := word p, encLstart := word start, encLlen := word n, esrcLen := 300 }

theorem witness_EncLitEmits :
    (writing 0 0 0 .none 0).encLlen.toNat = 0
    ∧ (writing 0 0 238 .none 239).encLlen.toNat ≤ 238
    ∧ (writing 0 0 238 .none 239).eoutPos.toNat + [byte (17 + 238)].length + 238 ≤ (writing 0 0 238 .none 239).eoutCap.toNat
    ∧ 239 ≤ (writing 0 0 239 .none 241).encLlen.toNat
    ∧ (writing 0 0 239 .none 241).eoutPos.toNat + (0x00 :: zextBytes (239 - 18)).length + 239 ≤
      (writing 0 0 239 .none 241).eoutCap.toNat
    ∧ (writing 5 0 4 .none 10).eoutPos.toNat ≠ 0 ∧ 4 ≤ (writing 5 0 4 .none 10).encLlen.toNat
    ∧ (writing 5 282 18 .matched 24).encLstart.toNat + 18 ≤ (writing 5 282 18 .matched 24).esrcLen.toNat
    ∧ 19 ≤ (writing 5 0 19 .matched 26).encLlen.toNat ∧ (writing 5 0 3 .matched 8).encLlen.toNat ≤ 3
    ∧ 2 ≤ (writing 2 0 1 .matched 3).eoutPos.toNat
    ∧ (writing 2 0 1 .matched 3).eoutPos.toNat + (writing 2 0 1 .matched 3).encLlen.toNat ≤
      (writing 2 0 1 .matched 3).eoutCap.toNat := by decide

theorem witness_EncLitRefuses :
    (writing 3 0 4 .literal 9).encLast = .literal ∧ (writing 3 0 4 .terminated 9).encLast = .terminated
    ∧ (writing 3 297 4 .matched 9).esrcLen.toNat < (writing 3 297 4 .matched 9).encLstart.toNat + 4
    ∧ (writing 3 0 3 .none 9).encLlen.toNat ≤ 3 ∧ litForm (writing 0 0 2 .none 2).eoutPos.toNat 2 = .header [0x13]
    ∧ (writing 0 0 2 .none 2).eoutCap.toNat < (writing 0 0 2 .none 2).eoutPos.toNat + [(0x13 : Byte)].length + 2
    ∧ (writing 5 0 1 .matched 5).eoutCap.toNat < (writing 5 0 1 .matched 5).eoutPos.toNat + 1 := by decide

/-- A match to write. -/
def matching (last : EncLast) (len dist cap : Nat) : State :=
  { encoding .encMatchRun [0x13, 0x41, 0x42] last cap with encMlen := word len, encMdist := word dist }

theorem witness_EncMatchRuns :
    (matching .none 3 2 9).phase = .encMatchRun ∧ (matching .none 3 2 9).encLast = .none
    ∧ classify (matching .literal 3 0 9).encMlen.toNat (matching .literal 3 0 9).encMdist.toNat 0 = none
    ∧ classify (matching .matched 3 2 5).encMlen.toNat (matching .matched 3 2 5).encMdist.toNat 0 = some .m2
    ∧ (matching .matched 3 2 5).eoutPos.toNat + (matchBytes .m2 3 2).length ≤ (matching .matched 3 2 5).eoutCap.toNat
    ∧ (matching .literal 3 2 4).eoutCap.toNat < (matching .literal 3 2 4).eoutPos.toNat + (matchBytes .m2 3 2).length := by
  decide

theorem witness_EncTermRuns :
    (encoding .encTermRun [0x11, 0, 0] .terminated 9).encLast = .terminated
    ∧ (encoding .encTermRun [] .none 3).eoutPos.toNat + 3 ≤ (encoding .encTermRun [] .none 3).eoutCap.toNat
    ∧ (encoding .encTermRun [] .none 2).eoutCap.toNat < (encoding .encTermRun [] .none 2).eoutPos.toNat + 3
    ∧ (encoding .encTermRun [] .none 3).phase = .encTermRun ∧ (encoding .encTermRun [] .none 3).encLast ≠ .terminated := by
  decide

theorem witness_EncQueryAnswers : (encoding .encQueryRun [] .none 3).phase = .encQueryRun := rfl

theorem witness_CommandsAreAccepted :
    State.reset.phase = .idle ∧ (copying 3 3 5).phase ≠ .idle ∧ (copying 3 3 5).phase ≠ .encTermRun
    ∧ room.phase ≠ .idle := by decide

theorem witness_ErrorEndOfCommand : Command.decStart = .decStart ∧ Command.brcCopy ≠ .decStart := by decide

theorem witness_ResetRestoresRegisters : (host .reset).host = .reset :: [] ∧ (host .reset).phase = .idle := ⟨rfl, rfl⟩

/-- The last byte that each abort spares, and the first that it does not cover. -/
theorem witness_AbortKeepsOtherBytes :
    room.decoding ∧ ¬(6 : Nat) < room.outLen.toNat ∧ (copying 3 3 5).phase = .brcRun ∧ (2 : Nat) < (copying 3 3 5).brcPos.toNat
    ∧ (encoding .encTermRun [0x13, 0x41, 0x42] .literal 9).eoutPos.toNat - 2 = 1
    ∧ ({ room with host := [.reset] } : State).host = .reset :: [] := by decide

/-- The host's duties towards the running command's buffers are kept where the core's two checks of them pass. -/
theorem attached_of_checks {s : State} (hb : s.overBound = none) (hv : s.overlap = none) : s.Attached :=
  attached_iff.2 ⟨hb, hv⟩

theorem room_attached : room.Attached := attached_of_checks (by decide) (by decide)

theorem copying_attached : (copying 3 3 5).Attached := attached_of_checks (by decide) (by decide)

/-- R62: a decode is attached with an `EOUT_CAP` past `EOUT_SIZE`, a BRC_COPY with an `IN_LEN` past `SRC_SIZE`. -/
theorem test_attached_by_command :
    ({ room with eoutCap := 2147483649 } : State).Attached
    ∧ ({ copying 3 3 5 with inLen := 2147483649 } : State).Attached :=
  ⟨attached_of_checks (by decide) (by decide), attached_of_checks (by decide) (by decide)⟩

theorem witness_StepRunsInstruction :
    room.host = [] ∧ room.Attached ∧ room.phase = .decLoop
    ∧ decodeToken room.context room.streamBytes = .ok (.m1 1 0 (.got 0), 2)
    ∧ (decoding [0x12, 0x41] [] 0 0 1).phase = .decFirst ∧ (decoding [0x12, 0x41] [] 0 0 1).olset = true
    ∧ (decoding [0x12, 0x41] [] 0 0 1).inLen ≠ 0 ∧ (copying 3 3 5).Attached ∧ (copying 3 3 5).phase = .brcRun
    ∧ (host (.write 0 32 5)).host = .write (host (.write 0 32 5)).platform.regBase 32 5 :: []
    ∧ decodeCommand 5 = .ok .encTerm
    ∧ [({ room with dstate := 0 } : State), room, { room with dstate := 3 }, { room with dstate := 4 }].map
      (fun s => (s.dstate.toNat, s.context)) = [(0, .state0), (1, .state123), (3, .state123), (4, .state4)]
    ∧ (5 - 2 : Nat) < room.inLen.toNat - room.inPos.toNat :=
  ⟨rfl, room_attached, rfl, by decide, rfl, rfl, by decide, copying_attached, rfl, rfl, by decide, by decide,
    by decide⟩

theorem witness_FirstStepChecks :
    (decoding [] [] 0 0 9).host = [] ∧ (decoding [] [] 0 0 9).Attached ∧ (decoding [] [] 0 0 9).phase = .decFirst
    ∧ (decoding [] [] 0 0 9).olset = true ∧ (decoding [] [] 0 0 9).inLen = 0
    ∧ ({ decoding [0x11] [] 0 0 0 with olset := false } : State).Attached
    ∧ ({ decoding [0x11] [] 0 0 0 with olset := false } : State).phase = .decFirst :=
  ⟨rfl, attached_of_checks (by decide) (by decide), rfl, rfl, by decide, attached_of_checks (by decide) (by decide), rfl⟩

theorem witness_ExhaustedInputFails :
    (decoding [0x12, 0x41] [0x41] 2 1 9).Attached ∧ (decoding [0x12, 0x41] [0x41] 2 1 9).phase = .decLoop
    ∧ (decoding [0x12, 0x41] [0x41] 2 1 9).inLen.toNat ≤ (decoding [0x12, 0x41] [0x41] 2 1 9).inPos.toNat :=
  ⟨attached_of_checks (by decide) (by decide), rfl, by decide⟩

theorem witness_RegisterWritesStore :
    (host (.write 0x40 32 9)).phase = .idle
    ∧ (host (.write 0x40 32 9)).host = .write ((host (.write 0x40 32 9)).platform.regBase + 0x40) 32 9 :: [] := by decide

theorem witness_BusyWritesAreDropped :
    ({ copying 3 3 5 with host := [.write 0x18 32 0] } : State).phase ≠ .idle
    ∧ ({ copying 3 3 5 with host := [.write 0x18 32 0] } : State).host = .write 0x18 32 0 :: [] := by decide

theorem witness_OddAccessesDoNothing :
    255 < 256 ∧ 16 ≠ 32 ∧ 0x0E % 4 ≠ 0 ∧ 0x48 ≤ 0x48
    ∧ (host (.write 0x48 32 9)).host = .write ((host (.write 0x48 32 9)).platform.regBase + 0x48) 32 9 :: []
    ∧ (host (.read 0x0E 32)).host = .read ((host (.read 0x0E 32)).platform.regBase + 0x0E) 32 :: [] := by decide

theorem witness_ReadsReturnRegisters :
    (host (.read 0x04 32)).host = .read ((host (.read 0x04 32)).platform.regBase + 0x04) 32 :: []
    ∧ ({ copying 3 3 5 with host := [.read 0x10 32] } : State).phase ≠ .idle
    ∧ ({ copying 3 3 5 with host := [.read 0x10 32] } : State).host = .read (0 + 0x10) 32 :: []
    ∧ (host (.read 0x44 32)).host = .read ((host (.read 0x44 32)).platform.regBase + 0x44) 32 :: []
    ∧ (host (.read 0x44 32)).phase = .idle := by decide

theorem witness_BufferAccesses :
    2147483647 < State.reset.platform.size .dst ∧ State.reset.inUse (State.reset.addr .dst 2147483647) = false
    ∧ (copying 3 3 5).inUse ((copying 3 3 5).addr .src 2147483647) = false
    ∧ (copying 3 3 5).inUse ((copying 3 3 5).addr .dst 0) = true
    ∧ (host (.bufWrite .dst 0 1)).host = .bufWrite .dst 0 1 :: [] ∧ (host (.bufRead .dst 0)).host = .bufRead .dst 0 :: [] := by
  decide

/-- A platform with two bytes attached to each buffer. -/
def small (s : State) : State := { s with platform := ⟨0, ⟨0, 2⟩, ⟨2, 2⟩, ⟨4, 2⟩, ⟨6, 2⟩⟩ }

/-- A platform whose `SRC` and `DST` share one byte, and whose `ESRC` and `EOUT` share one. -/
def sharing (s : State) : State :=
  { s with platform := ⟨0, ⟨0, 100⟩, ⟨99, 100⟩, ⟨1000, 500⟩, ⟨1499, 100⟩⟩ }

/-- The core is let step while idle, while a BRC_COPY runs, past the attached memory, and with overlapping buffers. -/
theorem witness_IdleCoreWaits :
    State.reset.phase = .idle ∧ State.reset.host = [] ∧ (host .core).phase = .idle ∧ (host .core).host = .core :: []
    ∧ (({ copying 3 3 5 with host := [.core, .reset] } : State).host = .core :: [.reset]
      ∧ ∃ t, step { copying 3 3 5 with host := [] } = .next t)
    ∧ (({ small (copying 3 3 5) with host := [.core] } : State).host = .core :: []
      ∧ step { small (copying 3 3 5) with host := [] } = .fault (.beyondAttached .dst))
    ∧ ({ sharing room with host := [.core] } : State).host = .core :: []
    ∧ step { sharing room with host := [] } = .refused (.buffersOverlap .src .dst) :=
  ⟨rfl, rfl, rfl, rfl, ⟨rfl, _, rfl⟩, ⟨rfl, rfl⟩, rfl, rfl⟩

theorem witness_HostMisuseStops :
    (small room).decoding ∧ (small room).platform.size .src < (small room).inLen.toNat
    ∧ (small (copying 3 3 5)).phase = .brcRun ∧ (small (copying 3 3 5)).platform.size .dst < (small (copying 3 3 5)).outLen.toNat
    ∧ (small (decoding [1, 2] [] 0 0 9)).decoding
    ∧ (small (decoding [1, 2] [] 0 0 9)).inLen.toNat ≤ (small (decoding [1, 2] [] 0 0 9)).platform.size .src
    ∧ (small (decoding [1, 2] [] 0 0 9)).platform.size .dst < (small (decoding [1, 2] [] 0 0 9)).outLen.toNat
    ∧ (small (writing 0 0 1 .none 1)).platform.size .esrc < (small (writing 0 0 1 .none 1)).esrcLen.toNat
    ∧ (small (encoding .encTermRun [] .none 3)).platform.size .eout < (small (encoding .encTermRun [] .none 3)).eoutCap.toNat
    ∧ (small (host (.bufRead .src 2))).platform.size .src ≤ 2 ∧ 1 < (small (copying 3 3 5)).platform.size .dst
    ∧ (small (copying 3 3 5)).inUse ((small (copying 3 3 5)).addr .dst 1) = true
    ∧ (sharing room).decoding ∧ (sharing room).inLen.toNat ≤ (sharing room).platform.size .src
    ∧ (sharing room).outLen.toNat ≤ (sharing room).platform.size .dst
    ∧ (sharing room).addr .src 99 = (sharing room).addr .dst 0
    ∧ (sharing (writing 0 0 1 .none 1)).phase = .encLitRun
    ∧ (sharing (writing 0 0 1 .none 1)).esrcLen.toNat ≤ (sharing (writing 0 0 1 .none 1)).platform.size .esrc
    ∧ (sharing (writing 0 0 1 .none 1)).eoutCap.toNat ≤ (sharing (writing 0 0 1 .none 1)).platform.size .eout
    ∧ (sharing (writing 0 0 1 .none 1)).addr .esrc 499 = (sharing (writing 0 0 1 .none 1)).addr .eout 0 := by decide

/-- A running decode meets the invariant. -/
theorem room_inv : room.Inv :=
  { mem_wf := by decide
    dstate_legal := by decide
    one_end := by decide
    err_iff_code := by decide
    code_raised := by decide
    busy_clear := by decide
    inLen_le := by decide
    outLen_le := by decide
    esrcLen_le := by decide
    eoutCap_le := by decide
    eoutPos_le := by decide
    positions_le := by decide
    first_at_zero := by decide
    loop_has_outLen := by decide
    output_written := by decide
    outLen_unset := by decide
    match_in_stream := by decide }

/-- A running encoder command meets the invariant. -/
theorem matching_inv : (matching .matched 3 2 4).Inv :=
  { mem_wf := by decide
    dstate_legal := by decide
    one_end := by decide
    err_iff_code := by decide
    code_raised := by decide
    busy_clear := by decide
    inLen_le := by decide
    outLen_le := by decide
    esrcLen_le := by decide
    eoutCap_le := by decide
    eoutPos_le := by decide
    positions_le := by decide
    first_at_zero := by decide
    loop_has_outLen := by decide
    output_written := by decide
    outLen_unset := by decide
    match_in_stream := by decide }

theorem witness_StepKeepsInvariant : room.Inv ∧ ∃ t, step room = .next t := ⟨room_inv, _, rfl⟩

theorem witness_DecodeAdvancesOrEnds : room.Inv ∧ room.host = [] ∧ room.decoding ∧ ∃ t, step room = .next t :=
  ⟨room_inv, rfl, by decide, _, rfl⟩

theorem witness_CommandsTerminate :
    room.Inv ∧ room.host = [] ∧ room.Attached ∧ room.decoding
    ∧ (matching .matched 3 2 4).Inv ∧ (matching .matched 3 2 4).Attached ∧ (matching .matched 3 2 4).phase ≠ .idle
    ∧ ¬(matching .matched 3 2 4).decoding :=
  ⟨room_inv, rfl, room_attached, by decide, matching_inv,
    attached_of_checks (by decide) (by decide), by decide, by decide⟩

/-- The memory with another byte of `DST` at `OUT_POS`. -/
theorem witness_DecodeIgnoresOldOutput :
    room.Inv ∧ room.host = [] ∧ room.decoding
    ∧ (∀ a, ¬(room.addr .dst room.outPos.toNat ≤ a ∧ a < room.addr .dst (room.platform.size .dst)) →
      { room with mem := room.mem.write (room.addr .dst 2) 7 }.cell a = room.cell a)
    ∧ ∃ t, step room = .next t :=
  ⟨room_inv, rfl, by decide, fun a h => Memory.read_write_other _ _ _ fun e => h (by subst e; decide), _, rfl⟩

/-- The memory with another byte of `SRC` at `IN_LEN`. -/
theorem witness_DecodeIgnoresInputPastLength :
    room.Inv ∧ room.host = [] ∧ room.decoding
    ∧ (∀ a, ¬(room.addr .src room.inLen.toNat ≤ a ∧ a < room.addr .src (room.platform.size .src)) →
      { room with mem := room.mem.write (room.addr .src 6) 7 }.cell a = room.cell a)
    ∧ ∃ t, step room = .next t :=
  ⟨room_inv, rfl, by decide, fun a h => Memory.read_write_other _ _ _ fun e => h (by subst e; decide), _, rfl⟩

theorem witness_CoreStepWritesInBounds :
    room.host = [] ∧ room.decoding ∧ (∃ t, step room = .next t)
    ∧ (copying 3 3 5).phase = .brcRun ∧ (∃ t, step (copying 3 3 5) = .next t)
    ∧ ¬(matching .matched 3 2 5).decoding ∧ (matching .matched 3 2 5).phase ≠ .brcRun
    ∧ ∃ t, step (matching .matched 3 2 5) = .next t := ⟨rfl, by decide, ⟨_, rfl⟩, rfl, ⟨_, rfl⟩, by decide, by decide, _, rfl⟩

/-- An ENC_MATCH whose two bytes do not fit. -/
theorem witness_ErrorWritesNoBuffer :
    (matching .matched 3 2 4).Inv ∧ (matching .matched 3 2 4).host = [] ∧ (matching .matched 3 2 4).phase ≠ .idle
    ∧ ∃ t, step (matching .matched 3 2 4) = .next t ∧ t.err = true := ⟨matching_inv, rfl, by decide, _, rfl, rfl⟩

theorem witness_OlsetChangesOnlyByHost :
    (∃ t, step (host (.write 0x0C 32 9)) = .next t ∧ t.olset ≠ (host (.write 0x0C 32 9)).olset)
    ∧ ∃ t, step { room with host := [.reset] } = .next t ∧ t.olset ≠ ({ room with host := [.reset] } : State).olset :=
  ⟨⟨_, rfl, by decide⟩, _, rfl, by decide⟩

theorem witness_EncLastWriters :
    (∃ t, step { matching .matched 3 2 5 with phase := .idle, host := [.write 0x2C 32 0] } = .next t ∧ t.encLast ≠ .matched)
    ∧ (∃ t, step (writing 0 0 1 .none 9) = .next t ∧ t.encLast ≠ .none)
    ∧ (∃ t, step (matching .literal 3 2 5) = .next t ∧ t.encLast ≠ .literal)
    ∧ (∃ t, step (encoding .encTermRun [] .none 3) = .next t ∧ t.encLast ≠ .none)
    ∧ ∃ t, step { matching .matched 3 2 5 with host := [.reset] } = .next t ∧ t.encLast ≠ .matched :=
  ⟨⟨_, rfl, by decide⟩, ⟨_, rfl, by decide⟩, ⟨_, rfl, by decide⟩, ⟨_, rfl, by decide⟩, _, rfl, by decide⟩

theorem witness_DutifulHostNeverStops :
    room.Attached ∧ ∀ a rest, room.host = a :: rest → a.dutiful room :=
  ⟨room_attached, fun _ _ h => by cases h⟩

theorem witness_CutTokensMissOperands :
    (0 : Byte).toNat < 16 ∧ (15 : Byte).toNat < 16 ∧ Context.state123 ≠ .first ∧ 0x40 ≤ (0x40 : Byte).toNat
    ∧ 0x21 ≤ (0x21 : Byte).toNat ∧ (0x3F : Byte).toNat ≤ 0x3F ∧ [(0 : Byte)].length < 2 ∧ (0x11 : Byte).toNat = 0x11
    ∧ 0x10 ≤ (0x11 : Byte).toNat ∧ (0x1F : Byte).toNat ≤ 0x1F ∧ (0x11 : Byte).toNat &&& 7 ≠ 0 ∧ 8421502 ≤ Config.kMax
    ∧ (1 : Byte) ≠ 0 ∧ (0x10 : Byte).toNat = 0x10 ∧ (0x18 : Byte).toNat = 0x18 := by decide

theorem witness_AttachMovesBuffer :
    (host (.attach .src ⟨6, 10⟩)).host = .attach .src ⟨6, 10⟩ :: [] ∧ ¬(host (.attach .src ⟨6, 10⟩)).decoding
    ∧ (host (.attach .src ⟨6, 10⟩)).phase = .idle
    ∧ ({ decoding [0x11, 0, 0, 0x12] [] 0 0 9 with phase := .idle, inPos := 3 } : State).addr .src 3 = 3
    ∧ ¬(copying 3 3 5).decoding ∧ Buffer.src ≠ .dst := by decide

end Sys2Proof.Tests
end

section
/-! Termination of a command (00_scope.md R18): every core step of a decode ends it or moves `IN_POS` forward within
`IN_LEN`, and the one core step of any other command leaves the core idle. -/

namespace Sys2Proof.Machine

/-! ### The commands of one core step -/

@[simp] theorem appended_phase (last : EncLast) (m : Memory) (bs : List Byte) (s : State) :
    (appended last m bs s).phase = .idle := rfl

@[simp] theorem runBrcCopy_phase (s : State) : (runBrcCopy s).phase = .idle := by
  obtain ⟨e, -, h⟩ | ⟨-, h⟩ := runBrcCopy_cases s <;> simp [h]

@[simp] theorem runEncLit_phase (s : State) : (runEncLit s).phase = .idle := by
  obtain h | ⟨e, -, h⟩ | ⟨bs, -, h⟩ | ⟨-, -, -, h⟩ := runEncLit_cases s <;> simp [h]

@[simp] theorem runEncMatch_phase (s : State) : (runEncMatch s).phase = .idle := by
  obtain ⟨e, -, h⟩ | ⟨bs, -, -, h⟩ := runEncMatch_cases s <;> simp [h]

@[simp] theorem runEncTerm_phase (s : State) : (runEncTerm s).phase = .idle := by
  obtain ⟨e, -, h⟩ | ⟨-, h⟩ := runEncTerm_cases s <;> simp [h]

@[simp] theorem runEncQuery_phase (s : State) : (runEncQuery s).phase = .idle := rfl

/-- Every command but a decode ends at its first core step (10_state.md R46). -/
theorem coreStep_command_ends {s : State} (ha : s.Attached) (hi : s.phase ≠ .idle) (hd : ¬s.decoding) :
    ∃ t, coreStep s = .next t ∧ t.phase = .idle := by
  obtain ⟨-, hbrc, hlit, hmatch, hterm, hquery⟩ := coreStep_command (attached_overBound ha) (attached_overlap ha)
  cases hp : s.phase with
  | idle => exact absurd hp hi
  | decFirst => exact absurd (.inl hp) hd
  | decLoop => exact absurd (.inr hp) hd
  | brcRun => exact ⟨_, hbrc hp, runBrcCopy_phase s⟩
  | encLitRun => exact ⟨_, hlit hp, runEncLit_phase s⟩
  | encMatchRun => exact ⟨_, hmatch hp, runEncMatch_phase s⟩
  | encTermRun => exact ⟨_, hterm hp, runEncTerm_phase s⟩
  | encQueryRun => exact ⟨_, hquery hp, runEncQuery_phase s⟩

/-! ### The decode -/

/-- `t` goes on with the decode of `s`: `IN_POS` has moved forward within `IN_LEN`, and the host's coming actions and what
its duties towards the buffers speak of are as before. -/
structure DecodeGoesOn (s t : State) : Prop where
  phase : t.phase = .decLoop
  inPos_lt : s.inPos.toNat < t.inPos.toNat
  inPos_le : t.inPos.toNat ≤ s.inLen.toNat
  inLen : t.inLen = s.inLen
  outLen : t.outLen = s.outLen
  platform : t.platform = s.platform
  host : t.host = s.host

/-- A position advanced twice within a register's bound is held exactly. -/
theorem word_advance_toNat {p n k : Nat} {w : Word} (h : p + n + k ≤ w.toNat) :
    (word ((word (p + n)).toNat + k)).toNat = p + n + k := by
  rw [word_toNat_of_le (Nat.le_of_add_right_le h), word_toNat_of_le h]

/-- A decoder step ends the decode, or goes on with it past at least one byte of input. -/
theorem decoderStep_ends_or_goesOn {s t : State} (h : DecoderStep s t) : t.phase = .idle ∨ DecodeGoesOn s t := by
  cases h with
  | failed e => exact .inl (raise_phase ..)
  | done n => exact .inl (finish_phase _)
  | literals n k d h1 hn hd ho hi =>
    have hpos : (afterLiterals k d (afterToken n s)).inPos.toNat = s.inPos.toNat + n + k := word_advance_toNat hi
    exact .inr ⟨rfl, by omega, by omega, rfl, rfl, rfl, rfl⟩
  | matched n len dist k h1 hn hd hp ho hi =>
    have hpos : (afterMatch dist len k (afterToken n s)).inPos.toNat = s.inPos.toNat + n + k.toNat :=
      word_advance_toNat hi
    exact .inr ⟨rfl, by omega, by omega, rfl, rfl, rfl, rfl⟩

/-- The host that kept its duties towards the decode's buffers keeps them after the step. -/
theorem DecodeGoesOn.attached {s t : State} (h : DecodeGoesOn s t) (hd : s.decoding) (ha : s.Attached) :
    t.Attached := by
  have hs : s.attachedFor .decStart := ha _ (by rcases hd with hd | hd <;> simp [hd, Phase.command?])
  intro c hc
  obtain rfl : Command.decStart = c := by simpa [h.phase, Phase.command?] using hc
  simpa only [State.attachedFor, Platform.size, h.inLen, h.outLen, h.platform] using hs

theorem core_run_succ {s t : State} (h : step s = .next t) (k : Nat) : core.run (k + 1) s = core.run k t := by
  simp only [Host.Core.run, show core.step s = .next t from h]

/-- A decode ends after at most one core step for each byte of input left and one more: by induction on the bytes left,
which every step that goes on makes fewer. -/
theorem decode_ends {s : State} (hh : s.host = []) (ha : s.Attached) (hd : s.decoding) :
    ∃ k t, 1 ≤ k ∧ k ≤ s.inLen.toNat - s.inPos.toNat + 1 ∧ core.run k s = .next t ∧ State.phase t = .idle := by
  induction hn : s.inLen.toNat - s.inPos.toNat using Nat.strong_induction_on generalizing s with
  | h n ih =>
    obtain ⟨t, hstep, ht⟩ := decoder_step (attached_overBound ha) (attached_overlap ha) hd
    rw [← step_core hh] at hstep
    rcases decoderStep_ends_or_goesOn ht with hidle | hgo
    · exact ⟨1, t, Nat.le_refl 1, by omega, core_run_succ hstep 0, hidle⟩
    · have hlt : t.inLen.toNat - t.inPos.toNat < n := by
        have := hgo.inPos_lt
        have := hgo.inPos_le
        rw [hgo.inLen]
        omega
      obtain ⟨k, u, -, hk, hrun, hu⟩ :=
        ih _ hlt (hgo.host.trans hh) (hgo.attached hd ha) (.inr hgo.phase) rfl
      exact ⟨k + 1, u, by omega, by omega, (core_run_succ hstep k).trans hrun, hu⟩

/-- Settles O51: a decode by induction on the bytes of input left, every other command by its one core step. -/
theorem commandsTerminate : Obligations.CommandsTerminate := by
  intro s _ hh ha
  refine ⟨decode_ends hh ha, fun hi hd => ?_⟩
  rw [step_core hh]
  exact coreStep_command_ends ha hi hd

end Sys2Proof.Machine
end

section
/-! What a step can do: the result of each phase's core step and of each host action, said once. -/

namespace Sys2Proof.Machine

/-- What a core step answers, by the phase it runs in (10_state.md R46). -/
inductive CoreResult (s : State) : State → Prop where
  | idle (hp : s.phase = .idle) : CoreResult s s
  | decoder {t : State} (hd : s.decoding) (ht : DecoderStep s t) : CoreResult s t
  | brcCopy (hp : s.phase = .brcRun) : CoreResult s (runBrcCopy s)
  | encLit (hp : s.phase = .encLitRun) : CoreResult s (runEncLit s)
  | encMatch (hp : s.phase = .encMatchRun) : CoreResult s (runEncMatch s)
  | encTerm (hp : s.phase = .encTermRun) : CoreResult s (runEncTerm s)
  | encQuery (hp : s.phase = .encQueryRun) : CoreResult s (runEncQuery s)

theorem coreStep_result {s t : State} (h : coreStep s = .next t) : CoreResult s t := by
  obtain ⟨hb, hv⟩ := coreStep_next_duties h
  obtain ⟨hidle, hbrc, hlit, hmatch, hterm, hquery⟩ := coreStep_command hb hv
  have answers : ∀ {u}, coreStep s = .next u → CoreResult s u → CoreResult s t := fun hu hr => by
    rw [hu] at h; cases h; exact hr
  cases hp : s.phase with
  | idle => exact answers (hidle hp) (.idle hp)
  | decFirst => exact .decoder (.inl hp) (decoder_step_next (.inl hp) h)
  | decLoop => exact .decoder (.inr hp) (decoder_step_next (.inr hp) h)
  | brcRun => exact answers (hbrc hp) (.brcCopy hp)
  | encLitRun => exact answers (hlit hp) (.encLit hp)
  | encMatchRun => exact answers (hmatch hp) (.encMatch hp)
  | encTermRun => exact answers (hterm hp) (.encTerm hp)
  | encQueryRun => exact answers (hquery hp) (.encQuery hp)

/-- What a host action answers on the state that is left once the action is taken from the host's list. -/
inductive HostResult (s : State) : HostAction → State → Prop where
  | core {t : State} (ht : CoreResult s t) : HostResult s .core t
  | command (x : Word) (c : Command) (hp : s.phase = .idle) :
    HostResult s (.write s.platform.regBase 32 x) (accept c s)
  | register (off : Nat) (x : Word) (r : Reg) (hp : s.phase = .idle) (hr : Reg.at? off = some r) :
    HostResult s (.write (s.platform.regBase + off) 32 x) (s.writeReg r x)
  | dropped (addr width : Nat) (x : Word) : HostResult s (.write addr width x) s
  | read (addr width : Nat) (x : Word) (n : Nat) :
    HostResult s (.read addr width) { s with rdata := x, freeCount := n }
  | bufWrite (b : Buffer) (off : Nat) (x : Byte) :
    HostResult s (.bufWrite b off x) { s with mem := s.mem.write (s.addr b off) x }
  | bufRead (b : Buffer) (off : Nat) (x : Word) (n : Nat) :
    HostResult s (.bufRead b off) { s with rdata := x, freeCount := n }
  | attach (b : Buffer) (w : Window) (hu : s.uses b = false) :
    HostResult s (.attach b w) { s with platform := s.platform.attach b w }
  | reset : HostResult s .reset (resetCore s)

theorem selectReg_eq_some {off width : Nat} {r : Reg} (h : selectReg off width = some r) :
    width = 32 ∧ Reg.at? off = some r := by
  unfold selectReg at h
  split at h
  · rename_i hw; exact ⟨hw.1, h⟩
  · cases h

theorem hostWrite_result (addr width : Nat) (x : Word) (s : State) :
    HostResult s (.write addr width x) (hostWrite addr width x s) := by
  unfold hostWrite
  split
  · exact .dropped ..
  rename_i off ho
  split
  · exact .dropped ..
  rename_i r hs
  split
  · exact .dropped ..
  rename_i hb
  obtain ⟨rfl, -⟩ := blockOffset_eq_some ho
  obtain ⟨rfl, hr⟩ := selectReg_eq_some hs
  exact .register off x r (by simpa [busy_iff] using hb) hr

theorem busy_eq_false {s : State} (hp : s.phase = .idle) : s.busy = false := by simp [State.busy, hp]

theorem readReg_idle (r : Reg) {s : State} (hp : s.phase = .idle) :
    readReg r s = { s with rdata := s.reg r } := by
  have hb := busy_eq_false hp
  cases r <;> simp [readReg, hb]

/-- A read changes only the value read and the counter of free values (10_state.md R44, R45). -/
theorem readReg_eq (r : Reg) (s : State) : ∃ x n, readReg r s = { s with rdata := x, freeCount := n } := by
  by_cases hp : s.phase = .idle
  · exact ⟨_, _, readReg_idle r hp⟩
  · have hb : s.busy = true := (busy_iff s).2 hp
    cases r with
    | status | inPos | outPos | eoutPos => exact ⟨_, _, if_pos hb⟩
    | _ => exact ⟨_, _, rfl⟩

theorem hostRead_result (addr width : Nat) (s : State) :
    HostResult s (.read addr width) (hostRead addr width s) := by
  unfold hostRead
  split
  · exact .read _ _ s.rdata s.freeCount
  split
  · exact .read _ _ 0 s.freeCount
  rename_i r _
  obtain ⟨x, n, h⟩ := readReg_eq r s
  exact h ▸ .read _ _ x n

theorem hostFetch_result {a : HostAction} {s t : State} (h : (hostFetch a s).outcome = .next t) :
    HostResult s a t := by
  cases a with
  | core => exact .core (coreStep_result h)
  | write addr width x =>
    simp only [hostFetch] at h
    split at h
    · rename_i i hi
      obtain ⟨hp, rfl, rfl, -, ht⟩ := hostCommand_eq_some hi
      obtain ⟨c, hc⟩ := exec_command_idle ht hp
      obtain rfl := Host.Outcome.next.inj (hc.symm.trans h)
      exact .command x c hp
    · cases h; exact hostWrite_result addr width x s
  | read addr width => cases h; exact hostRead_result addr width s
  | bufWrite b off x =>
    simp only [hostFetch, Fetched.outcome, hostBufWrite] at h
    split_ifs at h
    cases h; exact .bufWrite b off x
  | bufRead b off =>
    simp only [hostFetch, Fetched.outcome, hostBufRead] at h
    split_ifs at h <;> cases h <;> exact .bufRead ..
  | attach b w =>
    simp only [hostFetch, Fetched.outcome, hostAttach] at h
    split_ifs at h with hu
    cases h; exact .attach b w (by simpa using hu)
  | reset => cases h; exact .reset

/-- A step is a core step, or takes the host's next action. -/
theorem step_result {s t : State} (h : step s = .next t) :
    CoreResult s t ∨ ∃ a r, s.host = a :: r ∧ HostResult { s with host := r } a t := by
  cases hh : s.host with
  | nil => exact .inl (coreStep_result (step_core hh ▸ h))
  | cons a r =>
    rw [step_eq, fetch, hh] at h
    exact .inr ⟨a, r, rfl, hostFetch_result h⟩

end Sys2Proof.Machine
end

section
/-! The invariant of the core (10_state.md R48): reset meets it and every step keeps it. -/

namespace Sys2Proof.Machine

variable {s t : State}

/-! ### The ends and the acceptance of a command -/

/-- An idle core: what the invariant says of a decode is void, so only the memory, `DSTATE` and the end flags count. -/
theorem State.Inv.ended (h : s.Inv) {done err : Bool} {code : ErrCode} {d : BitVec 3} {i o : Word} {m : Memory}
    (hm : m.wf) (hd : d.toNat ≤ 4) (hone : ¬(done = true ∧ err = true)) (hcode : err = true ↔ code ≠ .none)
    (hraised : code ≠ .inputTooLarge) :
    { s with phase := .idle, done := done, err := err, errcode := code, dstate := d, inPos := i, outPos := o
             mem := m }.Inv :=
  { h with
    mem_wf := hm
    dstate_legal := hd
    one_end := hone
    err_iff_code := hcode
    code_raised := hraised
    busy_clear := by simp
    positions_le := by simp
    first_at_zero := by simp
    loop_has_outLen := by simp
    output_written := by simp }

theorem State.Inv.raised (h : s.Inv) (c : Command) {e : ErrCode} (he : e ≠ .none ∧ e ≠ .inputTooLarge) :
    (raise c e s).Inv := by
  obtain ⟨hnone, hraised⟩ := he
  have hcode : true = true ↔ e ≠ .none := by simp [hnone]
  cases c with
  | decStart => exact h.ended h.mem_wf (by decide) (by simp) hcode hraised
  | _ => exact h.ended h.mem_wf h.dstate_legal (by simp) hcode hraised

theorem State.Inv.finished (h : s.Inv) {m : Memory} (hm : m.wf) (i o : Word) :
    (finish { s with mem := m, inPos := i, outPos := o }).Inv :=
  h.ended hm h.dstate_legal (by simp) (by simp) (by simp)

theorem accept_decoding {c : Command} : (accept c s).decoding ↔ c = .decStart := by
  cases c <;> simp [State.decoding, Command.firstPhase]

/-- A command that is accepted starts with its end cleared, a decode from position 0 in state 0 (10_state.md R23). -/
theorem State.Inv.accepted (h : s.Inv) (c : Command) : (accept c s).Inv where
  mem_wf := by simpa using h.mem_wf
  dstate_legal := by
    rw [accept_dstate]
    split
    · decide
    · exact h.dstate_legal
  one_end := by simp
  err_iff_code := by simp
  code_raised := by simp
  busy_clear := by simp
  inLen_le := by simpa using h.inLen_le
  outLen_le := by simpa using h.outLen_le
  esrcLen_le := by simpa using h.esrcLen_le
  eoutCap_le := by simpa using h.eoutCap_le
  eoutPos_le := by simpa using h.eoutPos_le
  positions_le hd := by simp [accept_decoding.1 hd]
  first_at_zero hp := by simp [accept_decoding.1 (.inl hp)]
  loop_has_outLen := by cases c <;> simp [Command.firstPhase]
  output_written hd := by simp [accept_decoding.1 hd]
  outLen_unset := by simpa using h.outLen_unset
  match_in_stream := by simpa using h.match_in_stream

/-! ### The core steps -/

/-- The state after a token that goes on with the decode: its positions within the buffers, its output written. -/
theorem State.Inv.decode_goes_on (h : s.Inv) (hs : s.decoding) (hset : s.phase = .decFirst → s.olset = true)
    {m : Memory} {d : BitVec 3} {i o : Word} (hm : m.wf) (hd : d.toNat ≤ 4) (hi : i.toNat ≤ s.inLen.toNat)
    (ho : o.toNat ≤ s.outLen.toNat) (hw : ∀ j < o.toNat, (m.get? (s.addr .dst j)).isSome = true) :
    { s with phase := .decLoop, mem := m, dstate := d, inPos := i, outPos := o }.Inv :=
  { h with
    mem_wf := hm
    dstate_legal := hd
    busy_clear := fun _ => h.busy_clear (by rcases hs with hs | hs <;> simp [hs])
    positions_le := fun _ => ⟨hi, ho⟩
    first_at_zero := by simp
    loop_has_outLen := fun _ => hs.elim hset h.loop_has_outLen
    output_written := fun _ => hw }

theorem State.Inv.literals (h : s.Inv) (hs : s.decoding) (hset : s.phase = .decFirst → s.olset = true)
    {n k : Nat} {d : BitVec 3} (hd : d.toNat ≤ 4) (ho : s.outPos.toNat + k ≤ s.outLen.toNat)
    (hi : s.inPos.toNat + n + k ≤ s.inLen.toNat) : (afterLiterals k d (afterToken n s)).Inv := by
  have hin := word_advance_toNat hi
  have hout : (word (s.outPos.toNat + k)).toNat = s.outPos.toNat + k := word_toNat_of_le ho
  have hm : (afterLiterals k d (afterToken n s)).mem.wf := Memory.blit_wf h.mem_wf ..
  refine h.decode_goes_on hs hset hm hd (hin.trans_le hi) (hout.trans_le ho) fun j hj => ?_
  refine Memory.isSome_blit _ _ _ ?_
  have hj : j < s.outPos.toNat + k := hj.trans_eq hout
  by_cases hold : j < s.outPos.toNat
  · exact .inl (h.output_written hs j hold)
  · exact .inr (by simp only [State.addr, afterToken]; omega)

theorem State.Inv.matched (h : s.Inv) (hs : s.decoding) (hset : s.phase = .decFirst → s.olset = true)
    {n len dist : Nat} {k : BitVec 2} (ho : s.outPos.toNat + len + k.toNat ≤ s.outLen.toNat)
    (hi : s.inPos.toNat + n + k.toNat ≤ s.inLen.toNat) : (afterMatch dist len k (afterToken n s)).Inv := by
  have hin := word_advance_toNat hi
  have hout : (word (s.outPos.toNat + len + k.toNat)).toNat = s.outPos.toNat + len + k.toNat := word_toNat_of_le ho
  have hd : (trailDstate k).toNat ≤ 4 := by rw [trailDstate_toNat]; omega
  have hm : (afterMatch dist len k (afterToken n s)).mem.wf := Memory.blit_wf (Memory.copyBack_wf h.mem_wf ..) ..
  refine h.decode_goes_on hs hset hm hd (hin.trans_le hi) (hout.trans_le ho) fun j hj => ?_
  have hj : j < s.outPos.toNat + len + k.toNat := hj.trans_eq hout
  refine Memory.isSome_blit _ _ _ ?_
  by_cases htrail : s.outPos.toNat + len ≤ j
  · exact .inr (by simp only [State.addr, afterToken]; omega)
  refine .inl (Memory.isSome_copyBack _ _ _ _ ?_)
  by_cases hold : j < s.outPos.toNat
  · exact .inl (h.output_written hs j hold)
  · exact .inr (by simp only [State.addr, afterToken]; omega)

theorem DecoderStep.inv (h : s.Inv) (hs : s.decoding) (ht : DecoderStep s t) : t.Inv := by
  cases ht with
  | failed e he => exact h.raised .decStart (by obtain rfl | rfl | rfl | rfl | rfl | rfl := he <;> decide)
  | done n => exact h.finished h.mem_wf (word (s.inPos.toNat + n)) s.outPos
  | literals n k d h1 hn hd ho hi hf => exact h.literals hs hf hd ho hi
  | matched n len dist k h1 hn hd hp ho hi hf => exact h.matched hs hf ho hi

/-- What a successful append leaves (42_token_encoder.md R180 to R182): after a match, `EOUT_POS` is past its bytes. -/
theorem State.Inv.append (h : s.Inv) {last : EncLast} {m : Memory} {bs : List Byte} (hm : m.wf)
    (hb : s.eoutPos.toNat + bs.length ≤ s.eoutCap.toNat) (hl : last = .matched → 2 ≤ bs.length) :
    (appended last m bs s).Inv := by
  have hpos : (word (s.eoutPos.toNat + bs.length)).toNat = s.eoutPos.toNat + bs.length := word_toNat_of_le hb
  have hcap := h.eoutCap_le
  exact { h.finished (Memory.store_wf hm (s.addr .eout s.eoutPos.toNat) bs) s.inPos s.outPos with
    eoutPos_le := (by omega : (word (s.eoutPos.toNat + bs.length)).toNat ≤ _)
    match_in_stream := fun hlast => by
      have hlen := hl hlast
      exact (by omega : 2 ≤ (word (s.eoutPos.toNat + bs.length)).toNat) }

theorem State.Inv.brcCopy (h : s.Inv) : (runBrcCopy s).Inv := by
  obtain ⟨e, he, hr⟩ | ⟨-, hr⟩ := runBrcCopy_cases s <;> rw [hr]
  · exact h.raised .brcCopy (by obtain rfl | rfl := he <;> decide)
  · exact h.finished (Memory.copyBack_wf h.mem_wf ..) s.inPos s.outPos

theorem State.Inv.encLit (h : s.Inv) : (runEncLit s).Inv := by
  obtain hr | ⟨e, he, hr⟩ | ⟨bs, hb, hr⟩ | ⟨-, -, hb, hr⟩ := runEncLit_cases s <;> rw [hr]
  · exact h.finished h.mem_wf s.inPos s.outPos
  · exact h.raised .encLit (by obtain rfl | rfl := he <;> decide)
  · exact h.append h.mem_wf hb (by simp)
  · exact h.append (Memory.write_wf h.mem_wf ..) hb (by simp)

theorem State.Inv.encMatch (h : s.Inv) : (runEncMatch s).Inv := by
  obtain ⟨e, he, hr⟩ | ⟨bs, hlen, hb, hr⟩ := runEncMatch_cases s <;> rw [hr]
  · exact h.raised .encMatch (by obtain rfl | rfl := he <;> decide)
  · exact h.append h.mem_wf hb fun _ => hlen

theorem State.Inv.encTerm (h : s.Inv) : (runEncTerm s).Inv := by
  obtain ⟨e, he, hr⟩ | ⟨hb, hr⟩ := runEncTerm_cases s <;> rw [hr]
  · exact h.raised .encTerm (by obtain rfl | rfl := he <;> decide)
  · exact h.append h.mem_wf hb (by simp)

theorem State.Inv.encQuery (h : s.Inv) : (runEncQuery s).Inv :=
  { h.finished h.mem_wf s.inPos s.outPos with }

theorem CoreResult.inv (h : s.Inv) (ht : CoreResult s t) : t.Inv := by
  cases ht with
  | idle => exact h
  | decoder hs ht => exact ht.inv h hs
  | brcCopy => exact h.brcCopy
  | encLit => exact h.encLit
  | encMatch => exact h.encMatch
  | encTerm => exact h.encTerm
  | encQuery => exact h.encQuery

/-! ### The host's actions -/

/-- A register write on an idle core clamps to the bound of its register (10_state.md R25, R26, R30, R31). -/
theorem State.Inv.registerWrite (h : s.Inv) (hp : s.phase = .idle) (r : Reg) (x : Word) : (s.writeReg r x).Inv := by
  have hle : ∀ {b}, b < 2 ^ 32 → (clampTo b x).toNat ≤ b := fun hb => by rw [clampTo_toNat hb]; omega
  cases r with
  | inLen => exact { h with inLen_le := hle (by decide), positions_le := by simp [hp, State.writeReg] }
  | outLen =>
    exact { h with
      outLen_le := hle (by decide)
      positions_le := by simp [hp, State.writeReg]
      loop_has_outLen := fun _ => rfl
      outLen_unset := by simp [State.writeReg] }
  | esrcLen => exact { h with esrcLen_le := hle (by decide) }
  | eoutCap => exact { h with eoutCap_le := hle (by decide) }
  | eoutPos => exact { h with eoutPos_le := hle (by decide), match_in_stream := by simp [State.writeReg] }
  | _ => exact { h with }

theorem State.Inv.bufWrite (h : s.Inv) (a : Nat) (x : Byte) : { s with mem := s.mem.write a x }.Inv :=
  { h with
    mem_wf := Memory.write_wf h.mem_wf a x
    output_written := fun hs i hi => Memory.isSome_write (h.output_written hs i hi) }

theorem decoding_uses_dst (hs : s.decoding) : s.uses .dst = true := by
  rcases hs with hs | hs <;> simp [State.uses, hs, Phase.command?, Command.buffers]

/-- `DST` keeps its window during a decode, which uses it (70_reset_and_hazards.md R233; log 8). -/
theorem State.Inv.attach (h : s.Inv) {b : Buffer} (w : Window) (hu : s.uses b = false) :
    { s with platform := s.platform.attach b w }.Inv :=
  { h with
    output_written := fun hs i hi => by
      have hdst : b ≠ .dst := by
        rintro rfl
        exact Bool.false_ne_true (hu.symm.trans (decoding_uses_dst hs))
      have haddr : { s with platform := s.platform.attach b w }.addr .dst i = s.addr .dst i := by
        simp only [State.addr, attach_window, if_neg hdst.symm]
      rw [haddr]
      exact h.output_written hs i hi }

theorem resetRegisters_inv (h : s.mem.wf) : (resetRegisters s).Inv := by
  constructor
  case mem_wf => exact h
  all_goals simp [State.reset]

/-- A reset meets the invariant from any memory in canonical form (70_reset_and_hazards.md R230 to R232). -/
theorem resetCore_inv (h : s.mem.wf) : (resetCore s).Inv := by
  unfold resetCore
  split
  · exact resetRegisters_inv h
  · exact resetRegisters_inv (Memory.forget_wf h ..)

/-- The invariant does not speak of the host's coming actions. -/
theorem State.Inv.withHost (h : s.Inv) (r : List HostAction) : { s with host := r }.Inv := { h with }

theorem HostResult.inv {a : HostAction} (h : s.Inv) (ht : HostResult s a t) : t.Inv := by
  cases ht with
  | core ht => exact ht.inv h
  | command x c => exact h.accepted c
  | register off x r hp => exact h.registerWrite hp r x
  | dropped => exact h
  | read addr width x n => exact { h with }
  | bufRead b off x n => exact { h with }
  | bufWrite b off x => exact h.bufWrite (s.addr b off) x
  | attach b w hu => exact h.attach w hu
  | reset => exact resetCore_inv h.mem_wf

/-- Settles O48. -/
theorem resetMeetsInvariant : Obligations.ResetMeetsInvariant :=
  resetRegisters_inv (s := State.reset) List.Pairwise.nil

/-- Settles O49, by what a step can do: the core step of the running command or the host's next action. -/
theorem stepKeepsInvariant : Obligations.StepKeepsInvariant := by
  intro s t h hstep
  rcases step_result hstep with ht | ⟨a, r, -, ht⟩
  · exact ht.inv h
  · exact ht.inv (h.withHost r)

end Sys2Proof.Machine
end

section
/-! The word `STATUS` field by field (10_state.md R24). -/

namespace Sys2Proof.Machine

/-- The field `DSTATE` reaches no bit below bit 16. -/
theorem field_low_statusWith (d d' : BitVec 3) (s : State) :
    field 0 16 (statusWith d s) = field 0 16 (statusWith d' s) := by
  refine BitVec.eq_of_getLsbD_eq fun i hi => ?_
  simp only [field, statusWith, BitVec.getLsbD_extractLsb', BitVec.getLsbD_append]
  have hlow : i - 1 - 1 - 1 - 1 - 4 - 4 < 4 := by omega
  simp [hlow]

/-- The field `DSTATE` reaches no bit above bit 18. -/
theorem field_high_statusWith (d d' : BitVec 3) (s : State) :
    field 19 13 (statusWith d s) = field 19 13 (statusWith d' s) := by
  simp (disch := omega) only [field, statusWith, BitVec.extractLsb'_append_eq_of_le, Nat.reduceSub]

/-- Settles O44: a field is found by taking the fields below it, then those above it, off the concatenation. -/
theorem statusFields : Obligations.StatusFields := by
  intro s
  have hbit : ∀ b : Bool, (BitVec.ofBool b).toNat = 1 ↔ b = true := by decide
  simp (disch := omega) only [statusWord, statusWith, field, BitVec.extractLsb'_append_eq_of_le,
    BitVec.extractLsb'_append_eq_of_add_le, BitVec.extractLsb'_eq_self, Nat.reduceSub]
  refine ⟨?busy, hbit _, hbit _, hbit _, rfl, ?code, rfl, trivial, rfl, ?kind, rfl⟩
  case busy => rw [hbit, busy_iff]
  case code =>
    intro e n hmem he
    rw [he]
    cases e <;> simp at hmem <;> subst hmem <;> rfl
  case kind =>
    intro k n hmem hk
    rw [hk]
    cases k <;> simp at hmem <;> subst hmem <;> rfl

end Sys2Proof.Machine
end

section
/-! The six commands as instructions (log 16): accepted by an idle core, without effect while another one runs. -/

namespace Sys2Proof.Machine

variable {s : State}

/-- The instruction of a command. -/
def Command.instr : Command → Instr
  | .decStart => .decStart
  | .brcCopy => .brcCopy
  | .encLit => .encLit
  | .encMatch => .encMatch
  | .encTerm => .encTerm
  | .encQuery => .encQuery

theorem exec_instr_idle (c : Command) (hp : s.phase = .idle) : exec c.instr s = .next (accept c s) := by
  cases c <;> exact commandStep_idle hp

theorem exec_instr_other (c : Command) (hp : s.phase ≠ .idle) (hc : s.phase ≠ c.firstPhase) :
    exec c.instr s = .next s := by
  cases c <;> exact commandStep_other hp hc

/-- The core steps of a decode are its tokens, so DEC_START itself has none (41_decoder.md R120). -/
theorem exec_decStart_busy (hp : s.phase ≠ .idle) : exec .decStart s = .next s := by
  by_cases hd : s.phase = .decFirst
  · exact commandStep_run hd
  · exact exec_instr_other .decStart hp hd

/-- Settles O33, command by command. -/
theorem commandsAreAccepted : Obligations.CommandsAreAccepted := by
  intro s
  have hcmd : ∀ c : Command, c ≠ .decStart →
      (s.phase = .idle → exec c.instr s = .next { s with
        done := false, err := false, errcode := .none, phase := c.firstPhase })
      ∧ (s.phase ≠ .idle → s.phase ≠ c.firstPhase → exec c.instr s = .next s) := by
    intro c hc
    refine ⟨fun hp => ?_, exec_instr_other c⟩
    rw [exec_instr_idle c hp]
    cases c with
    | decStart => exact absurd rfl hc
    | _ => rfl
  refine ⟨fun i p hmem => ?_, exec_instr_idle .decStart, exec_decStart_busy⟩
  simp only [List.mem_cons, Prod.mk.injEq, List.not_mem_nil, or_false] at hmem
  obtain ⟨rfl, rfl⟩ | ⟨rfl, rfl⟩ | ⟨rfl, rfl⟩ | ⟨rfl, rfl⟩ | ⟨rfl, rfl⟩ := hmem
  · exact hcmd .brcCopy (by decide)
  · exact hcmd .encLit (by decide)
  · exact hcmd .encMatch (by decide)
  · exact hcmd .encTerm (by decide)
  · exact hcmd .encQuery (by decide)

end Sys2Proof.Machine
end

section
/-! The host's accesses to the register block (10_state.md R22 to R32, R42 to R45), by the register they select. -/

namespace Sys2Proof.Machine

variable {s : State} {addr off width : Nat} {x : Word} {r : Reg} {rest : List HostAction}

/-! ### Offsets -/

/-- The offset of a register in the block (10_state.md R22). -/
def Reg.offset : Reg → Nat
  | .cmd => 0x00
  | .status => 0x04
  | .inLen => 0x08
  | .outLen => 0x0C
  | .inPos => 0x10
  | .outPos => 0x14
  | .brcPos => 0x18
  | .brcDist => 0x1C
  | .brcLen => 0x20
  | .esrcLen => 0x24
  | .eoutCap => 0x28
  | .eoutPos => 0x2C
  | .encLstart => 0x30
  | .encLlen => 0x34
  | .encMlen => 0x38
  | .encMdist => 0x3C
  | .encPlit => 0x40
  | .encQlen => 0x44

theorem Reg.at?_offset (r : Reg) : Reg.at? r.offset = some r := by cases r <;> rfl

theorem Reg.offset_of_at? (h : Reg.at? off = some r) : off = r.offset := by
  unfold Reg.at? at h
  split at h <;> cases h <;> rfl

theorem Reg.offset_bounds (r : Reg) : r.offset < 0x48 ∧ r.offset % 4 = 0 := by cases r <;> decide

theorem selectReg_offset (r : Reg) : selectReg r.offset 32 = some r := by
  rw [selectReg, if_pos ⟨rfl, r.offset_bounds.2⟩, r.at?_offset]

/-- An access of another width or alignment, or at a reserved offset, selects no register (10_state.md R42). -/
theorem selectReg_none (h : width ≠ 32 ∨ off % 4 ≠ 0 ∨ 0x48 ≤ off) : selectReg off width = none := by
  cases hr : selectReg off width with
  | none => rfl
  | some r =>
    obtain ⟨hw, hr⟩ := selectReg_eq_some hr
    have hoff := Reg.offset_of_at? hr
    have := r.offset_bounds
    omega

theorem blockOffset_offset (s : State) (r : Reg) : s.blockOffset (s.platform.regBase + r.offset) = some r.offset :=
  blockOffset_add s (by have := r.offset_bounds; omega)

/-! ### Writes -/

/-- A write that starts no command only writes. -/
theorem step_write_only {t : State} (h : s.host = .write addr width x :: rest)
    (hn : ∀ i, hostCommand addr width x { s with host := rest } ≠ some i)
    (ht : hostWrite addr width x { s with host := rest } = t) : step s = .next t := by
  rw [step_write h, Option.eq_none_iff_forall_ne_some.2 hn, ht]

theorem hostWrite_busy (hp : s.phase ≠ .idle) : hostWrite addr width x s = s := by
  have hb : s.busy = true := (busy_iff s).2 hp
  unfold hostWrite
  split
  · rfl
  split
  · rfl
  exact if_pos hb

theorem hostWrite_unselected (ho : off < 256) (h : selectReg off width = none) :
    hostWrite (s.platform.regBase + off) width x s = s := by
  simp only [hostWrite, blockOffset_add s ho, h]

theorem hostWrite_register (hp : s.phase = .idle) (r : Reg) :
    hostWrite (s.platform.regBase + r.offset) 32 x s = s.writeReg r x := by
  have hb := busy_eq_false hp
  simp [hostWrite, blockOffset_offset, selectReg_offset, hb]

theorem hostCommand_cmd {i : Instr} (hp : s.phase = .idle) (hx : decodeCommand x = .ok i) :
    hostCommand s.platform.regBase 32 x s = some i := by
  have hb := busy_eq_false hp
  have ho : s.blockOffset s.platform.regBase = some Reg.cmd.offset := blockOffset_offset s .cmd
  simp [hostCommand, hb, ho, selectReg_offset, hx]

/-- A write to a busy core is dropped (10_state.md R23, R43). -/
theorem step_write_busy (h : s.host = .write addr width x :: rest) (hp : s.phase ≠ .idle) :
    step s = .next { s with host := rest } :=
  step_write_only h (fun _ hi => hp (hostCommand_eq_some hi).1) (hostWrite_busy hp)

/-- A write to a register other than `CMD` of an idle core is that register's. -/
theorem step_write_register (r : Reg) (h : s.host = .write (s.platform.regBase + r.offset) 32 x :: rest)
    (hp : s.phase = .idle) (hr : r ≠ .cmd) : step s = .next ({ s with host := rest }.writeReg r x) := by
  refine step_write_only h (fun i hi => ?_) (hostWrite_register (s := { s with host := rest }) hp r)
  obtain ⟨-, hbase, -⟩ := hostCommand_eq_some hi
  have hzero : r.offset = 0 := by simpa using hbase
  have hcmd : Reg.at? 0 = some r := hzero ▸ r.at?_offset
  exact hr (Option.some.inj hcmd).symm

/-- A write of a defined `OP` to `CMD` of an idle core runs its command (10_state.md R23). -/
theorem step_write_command {i : Instr} (h : s.host = .write s.platform.regBase 32 x :: rest) (hp : s.phase = .idle)
    (hx : decodeCommand x = .ok i) : step s = exec i { s with host := rest } := by
  have hc : hostCommand s.platform.regBase 32 x { s with host := rest } = some i :=
    hostCommand_cmd (s := { s with host := rest }) hp hx
  rw [step_write h, hc]

/-- A write of a reserved `OP` to `CMD` changes nothing (10_state.md R23). -/
theorem step_write_reserved {j : Reject} (h : s.host = .write s.platform.regBase 32 x :: rest)
    (hx : decodeCommand x = .reject j) : step s = .next { s with host := rest } := by
  by_cases hp : s.phase = .idle
  · refine step_write_only h (fun i hi => ?_) (hostWrite_register (s := { s with host := rest }) hp .cmd)
    obtain ⟨-, -, -, hi, -⟩ := hostCommand_eq_some hi
    cases hx.symm.trans hi
  · exact step_write_busy h hp

/-! ### Reads -/

theorem hostRead_register (r : Reg) : hostRead (s.platform.regBase + r.offset) 32 s = readReg r s := by
  simp only [hostRead, blockOffset_offset, selectReg_offset]

theorem hostRead_unselected (ho : off < 256) (h : selectReg off width = none) :
    hostRead (s.platform.regBase + off) width s = { s with rdata := 0 } := by
  simp only [hostRead, blockOffset_add s ho, h]

theorem step_read_register (r : Reg) (h : s.host = .read (s.platform.regBase + r.offset) 32 :: rest) :
    step s = .next (readReg r { s with host := rest }) :=
  (step_hostRead h).trans (congrArg _ (hostRead_register r))

/-! ### The `OP` values of `CMD` -/

/-- The value of `CMD.OP` that starts a command (10_state.md R23). -/
def Command.op : Command → Nat
  | .decStart => 1
  | .brcCopy => 2
  | .encLit => 3
  | .encMatch => 4
  | .encTerm => 5
  | .encQuery => 6

theorem decodeCommand_of_op (c : Command) (hn : (field 0 4 x).toNat = c.op) : decodeCommand x = .ok c.instr := by
  cases c <;> simp [decodeCommand, hn, Command.op, Command.instr]

theorem decodeCommand_reserved (h : (field 0 4 x).toNat = 0 ∨ 7 ≤ (field 0 4 x).toNat) :
    decodeCommand x = .reject .reservedCommand := by
  unfold decodeCommand
  split
  case h_7 => rfl
  all_goals omega

/-- A write of a command's `OP` to `CMD` of an idle core accepts the command. -/
theorem step_write_accepts (c : Command) (h : s.host = .write s.platform.regBase 32 x :: rest) (hp : s.phase = .idle)
    (hn : (field 0 4 x).toNat = c.op) : step s = .next (accept c { s with host := rest }) :=
  (step_write_command h hp (decodeCommand_of_op c hn)).trans (exec_instr_idle c hp)

/-! ### The obligations -/

/-- Settles O42: no write to a busy core starts a command, and none is stored. -/
theorem busyWritesAreDropped : Obligations.BusyWritesAreDropped := fun _ _ _ _ _ hp h => step_write_busy h hp

/-- Settles O43: such an access selects no register, so it starts no command either. -/
theorem oddAccessesDoNothing : Obligations.OddAccessesDoNothing := by
  intro s off width x rest ho hodd
  have hs := selectReg_none hodd
  refine ⟨fun h => step_write_only h (fun i hi => ?_) (hostWrite_unselected ho hs),
    fun h => (step_hostRead h).trans (congrArg _ (hostRead_unselected ho hs))⟩
  obtain ⟨-, hbase, hwidth, -⟩ := hostCommand_eq_some hi
  have hzero : off = 0 := by simpa using hbase
  omega

/-- Settles O27, by the `OP` values. -/
theorem cmdWriteAcceptsCommand : Obligations.CmdWriteAcceptsCommand := by
  intro s w rest
  refine ⟨fun h => ⟨?ignored, fun hp hn => step_write_accepts .decStart h hp hn, fun n p hmem hp hn => ?accepted⟩,
    fun h => step_read_register .cmd h⟩
  case ignored =>
    rintro (hp | hn)
    · exact step_write_busy h hp
    · exact step_write_reserved h (decodeCommand_reserved hn)
  case accepted =>
    simp only [List.mem_cons, Prod.mk.injEq, List.not_mem_nil, or_false] at hmem
    obtain ⟨rfl, rfl⟩ | ⟨rfl, rfl⟩ | ⟨rfl, rfl⟩ | ⟨rfl, rfl⟩ | ⟨rfl, rfl⟩ := hmem
    · exact step_write_accepts .brcCopy h hp hn
    · exact step_write_accepts .encLit h hp hn
    · exact step_write_accepts .encMatch h hp hn
    · exact step_write_accepts .encTerm h hp hn
    · exact step_write_accepts .encQuery h hp hn

/-- Settles O41, register by register. -/
theorem registerWritesStore : Obligations.RegisterWritesStore := by
  intro s off x rest hp h
  have hstore : ∀ r : Reg, r ≠ .cmd → off = r.offset →
      step s = .next ({ s with host := rest }.writeReg r x) := by
    rintro r hr rfl
    exact step_write_register r h hp hr
  refine ⟨hstore .status (by decide), ?readOnly, hstore .inLen (by decide), hstore .outLen (by decide),
    hstore .brcPos (by decide), hstore .brcDist (by decide), hstore .brcLen (by decide), hstore .esrcLen (by decide),
    hstore .eoutCap (by decide), hstore .eoutPos (by decide), hstore .encLstart (by decide),
    hstore .encLlen (by decide), hstore .encMlen (by decide), hstore .encMdist (by decide),
    hstore .encPlit (by decide)⟩
  rintro (ho | ho | ho)
  · exact hstore .inPos (by decide) ho
  · exact hstore .outPos (by decide) ho
  · exact hstore .encQlen (by decide) ho

/-- Settles O45, register by register; what a busy core keeps from a read of `STATUS` is its `DSTATE` field alone. -/
theorem readsReturnRegisters : Obligations.ReadsReturnRegisters := by
  intro s off rest h
  have hread : ∀ r : Reg, off = r.offset → step s = .next (readReg r { s with host := rest }) := by
    rintro r rfl
    exact step_read_register r h
  have hidle : ∀ r : Reg, off = r.offset → s.phase = .idle →
      step s = .next { s with host := rest, rdata := s.reg r } := fun r ho hp =>
    (hread r ho).trans (congrArg _ (readReg_idle r hp))
  have hbusy : ∀ r : Reg, off = r.offset →
      ∃ x n, step s = .next { s with host := rest, rdata := x, freeCount := n } := fun r ho => by
    obtain ⟨x, n, hx⟩ := readReg_eq r { s with host := rest }
    exact ⟨x, n, (hread r ho).trans (congrArg _ hx)⟩
  refine ⟨fun v hv => ?anyTime, fun v hv => ?position, fun ho => ⟨hidle .status ho, fun hp => ?status⟩⟩
  case anyTime =>
    simp only [List.mem_cons, Prod.mk.injEq, List.not_mem_nil, or_false] at hv
    obtain ⟨ho, rfl⟩ | ⟨ho, rfl⟩ | ⟨ho, rfl⟩ | ⟨ho, rfl⟩ | ⟨ho, rfl⟩ | ⟨ho, rfl⟩ | ⟨ho, rfl⟩ | ⟨ho, rfl⟩ | ⟨ho, rfl⟩
      | ⟨ho, rfl⟩ | ⟨ho, rfl⟩ | ⟨ho, rfl⟩ | ⟨ho, rfl⟩ | ⟨ho, rfl⟩ := hv
    exacts [hread .cmd ho, hread .inLen ho, hread .outLen ho, hread .brcPos ho, hread .brcDist ho, hread .brcLen ho,
      hread .esrcLen ho, hread .eoutCap ho, hread .encLstart ho, hread .encLlen ho, hread .encMlen ho,
      hread .encMdist ho, hread .encPlit ho, hread .encQlen ho]
  case position =>
    simp only [List.mem_cons, Prod.mk.injEq, List.not_mem_nil, or_false] at hv
    obtain ⟨ho, rfl⟩ | ⟨ho, rfl⟩ | ⟨ho, rfl⟩ := hv
    · exact ⟨hidle .inPos ho, fun _ => hbusy .inPos ho⟩
    · exact ⟨hidle .outPos ho, fun _ => hbusy .outPos ho⟩
    · exact ⟨hidle .eoutPos ho, fun _ => hbusy .eoutPos ho⟩
  case status =>
    have hb : s.busy = true := (busy_iff s).2 hp
    refine ⟨_, _, (hread .status ho).trans (congrArg _ (if_pos hb)), ?_, ?_⟩
    · exact field_low_statusWith ..
    · exact field_high_statusWith ..

end Sys2Proof.Machine
end

section
/-! The core step (10_state.md R46, R47): what it fetches, and that it does not depend on the host's coming actions. -/

namespace Sys2Proof.Machine

variable {s : State}

theorem tokenFetch_ok {i : Instr} {n : Nat} (h : decodeToken s.context s.streamBytes = .ok (i, n)) :
    tokenFetch s = .run i (afterToken n s) := by
  rw [tokenFetch, h]
  rfl

/-- Past the first step's checks every decoder phase fetches the token at `IN_POS` (41_decoder.md R121, R122). -/
theorem phaseFetch_token (h : s.phase = .decLoop ∨ s.phase = .decFirst ∧ s.olset = true ∧ s.inLen ≠ 0) :
    phaseFetch s = tokenFetch s := by
  obtain hp | ⟨hp, hset, hlen⟩ := h
  · simp only [phaseFetch, hp]
  · simp only [phaseFetch, hp, firstFetch, hset, reduceCtorEq, if_false, if_neg hlen]

/-- The context that `DSTATE` selects after the first token (10_state.md R36, R41). -/
theorem context_loop (hp : s.phase = .decLoop) :
    (s.dstate.toNat = 0 → s.context = .state0)
    ∧ (1 ≤ s.dstate.toNat → s.dstate.toNat ≤ 3 → s.context = .state123)
    ∧ (s.dstate.toNat = 4 → s.context = .state4) := by
  simp only [State.context, hp, reduceCtorEq, if_false, ← BitVec.toNat_inj, BitVec.reduceToNat]
  refine ⟨fun h => ?_, fun h h' => ?_, fun h => ?_⟩
  · rw [if_pos (by omega)]
  · rw [if_neg (by omega), if_pos (by omega)]
  · rw [if_neg (by omega), if_neg (by omega)]

theorem streamBytes_getElem? {i : Nat} (hi : i < s.inLen.toNat - s.inPos.toNat) :
    s.streamBytes[i]? = some (s.byteAt .src (s.inPos.toNat + i)) := by
  have hlen : i < s.streamBytes.length := (streamBytes_length s).symm ▸ hi
  rw [List.getElem?_eq_getElem hlen, ← List.getD_eq_getElem _ 0 hlen]
  exact congrArg some (bytesFrom_getD _ _ _ _ hi 0)

/-- Settles O37: the token or the command that the phase fetches, the command that a `CMD` write starts, the context
and the bytes. -/
theorem stepRunsInstruction : Obligations.StepRunsInstruction := by
  intro s
  refine ⟨fun hh ha => ?_, fun w i rest h hp hw => step_write_command h hp hw, fun hp => if_pos hp, context_loop,
    streamBytes_length s, fun i hi => streamBytes_getElem? hi⟩
  have hstep : step s = (phaseFetch s).outcome :=
    (step_core hh).trans (coreStep_phase (attached_overBound ha) (attached_overlap ha))
  refine ⟨fun i n hp htok => ?token, fun p i hmem hp => ?command⟩
  case token => rw [hstep, phaseFetch_token hp, tokenFetch_ok htok]; rfl
  case command =>
    rw [hstep]
    simp only [List.mem_cons, Prod.mk.injEq, List.not_mem_nil, or_false] at hmem
    obtain ⟨rfl, rfl⟩ | ⟨rfl, rfl⟩ | ⟨rfl, rfl⟩ | ⟨rfl, rfl⟩ | ⟨rfl, rfl⟩ := hmem <;>
      simp only [phaseFetch, hp, Fetched.outcome]

theorem coreStep_idle (hp : s.phase = .idle) : coreStep s = .next s := by
  have hb : s.overBound = none := by simp [State.overBound, hp, Phase.command?]
  have hv : s.overlap = none := by simp [State.overlap, hp, Phase.command?]
  exact (coreStep_command hb hv).1 hp

/-- Settles O40: an idle core's step, and a core step's independence of the host's coming actions. -/
theorem idleCoreWaits : Obligations.IdleCoreWaits := by
  intro s rest
  refine ⟨fun hp hh => (step_core hh).trans (coreStep_idle hp), fun h => ⟨fun hp => ?idle, ?_⟩⟩
  case idle => exact (step_coreAction h).trans (coreStep_idle (s := { s with host := rest }) hp)
  have halone : step { s with host := [] } = withHost [] (coreStep s) :=
    (step_core rfl).trans (coreStep_withHost [] s)
  have hstep : step s = withHost rest (coreStep s) := (step_coreAction h).trans (coreStep_withHost rest s)
  rw [halone, hstep]
  cases coreStep s <;> simp [withHost]

end Sys2Proof.Machine
end

section
/-! Whole-machine rules about single fields: the positions of a decode, and who writes `OLSET` and `ENC_LAST`. -/

namespace Sys2Proof.Machine

variable {s t : State}

/-! ### The positions of a decode (10_state.md R33, R34) -/

theorem DecoderStep.outPos_le (ht : DecoderStep s t) : t.phase = .idle ∨ s.outPos.toNat ≤ t.outPos.toNat := by
  cases ht with
  | failed e => exact .inl (raise_phase ..)
  | done n => exact .inl (finish_phase _)
  | literals n k d h1 hn hd ho =>
    have hout : (word (s.outPos.toNat + k)).toNat = s.outPos.toNat + k := word_toNat_of_le ho
    exact .inr (by omega : s.outPos.toNat ≤ (word (s.outPos.toNat + k)).toNat)
  | matched n len dist k h1 hn hd hp ho =>
    have hout : (word (s.outPos.toNat + len + k.toNat)).toNat = s.outPos.toNat + len + k.toNat := word_toNat_of_le ho
    exact .inr (by omega : s.outPos.toNat ≤ (word (s.outPos.toNat + len + k.toNat)).toNat)

/-- Settles O50: `IN_POS` by what a decoder step does, the bound of `OUT_POS` by the invariant. -/
theorem decodeAdvancesOrEnds : Obligations.DecodeAdvancesOrEnds := by
  intro s t h hh hd hstep
  have ht : DecoderStep s t := decoder_step_next hd (step_core hh ▸ hstep)
  obtain hidle | hgo := decoderStep_ends_or_goesOn ht
  · exact .inl hidle
  obtain hidle | hout := ht.outPos_le
  · exact .inl hidle
  obtain ⟨hin, hbound⟩ := (ht.inv h hd).positions_le (.inr hgo.phase)
  exact .inr ⟨hgo.phase, hgo.inPos_lt, hin, hout, hbound⟩

/-! ### `OLSET` and `ENC_LAST`: what leaves them -/

theorem DecoderStep.keeps_marks (ht : DecoderStep s t) : t.olset = s.olset ∧ t.encLast = s.encLast := by
  cases ht with
  | failed e => simp
  | done | literals | matched => exact ⟨rfl, rfl⟩

theorem runBrcCopy_keeps_marks (s : State) :
    (runBrcCopy s).olset = s.olset ∧ (runBrcCopy s).encLast = s.encLast := by
  obtain ⟨e, -, h⟩ | ⟨-, h⟩ := runBrcCopy_cases s <;> simp [h]

/-- The end of an encoder command: `OLSET` stays, and `ENC_LAST` too unless the command has appended its bytes. -/
def EncoderEnd (last : EncLast) (s t : State) : Prop :=
  t.olset = s.olset ∧ (t.encLast = s.encLast ∨ t.encLast = last ∧ t.done = true)

theorem encoderEnd_finish (last : EncLast) (s : State) : EncoderEnd last s (finish s) := ⟨rfl, .inl rfl⟩

theorem encoderEnd_raise (last : EncLast) (c : Command) (e : ErrCode) (s : State) :
    EncoderEnd last s (raise c e s) := by simp [EncoderEnd]

theorem encoderEnd_appended (last : EncLast) (m : Memory) (bs : List Byte) (s : State) :
    EncoderEnd last s (appended last m bs s) := ⟨rfl, .inr ⟨rfl, rfl⟩⟩

theorem runEncLit_end (s : State) : EncoderEnd .literal s (runEncLit s) := by
  obtain h | ⟨e, -, h⟩ | ⟨bs, -, h⟩ | ⟨-, -, -, h⟩ := runEncLit_cases s <;> rw [h]
  · exact encoderEnd_finish ..
  · exact encoderEnd_raise ..
  · exact encoderEnd_appended ..
  · exact encoderEnd_appended ..

theorem runEncMatch_end (s : State) : EncoderEnd .matched s (runEncMatch s) := by
  obtain ⟨e, -, h⟩ | ⟨bs, -, -, h⟩ := runEncMatch_cases s <;> rw [h]
  · exact encoderEnd_raise ..
  · exact encoderEnd_appended ..

theorem runEncTerm_end (s : State) : EncoderEnd .terminated s (runEncTerm s) := by
  obtain ⟨e, -, h⟩ | ⟨-, h⟩ := runEncTerm_cases s <;> rw [h]
  · exact encoderEnd_raise ..
  · exact encoderEnd_appended ..

/-! ### `OLSET` (10_state.md R24, R26) -/

theorem CoreResult.olset (ht : CoreResult s t) : t.olset = s.olset := by
  cases ht with
  | idle => rfl
  | decoder hd ht => exact ht.keeps_marks.1
  | brcCopy => exact (runBrcCopy_keeps_marks s).1
  | encLit => exact (runEncLit_end s).1
  | encMatch => exact (runEncMatch_end s).1
  | encTerm => exact (runEncTerm_end s).1
  | encQuery => rfl

theorem resetCore_marks (s : State) : (resetCore s).olset = false ∧ (resetCore s).encLast = .none := by
  unfold resetCore
  split <;> exact ⟨rfl, rfl⟩

theorem writeReg_olset (s : State) (r : Reg) (x : Word) (hr : r ≠ .outLen) : (s.writeReg r x).olset = s.olset := by
  cases r with
  | outLen => exact absurd rfl hr
  | _ => rfl

theorem writeReg_encLast (s : State) (r : Reg) (x : Word) (hr : r ≠ .eoutPos) :
    (s.writeReg r x).encLast = s.encLast := by
  cases r with
  | eoutPos => exact absurd rfl hr
  | _ => rfl

theorem HostResult.olset {a : HostAction} (ht : HostResult s a t) (hne : t.olset ≠ s.olset) :
    (∃ x, a = .write (s.platform.regBase + 0x0C) 32 x ∧ s.phase = .idle ∧ t.olset = true)
    ∨ a = .reset ∧ t.olset = false := by
  cases ht with
  | core ht => exact absurd ht.olset hne
  | command x c => exact absurd (accept_olset s c) hne
  | register off x r hp hr =>
    by_cases hout : r = .outLen
    · subst hout
      obtain rfl := Reg.offset_of_at? hr
      exact .inl ⟨x, rfl, hp, rfl⟩
    · exact absurd (writeReg_olset s r x hout) hne
  | dropped | read | bufWrite | bufRead | attach => exact absurd rfl hne
  | reset => exact .inr ⟨rfl, (resetCore_marks s).1⟩

/-- Settles O56, by what a step can do. -/
theorem olsetChangesOnlyByHost : Obligations.OlsetChangesOnlyByHost := by
  intro s t hstep hne
  obtain ht | ⟨a, r, hh, ht⟩ := step_result hstep
  · exact absurd ht.olset hne
  obtain ⟨x, rfl, hp, hset⟩ | ⟨rfl, hset⟩ := ht.olset hne
  · exact .inl ⟨x, r, hh, hp, hset⟩
  · exact .inr ⟨r, hh, hset⟩

/-! ### `ENC_LAST` (10_state.md R38) -/

/-- An encoder command that has succeeded in its core step left its own kind. -/
def EncoderWrote (s t : State) : Prop :=
  (t.encLast = .literal ∧ s.phase = .encLitRun ∧ t.done = true)
  ∨ (t.encLast = .matched ∧ s.phase = .encMatchRun ∧ t.done = true)
  ∨ (t.encLast = .terminated ∧ s.phase = .encTermRun ∧ t.done = true)

theorem CoreResult.encLast (ht : CoreResult s t) (hne : t.encLast ≠ s.encLast) : EncoderWrote s t := by
  cases ht with
  | idle => exact absurd rfl hne
  | decoder hd ht => exact absurd ht.keeps_marks.2 hne
  | brcCopy => exact absurd (runBrcCopy_keeps_marks s).2 hne
  | encLit hp =>
    obtain ⟨hlast, hdone⟩ := (runEncLit_end s).2.resolve_left hne
    exact .inl ⟨hlast, hp, hdone⟩
  | encMatch hp =>
    obtain ⟨hlast, hdone⟩ := (runEncMatch_end s).2.resolve_left hne
    exact .inr (.inl ⟨hlast, hp, hdone⟩)
  | encTerm hp =>
    obtain ⟨hlast, hdone⟩ := (runEncTerm_end s).2.resolve_left hne
    exact .inr (.inr ⟨hlast, hp, hdone⟩)
  | encQuery => exact absurd rfl hne

theorem HostResult.encLast {a : HostAction} (ht : HostResult s a t) (hne : t.encLast ≠ s.encLast) :
    (t.encLast = .none ∧ ∃ x, a = .write (s.platform.regBase + 0x2C) 32 x ∧ s.phase = .idle)
    ∨ EncoderWrote s t
    ∨ t.encLast = .none ∧ a = .reset := by
  cases ht with
  | core ht => exact .inr (.inl (ht.encLast hne))
  | command x c => exact absurd (accept_encLast s c) hne
  | register off x r hp hr =>
    by_cases hpos : r = .eoutPos
    · subst hpos
      obtain rfl := Reg.offset_of_at? hr
      exact .inl ⟨rfl, x, rfl, hp⟩
    · exact absurd (writeReg_encLast s r x hpos) hne
  | dropped | read | bufWrite | bufRead | attach => exact absurd rfl hne
  | reset => exact .inr (.inr ⟨(resetCore_marks s).2, rfl⟩)

theorem step_encLast (hstep : step s = .next t) (hne : t.encLast ≠ s.encLast) :
    (t.encLast = .none ∧ ∃ x rest, s.host = .write (s.platform.regBase + 0x2C) 32 x :: rest ∧ s.phase = .idle)
    ∨ EncoderWrote s t
    ∨ (t.encLast = .none ∧ ∃ rest, s.host = .reset :: rest) := by
  obtain ht | ⟨a, r, hh, ht⟩ := step_result hstep
  · exact .inr (.inl (ht.encLast hne))
  obtain ⟨hlast, x, rfl, hp⟩ | h | ⟨hlast, rfl⟩ := ht.encLast hne
  · exact .inl ⟨hlast, x, r, hh, hp⟩
  · exact .inr (.inl h)
  · exact .inr (.inr ⟨hlast, r, hh⟩)

/-- Settles O57, by what a step can do. -/
theorem encLastWriters : Obligations.EncLastWriters := by
  intro s t hstep hne
  obtain h | (h | h | h) | h := step_encLast hstep hne
  · exact .inl h
  · exact .inr (.inl h)
  · exact .inr (.inr (.inl h))
  · exact .inr (.inr (.inr (.inl h)))
  · exact .inr (.inr (.inr (.inr h)))

end Sys2Proof.Machine
end

section
/-! What a core step writes (20_memory.md R60, R61, R71; 10_state.md R27, R28): the registers of its unit, and of the
memory its buffer below the bounding register. -/

namespace Sys2Proof.Machine

variable {s t : State} {a : Nat}

theorem overlaps_comm (v w : Window) : v.overlaps w = w.overlaps v := by
  rw [Window.overlaps, Window.overlaps, max_comm, min_comm]

/-- An address of one of two disjoint buffers lies outside the other (20_memory.md R72). -/
theorem outside_of_disjoint {b c : Buffer} (h : (s.platform.window b).overlaps (s.platform.window c) = false) {i : Nat}
    (hi : i < s.platform.size b) : s.addr b i < s.addr c 0 ∨ s.addr c (s.platform.size c) ≤ s.addr b i := by
  by_contra hin
  simp only [State.addr, Platform.size] at hin hi
  exact overlaps_eq_false h hi (j := (s.platform.window b).base + i - (s.platform.window c).base)
    (by omega) (by omega)

/-! ### The decode -/

/-- A decode writes no register but the positions, `DSTATE` and the end flags. -/
theorem DecoderStep.fields (ht : DecoderStep s t) : t = { s with
    phase := t.phase, done := t.done, err := t.err, errcode := t.errcode, dstate := t.dstate, inPos := t.inPos
    outPos := t.outPos, mem := t.mem } := by
  cases ht <;> rfl

/-- A decode writes `DST` below `OUT_LEN`. -/
theorem DecoderStep.cell_outside (ht : DecoderStep s t)
    (h : a < s.addr .dst 0 ∨ s.addr .dst s.outLen.toNat ≤ a) : t.cell a = s.cell a := by
  simp only [State.addr] at h
  cases ht with
  | failed e => exact raise_cell ..
  | done n => rfl
  | literals n k d h1 hn hd ho =>
    rw [afterLiterals_cell, if_neg]
    · rfl
    · simp only [afterToken, State.addr]; omega
  | matched n len dist k h1 hn hd hp ho =>
    rw [afterMatch_cell, if_neg, matchCopy_outside]
    · rfl
    · simp only [afterToken, State.addr]; omega
    · simp only [afterToken, State.addr]; omega

/-- A decoder step that answers a next state has its host's duties towards `SRC` and `DST` kept. -/
theorem decoding_duties (hd : s.decoding) (hstep : coreStep s = .next t) : s.attachedFor .decStart :=
  attached_iff.2 (coreStep_next_duties hstep) _ (by rcases hd with hd | hd <;> simp [hd, Phase.command?])

/-- A decode does not write `SRC`. -/
theorem decoding_keeps_src (hd : s.decoding) (hstep : coreStep s = .next t) {i : Nat} (hi : i < s.platform.size .src) :
    t.cell (s.addr .src i) = s.cell (s.addr .src i) := by
  obtain ⟨-, hdst, hdisj⟩ := decoding_duties hd hstep
  refine (decoder_step_next hd hstep).cell_outside ?_
  have hout := outside_of_disjoint (b := .src) (c := .dst) hdisj hi
  simp only [State.addr] at hout ⊢
  omega

/-! ### BRC_COPY -/

theorem runBrcCopy_fields (s : State) : runBrcCopy s = { s with
    phase := (runBrcCopy s).phase, done := (runBrcCopy s).done, err := (runBrcCopy s).err
    errcode := (runBrcCopy s).errcode, mem := (runBrcCopy s).mem } := by
  obtain ⟨e, -, h⟩ | ⟨-, h⟩ := runBrcCopy_cases s <;> rw [h] <;> rfl

/-- BRC_COPY writes `DST` below `OUT_LEN`. -/
theorem runBrcCopy_cell_outside (h : a < s.addr .dst 0 ∨ s.addr .dst s.outLen.toNat ≤ a) :
    (runBrcCopy s).cell a = s.cell a := by
  obtain ⟨e, -, hr⟩ | ⟨hb, hr⟩ := runBrcCopy_cases s <;> rw [hr]
  · exact raise_cell ..
  · exact Memory.read_copyBack_outside _ _ _ _ _ (by simp only [State.addr] at h ⊢; omega)

/-! ### The encoder commands -/

/-- What ENC_LIT, ENC_MATCH and ENC_TERM answer: an end that writes no buffer, or an append within `EOUT_CAP` to a memory
that is the old one but for bytes of `EOUT` below `EOUT_CAP`. -/
inductive EncoderResult (s : State) : State → Prop where
  | done : EncoderResult s (finish s)
  | failed (c : Command) (e : ErrCode) (hc : c ≠ .decStart) : EncoderResult s (raise c e s)
  | appended (last : EncLast) (m : Memory) (bs : List Byte) (hb : s.eoutPos.toNat + bs.length ≤ s.eoutCap.toNat)
      (hm : ∀ a, a < s.addr .eout 0 ∨ s.addr .eout s.eoutCap.toNat ≤ a → { s with mem := m }.cell a = s.cell a) :
      EncoderResult s (appended last m bs s)

/-- The byte that the OR form changes stands before the appended literals, of which there is one at least. -/
theorem orTrailing_outside (hn : s.encLlen.toNat ≠ 0) (hb : s.eoutPos.toNat + s.encLlen.toNat ≤ s.eoutCap.toNat)
    (h : a < s.addr .eout 0 ∨ s.addr .eout s.eoutCap.toNat ≤ a) :
    { s with mem := orTrailing s.encLlen.toNat s }.cell a = s.cell a :=
  Memory.read_write_other _ _ _ (by simp only [State.addr] at h ⊢; omega)

theorem runEncLit_result (s : State) : EncoderResult s (runEncLit s) := by
  by_cases hn : s.encLlen.toNat = 0
  · have h : runEncLit s = finish s := if_pos hn
    exact h ▸ .done
  obtain h | ⟨e, -, h⟩ | ⟨bs, hb, h⟩ | ⟨-, -, hb, h⟩ := runEncLit_cases s <;> rw [h]
  · exact .done
  · exact .failed .encLit e (by decide)
  · exact .appended .literal s.mem bs hb fun _ _ => rfl
  · exact .appended .literal _ _ hb fun a ha => orTrailing_outside hn (runLiterals_length s ▸ hb) ha

theorem runEncMatch_result (s : State) : EncoderResult s (runEncMatch s) := by
  obtain ⟨e, -, h⟩ | ⟨bs, -, hb, h⟩ := runEncMatch_cases s <;> rw [h]
  · exact .failed .encMatch e (by decide)
  · exact .appended .matched s.mem bs hb fun _ _ => rfl

theorem runEncTerm_result (s : State) : EncoderResult s (runEncTerm s) := by
  obtain ⟨e, -, h⟩ | ⟨hb, h⟩ := runEncTerm_cases s <;> rw [h]
  · exact .failed .encTerm e (by decide)
  · exact .appended .terminated s.mem termBytes hb fun _ _ => rfl

/-- An encoder command writes no register but `EOUT_POS`, `ENC_LAST` and the end flags. -/
theorem EncoderResult.fields (ht : EncoderResult s t) : t = { s with
    phase := t.phase, done := t.done, err := t.err, errcode := t.errcode, encLast := t.encLast, eoutPos := t.eoutPos
    mem := t.mem } := by
  cases ht with
  | done | appended => rfl
  | failed c e hc =>
    cases c with
    | decStart => exact absurd rfl hc
    | _ => rfl

/-- An encoder command writes `EOUT` below `EOUT_CAP`. -/
theorem EncoderResult.cell_outside (ht : EncoderResult s t)
    (h : a < s.addr .eout 0 ∨ s.addr .eout s.eoutCap.toNat ≤ a) : t.cell a = s.cell a := by
  cases ht with
  | done => exact finish_cell ..
  | failed c e => exact raise_cell ..
  | appended last m bs hb hm =>
    refine (store_cell s m .eout s.eoutPos.toNat bs a).trans ((if_neg ?_).trans (hm a h))
    simp only [State.addr] at h ⊢
    omega

/-! ### The core step -/

theorem CoreResult.encoder (ht : CoreResult s t)
    (hp : s.phase = .encLitRun ∨ s.phase = .encMatchRun ∨ s.phase = .encTermRun) : EncoderResult s t := by
  cases ht with
  | encLit => exact runEncLit_result s
  | encMatch => exact runEncMatch_result s
  | encTerm => exact runEncTerm_result s
  | decoder hd => rcases hd with hd | hd <;> simp [hd] at hp
  | idle h | brcCopy h | encQuery h => simp [h] at hp

/-- A core step writes no register of the host's: no operand, no bound (10_state.md R27, R28). -/
theorem CoreResult.fields (ht : CoreResult s t) : t = { s with
    phase := t.phase, done := t.done, err := t.err, errcode := t.errcode, encLast := t.encLast, dstate := t.dstate
    inPos := t.inPos, outPos := t.outPos, eoutPos := t.eoutPos, encQlen := t.encQlen, mem := t.mem } := by
  cases ht with
  | idle | encQuery => rfl
  | decoder hd ht => rw [ht.fields]
  | brcCopy => rw [runBrcCopy_fields]
  | encLit => rw [(runEncLit_result s).fields]
  | encMatch => rw [(runEncMatch_result s).fields]
  | encTerm => rw [(runEncTerm_result s).fields]

theorem CoreResult.encQlen (ht : CoreResult s t) (hp : s.phase ≠ .encQueryRun) : t.encQlen = s.encQlen := by
  cases ht with
  | idle => rfl
  | decoder hd ht => rw [ht.fields]
  | brcCopy => rw [runBrcCopy_fields]
  | encLit => rw [(runEncLit_result s).fields]
  | encMatch => rw [(runEncMatch_result s).fields]
  | encTerm => rw [(runEncTerm_result s).fields]
  | encQuery h => exact absurd h hp

/-- A command that is no decode leaves the positions and `DSTATE`. -/
theorem CoreResult.positions (ht : CoreResult s t) (hd : ¬s.decoding) :
    t.inPos = s.inPos ∧ t.outPos = s.outPos ∧ t.dstate = s.dstate := by
  cases ht with
  | idle | encQuery => exact ⟨rfl, rfl, rfl⟩
  | decoder hd' => exact absurd hd' hd
  | brcCopy => rw [runBrcCopy_fields]; exact ⟨rfl, rfl, rfl⟩
  | encLit => rw [(runEncLit_result s).fields]; exact ⟨rfl, rfl, rfl⟩
  | encMatch => rw [(runEncMatch_result s).fields]; exact ⟨rfl, rfl, rfl⟩
  | encTerm => rw [(runEncTerm_result s).fields]; exact ⟨rfl, rfl, rfl⟩

/-- A decode and BRC_COPY write `DST` below `OUT_LEN`, and no register of the encoder. -/
theorem CoreResult.writes_dst (ht : CoreResult s t) (hp : s.decoding ∨ s.phase = .brcRun) :
    (∀ a, a < s.addr .dst 0 ∨ s.addr .dst s.outLen.toNat ≤ a → t.cell a = s.cell a)
    ∧ t.eoutPos = s.eoutPos ∧ t.encLast = s.encLast := by
  cases ht with
  | decoder hd ht =>
    exact ⟨fun a ha => ht.cell_outside ha, by rw [ht.fields], by rw [ht.fields]⟩
  | brcCopy =>
    exact ⟨fun a ha => runBrcCopy_cell_outside ha, by rw [runBrcCopy_fields], by rw [runBrcCopy_fields]⟩
  | idle h | encLit h | encMatch h | encTerm h | encQuery h => simp [State.decoding, h] at hp

theorem CoreResult.keeps_mem (ht : CoreResult s t) (hp : s.phase = .encQueryRun ∨ s.phase = .idle) : t.mem = s.mem := by
  cases ht with
  | idle | encQuery => rfl
  | decoder hd => rcases hd with hd | hd <;> simp [hd] at hp
  | brcCopy h | encLit h | encMatch h | encTerm h => simp [h] at hp

/-- During an encoder command that may step, `ESRC` and `EOUT` do not overlap. -/
theorem overlap_encoding (h : s.overlap = none)
    (hp : s.phase = .encLitRun ∨ s.phase = .encMatchRun ∨ s.phase = .encTermRun) :
    s.platform.esrc.overlaps s.platform.eout = false := by
  cases hc : s.platform.esrc.overlaps s.platform.eout with
  | false => rfl
  | true => rcases hp with hp | hp | hp <;> simp [State.overlap, hp, Phase.command?, Command.disjointPair, hc] at h

/-- An encoder command keeps `ESRC`, which is disjoint from `EOUT` where it runs (20_memory.md R72). -/
theorem encoder_keeps_esrc (hstep : coreStep s = .next t)
    (hp : s.phase = .encLitRun ∨ s.phase = .encMatchRun ∨ s.phase = .encTermRun)
    (hcap : s.eoutCap.toNat ≤ s.platform.size .eout) {i : Nat} (hi : i < s.platform.size .esrc) :
    t.cell (s.addr .esrc i) = s.cell (s.addr .esrc i) := by
  have hdisj := overlap_encoding (coreStep_next_duties hstep).2 hp
  refine ((coreStep_result hstep).encoder hp).cell_outside ?_
  have hout := outside_of_disjoint (b := .esrc) (c := .eout) hdisj hi
  simp only [State.addr] at hout ⊢
  omega

/-- Settles O54, by what a core step of each phase answers. -/
theorem coreStepWritesInBounds : Obligations.CoreStepWritesInBounds := by
  intro s t hh hstep
  rw [step_core hh] at hstep
  have ht := coreStep_result hstep
  have hfields := ht.fields
  have hplatform : t.platform = s.platform := (congrArg State.platform hfields :)
  refine ⟨ht.writes_dst, fun hp a ha => (ht.encoder hp).cell_outside ha, ht.keeps_mem, fun hd i hi => ?src,
    fun hp hcap i hi => ?esrc, ht.positions, (congrArg State.inLen hfields :), (congrArg State.outLen hfields :),
    (congrArg State.olset hfields :), (congrArg State.brcPos hfields :), (congrArg State.brcDist hfields :),
    (congrArg State.brcLen hfields :), (congrArg State.esrcLen hfields :), (congrArg State.eoutCap hfields :),
    (congrArg State.encLstart hfields :), (congrArg State.encLlen hfields :), (congrArg State.encMlen hfields :),
    (congrArg State.encMdist hfields :), (congrArg State.encPlit hfields :), ht.encQlen, hplatform⟩
  case src => rw [State.byteAt, addr_congr hplatform]; exact decoding_keeps_src hd hstep hi
  case esrc => rw [State.byteAt, addr_congr hplatform]; exact encoder_keeps_esrc hstep hp hcap hi

end Sys2Proof.Machine
end

section
/-! What a decode reads of the memory (20_memory.md R61, R73): of `SRC` the bytes below `IN_LEN`, of `DST` those below
`OUT_POS`. -/

namespace Sys2Proof.Machine

variable {s t u : State} {m : Memory}

/-! ### The copy of a match -/

/-- A copy at distance `d` takes every byte from the `d` bytes before it, so memories that agree there copy the same. -/
theorem Memory.read_copyBack_congr {free : Nat → Byte} {m m' : Memory} {p d : Nat} (hd : 1 ≤ d) (hp : d ≤ p)
    (h : ∀ j < d, Memory.read free m' (p - d + j) = Memory.read free m (p - d + j)) {i n : Nat} (hi : i < n) :
    Memory.read free (Memory.copyBack free m' p d n) (p + i) =
      Memory.read free (Memory.copyBack free m p d n) (p + i) := by
  induction i using Nat.strong_induction_on generalizing n with
  | h i ih =>
    rw [Memory.read_copyBack_step _ _ _ _ hi, Memory.read_copyBack_step _ _ _ _ hi]
    by_cases hold : i < d
    · rw [Memory.read_copyBack_outside _ _ _ _ _ (by omega), Memory.read_copyBack_outside _ _ _ _ _ (by omega)]
      exact h i hold
    · rw [show p - d + i = p + (i - d) by omega]
      exact ih (i - d) (by omega) (by omega)

theorem bytesFrom_congr {f g : Nat → Byte} {a n : Nat} (h : ∀ i < n, f (a + i) = g (a + i)) :
    bytesFrom f a n = bytesFrom g a n := by
  induction n generalizing a with
  | zero => rfl
  | succ n ih =>
    have hrest : bytesFrom f (a + 1) n = bytesFrom g (a + 1) n := ih fun i hi => by
      rw [show a + 1 + i = a + (i + 1) by omega]
      exact h (i + 1) (by omega)
    rw [bytesFrom, bytesFrom, hrest, show f a = g a from h 0 (by omega)]

/-! ### Memories that a decode cannot tell apart -/

/-- The memory `m` holds the bytes of `SRC` below `IN_LEN` and of `DST` below `OUT_POS` that the memory of `s` holds. -/
structure ReadsAlike (s : State) (m : Memory) : Prop where
  src : ∀ i < s.inLen.toNat, { s with mem := m }.byteAt .src i = s.byteAt .src i
  dst : ∀ i < s.outPos.toNat, { s with mem := m }.byteAt .dst i = s.byteAt .dst i

/-- `u` is what `s` with the memory `m` steps to where `s` itself steps to `t`: both have written the same bytes of `DST`,
from the old `OUT_POS` up to the new one, and left every other byte of memory; they differ in nothing but the memory. -/
structure StepsAlike (s : State) (m : Memory) (t u : State) : Prop where
  fields : u = { t with mem := u.mem }
  wrote : ∀ a, s.addr .dst s.outPos.toNat ≤ a ∧ a < s.addr .dst t.outPos.toNat → u.cell a = t.cell a
  left : ∀ a, ¬(s.addr .dst s.outPos.toNat ≤ a ∧ a < s.addr .dst t.outPos.toNat) →
    u.cell a = { s with mem := m }.cell a ∧ t.cell a = s.cell a

/-- A result that leaves the memory. -/
theorem StepsAlike.of_mem (hu : u = { t with mem := m }) (ht : t.mem = s.mem) (hv : t.voids = s.voids)
    (ho : t.outPos.toNat ≤ s.outPos.toNat) : StepsAlike s m t u := by
  subst hu
  refine ⟨rfl, fun a hin => ?_, fun a _ => ⟨?_, cell_congr ht hv a⟩⟩
  · simp only [State.addr] at hin
    omega
  · exact cell_congr (s := { s with mem := m }) (t := { t with mem := m }) rfl hv a

theorem stepsAlike_raise (e : ErrCode) (s : State) (m : Memory) :
    StepsAlike s m (raise .decStart e s) (raise .decStart e { s with mem := m }) :=
  .of_mem rfl rfl rfl (Nat.zero_le _)

theorem stepsAlike_finish (s : State) (m : Memory) : StepsAlike s m (finish s) (finish { s with mem := m }) :=
  .of_mem rfl rfl rfl (Nat.le_refl _)

/-! ### The tokens -/

theorem stepsAlike_afterLiterals (h : ReadsAlike s m) {n : Nat} (d : BitVec 3)
    (ho : s.outPos.toNat + n ≤ s.outLen.toNat) (hi : s.inPos.toNat + n ≤ s.inLen.toNat) :
    StepsAlike s m (afterLiterals n d s) (afterLiterals n d { s with mem := m }) := by
  have hout : (afterLiterals n d s).outPos.toNat = s.outPos.toNat + n := word_toNat_of_le ho
  refine ⟨rfl, fun a hin => ?wrote, fun a hin => ?left⟩ <;> rw [hout] at hin <;>
    rw [afterLiterals_cell, afterLiterals_cell]
  case wrote =>
    rw [if_pos hin]
    refine (if_pos hin).trans (h.src _ ?_)
    simp only [State.addr] at hin ⊢
    omega
  case left =>
    rw [if_neg hin]
    exact ⟨if_neg hin, rfl⟩

theorem matchCopy_congr (h : ReadsAlike s m) {dist len : Nat} (hd : 1 ≤ dist) (hp : dist ≤ s.outPos.toNat) {a : Nat}
    (h1 : s.addr .dst s.outPos.toNat ≤ a) (h2 : a < s.addr .dst (s.outPos.toNat + len)) :
    { s with mem := matchCopy dist len { s with mem := m } }.cell a = { s with mem := matchCopy dist len s }.cell a := by
  obtain ⟨i, rfl⟩ := Nat.exists_eq_add_of_le h1
  refine Memory.read_copyBack_congr hd (by simp only [State.addr]; omega) (fun j hj => ?_)
    (by simp only [State.addr] at h2; omega)
  have haddr : s.addr .dst s.outPos.toNat - dist + j = s.addr .dst (s.outPos.toNat - dist + j) := by
    simp only [State.addr]
    omega
  show { s with mem := m }.cell (s.addr .dst s.outPos.toNat - dist + j) =
    s.cell (s.addr .dst s.outPos.toNat - dist + j)
  rw [haddr]
  exact h.dst (s.outPos.toNat - dist + j) (by omega)

/-- The copy of a match leaves the stream, since `SRC` and `DST` are disjoint (20_memory.md R72). -/
theorem matchCopy_keeps_src (ha : s.attachedFor .decStart) {dist len i : Nat}
    (ho : s.outPos.toNat + len ≤ s.outLen.toNat) (hi : i < s.inLen.toNat) :
    { s with mem := matchCopy dist len s }.byteAt .src i = s.byteAt .src i := by
  obtain ⟨hsrc, hdst, hdisj⟩ := ha
  refine matchCopy_outside dist len s ?_
  have hout := outside_of_disjoint (b := .src) (c := .dst) hdisj (hi.trans_le hsrc)
  simp only [State.addr] at hout ⊢
  omega

theorem stepsAlike_afterMatch (h : ReadsAlike s m) (ha : s.attachedFor .decStart) {dist len : Nat} {k : BitVec 2}
    (hd : 1 ≤ dist) (hp : dist ≤ s.outPos.toNat) (ho : s.outPos.toNat + len + k.toNat ≤ s.outLen.toNat)
    (hi : s.inPos.toNat + k.toNat ≤ s.inLen.toNat) :
    StepsAlike s m (afterMatch dist len k s) (afterMatch dist len k { s with mem := m }) := by
  have hout : (afterMatch dist len k s).outPos.toNat = s.outPos.toNat + len + k.toNat := word_toNat_of_le ho
  refine ⟨rfl, fun a hin => ?wrote, fun a hin => ?left⟩ <;> rw [hout] at hin <;>
    rw [afterMatch_cell, afterMatch_cell]
  case wrote =>
    obtain ⟨h1, h2⟩ := hin
    by_cases htrail : s.addr .dst (s.outPos.toNat + len) ≤ a
    · have hk := And.intro htrail h2
      have hj : s.inPos.toNat + (a - s.addr .dst (s.outPos.toNat + len)) < s.inLen.toNat := by
        simp only [State.addr] at hk ⊢
        omega
      rw [if_pos hk, matchCopy_keeps_src ha (by omega) hj]
      refine (if_pos hk).trans ((matchCopy_keeps_src (s := { s with mem := m }) ha ?_ hj).trans (h.src _ hj))
      exact Nat.le_of_add_right_le ho
    · have hk : ¬(s.addr .dst (s.outPos.toNat + len) ≤ a ∧ a < s.addr .dst (s.outPos.toNat + len + k.toNat)) :=
        fun hk => htrail hk.1
      rw [if_neg hk]
      exact (if_neg hk).trans (matchCopy_congr h hd hp h1 (Nat.lt_of_not_le htrail))
  case left =>
    have hk : ¬(s.addr .dst (s.outPos.toNat + len) ≤ a ∧ a < s.addr .dst (s.outPos.toNat + len + k.toNat)) := by
      simp only [State.addr] at hin ⊢
      omega
    have hcopy : a < s.addr .dst s.outPos.toNat ∨ s.addr .dst (s.outPos.toNat + len) ≤ a := by
      simp only [State.addr] at hin ⊢
      omega
    rw [if_neg hk]
    exact ⟨(if_neg hk).trans (matchCopy_outside _ _ { s with mem := m } hcopy), matchCopy_outside _ _ s hcopy⟩

/-- The results of a token on `s` and on `s` with the memory `m`: the same error, or states that `StepsAlike` relates. -/
inductive RunsAlike (s : State) (m : Memory) : Except ErrCode State → Except ErrCode State → Prop where
  | error (e : ErrCode) : RunsAlike s m (.error e) (.error e)
  | ok {t u : State} (h : StepsAlike s m t u) : RunsAlike s m (.ok t) (.ok u)

theorem execLiterals_alike (h : ReadsAlike s m) (n : Nat) (d : BitVec 3) :
    RunsAlike s m (execLiterals n d s) (execLiterals n d { s with mem := m }) := by
  cases hr : execLiterals n d s with
  | error e =>
    have hm : execLiterals n d { s with mem := m } = .error e :=
      execLiterals_error_iff.2 (execLiterals_error_iff (s := s).1 hr)
    rw [hm]
    exact .error e
  | ok t =>
    obtain ⟨ho, hi, rfl⟩ := execLiterals_ok_iff.1 hr
    have hm : execLiterals n d { s with mem := m } = .ok _ := execLiterals_ok_iff.2 ⟨ho, hi, rfl⟩
    rw [hm]
    exact .ok (stepsAlike_afterLiterals h d ho hi)

theorem execMatch_alike (h : ReadsAlike s m) (ha : s.attachedFor .decStart) (len dist : Nat) (k : BitVec 2) :
    RunsAlike s m (execMatch dist len k s) (execMatch dist len k { s with mem := m }) := by
  cases hr : execMatch dist len k s with
  | error e =>
    have hm : execMatch dist len k { s with mem := m } = .error e :=
      execMatch_error_iff.2 (execMatch_error_iff (s := s).1 hr)
    rw [hm]
    exact .error e
  | ok t =>
    obtain ⟨hd, hp, ho, hi, rfl⟩ := execMatch_ok_iff.1 hr
    have hm : execMatch dist len k { s with mem := m } = .ok _ := execMatch_ok_iff.2 ⟨hd, hp, ho, hi, rfl⟩
    rw [hm]
    exact .ok (stepsAlike_afterMatch h ha hd hp ho hi)

/-- A token does the same on both memories. -/
theorem exec_alike (h : ReadsAlike s m) (ha : s.attachedFor .decStart) {i : Instr} (hi : i.isToken = true)
    (hex : exec i s = .next t) : ∃ u, exec i { s with mem := m } = .next u ∧ StepsAlike s m t u := by
  obtain ⟨run, hrun, hend⟩ := exec_token hi
  have halike : RunsAlike s m (run s) (run { s with mem := m }) := by
    cases hrun with
    | literal n d => exact execLiterals_alike h n d
    | matched len dist k => exact execMatch_alike h ha len dist k
    | done => exact .ok (stepsAlike_finish s m)
    | failed e => exact .error e
  rw [hend] at hex ⊢
  generalize run s = r, run { s with mem := m } = r' at halike hex ⊢
  cases halike with
  | error e => cases hex; exact ⟨_, rfl, stepsAlike_raise e s m⟩
  | ok h => cases hex; exact ⟨_, rfl, h⟩

/-! ### The step -/

/-- The stream is read from `SRC` below `IN_LEN` alone. -/
theorem ReadsAlike.streamBytes (h : ReadsAlike s m) : { s with mem := m }.streamBytes = s.streamBytes :=
  bytesFrom_congr fun _ hi => h.src _ (Nat.add_lt_of_lt_sub' hi)

theorem tokenFetch_alike (h : ReadsAlike s m) (ha : s.attachedFor .decStart)
    (hf : (tokenFetch s).outcome = .next t) :
    ∃ u, (tokenFetch { s with mem := m }).outcome = .next u ∧ StepsAlike s m t u := by
  have hctx : { s with mem := m }.context = s.context := rfl
  unfold tokenFetch at hf ⊢
  rw [h.streamBytes, hctx]
  cases hs : s.streamBytes with
  | nil =>
    rw [hs] at hf
    cases hf
    exact ⟨_, rfl, stepsAlike_raise .unexpectedEof s m⟩
  | cons b bs =>
    rw [hs] at hf
    obtain ⟨u, hu, h⟩ := exec_alike (s := afterToken (tokenOf s.context b bs).2 s) ⟨h.src, h.dst⟩ ha
      (tokenOf_fits s.context b bs).1 hf
    exact ⟨u, hu, h.fields, h.wrote, h.left⟩

theorem phaseFetch_first (hp : s.phase = .decFirst) : phaseFetch s = firstFetch s := by simp only [phaseFetch, hp]

theorem firstFetch_alike (h : ReadsAlike s m) (ha : s.attachedFor .decStart)
    (hf : (firstFetch s).outcome = .next t) :
    ∃ u, (firstFetch { s with mem := m }).outcome = .next u ∧ StepsAlike s m t u := by
  unfold firstFetch at hf ⊢
  split_ifs at hf ⊢
  · cases hf
    exact ⟨_, rfl, stepsAlike_raise .optionsRequired s m⟩
  · cases hf
    exact ⟨_, rfl, stepsAlike_raise .emptyInput s m⟩
  · exact tokenFetch_alike h ha hf

/-- The core step of a decode reads of the memory no other bytes than those of `ReadsAlike`. -/
theorem coreStep_alike (h : ReadsAlike s m) (hd : s.decoding) (hstep : coreStep s = .next t) :
    ∃ u, coreStep { s with mem := m } = .next u ∧ StepsAlike s m t u := by
  have hduties : s.Attached := attached_iff.2 (coreStep_next_duties hstep)
  have hduties' : { s with mem := m }.Attached := hduties
  have ha : s.attachedFor .decStart := decoding_duties hd hstep
  rw [coreStep_phase (attached_overBound hduties) (attached_overlap hduties)] at hstep
  rw [coreStep_phase (attached_overBound hduties') (attached_overlap hduties')]
  rcases hd with hp | hp
  · rw [phaseFetch_first hp] at hstep
    rw [phaseFetch_first (s := { s with mem := m }) hp]
    exact firstFetch_alike h ha hstep
  · rw [phaseFetch_token (.inl hp)] at hstep
    rw [phaseFetch_token (s := { s with mem := m }) (.inl hp)]
    exact tokenFetch_alike h ha hstep

/-- Settles O52: a decode does not read the bytes of `DST` at and past `OUT_POS`. -/
theorem decodeIgnoresOldOutput : Obligations.DecodeIgnoresOldOutput := by
  intro s t m _ hh hd heq hstep
  rw [step_core hh] at hstep
  obtain ⟨hsrc, hdst, hdisj⟩ := decoding_duties hd hstep
  have hreads : ReadsAlike s m := by
    refine ⟨fun i hi => heq _ ?_, fun i hi => heq _ ?_⟩
    · have hout := outside_of_disjoint (b := .src) (c := .dst) hdisj (hi.trans_le hsrc)
      simp only [State.addr] at hout ⊢
      omega
    · simp only [State.addr]
      omega
  obtain ⟨u, hu, halike⟩ := coreStep_alike hreads hd hstep
  refine ⟨u.mem, ?_, fun a ha => ?_⟩
  · rw [step_core (s := { s with mem := m }) hh, hu, ← halike.fields]
  rw [← halike.fields]
  by_cases hin : s.addr .dst s.outPos.toNat ≤ a ∧ a < s.addr .dst t.outPos.toNat
  · exact halike.wrote a hin
  · obtain ⟨hua, hta⟩ := halike.left a hin
    rw [hua, hta]
    refine heq a ?_
    simp only [State.addr] at ha hin ⊢
    omega

/-- Settles O53: a decode neither reads nor writes the bytes of `SRC` at and past `IN_LEN`. -/
theorem decodeIgnoresInputPastLength : Obligations.DecodeIgnoresInputPastLength := by
  intro s t m h hh hd heq hstep
  rw [step_core hh] at hstep
  obtain ⟨-, hdst, hdisj⟩ := decoding_duties hd hstep
  have hreads : ReadsAlike s m := by
    refine ⟨fun i hi => heq _ ?_, fun i hi => heq _ ?_⟩
    · simp only [State.addr]
      omega
    · have hpos := (h.positions_le hd).2
      have hout := outside_of_disjoint (b := .dst) (c := .src) ((overlaps_comm _ _).trans hdisj)
        (hi.trans_le (hpos.trans hdst))
      simp only [State.addr] at hout ⊢
      omega
  obtain ⟨u, hu, halike⟩ := coreStep_alike hreads hd hstep
  refine ⟨u.mem, ?_, fun a => ?_⟩
  · rw [step_core (s := { s with mem := m }) hh, hu, ← halike.fields]
  rw [← halike.fields]
  split
  case isTrue hin =>
    obtain ⟨i, rfl⟩ : ∃ i, a = s.addr .src i := ⟨a - s.addr .src 0, by simp only [State.addr] at hin ⊢; omega⟩
    exact decoding_keeps_src (s := { s with mem := m }) hd hu (by simp only [State.addr] at hin ⊢; omega)
  case isFalse hin =>
    by_cases hw : s.addr .dst s.outPos.toNat ≤ a ∧ a < s.addr .dst t.outPos.toNat
    · exact halike.wrote a hw
    · obtain ⟨hua, hta⟩ := halike.left a hw
      rw [hua, hta, heq a hin]

end Sys2Proof.Machine
end

section
/-! The host's accesses to the buffers (20_memory.md R69; 70_reset_and_hazards.md R233, R243), and where the machine stops
for a host that breaks a duty (20_memory.md R62, R72). -/

namespace Sys2Proof.Machine

variable {s : State} {b : Buffer} {off : Nat} {x : Byte} {w : Window} {rest : List HostAction}

/-! ### The bytes in use -/

/-- The buffers that the command of each phase reads or writes (70_reset_and_hazards.md R243). -/
theorem uses_iff : s.uses b = true ↔
    s.decoding ∧ (b = .src ∨ b = .dst) ∨ s.phase = .brcRun ∧ b = .dst
      ∨ (s.phase = .encLitRun ∨ s.phase = .encMatchRun ∨ s.phase = .encTermRun ∨ s.phase = .encQueryRun)
        ∧ (b = .esrc ∨ b = .eout) := by
  unfold State.uses State.decoding
  cases s.phase <;> simp [Phase.command?, Command.buffers]

theorem contains_iff_addr {a : Nat} :
    (s.platform.window b).contains a = true ↔ ∃ i < s.platform.size b, a = s.addr b i := by
  rw [contains_iff]
  constructor
  · rintro ⟨h1, h2⟩
    exact ⟨a - (s.platform.window b).base, by simp only [Platform.size]; omega, by simp only [State.addr]; omega⟩
  · rintro ⟨i, hi, rfl⟩
    simp only [Platform.size, State.addr] at hi ⊢
    omega

theorem inUse_iff {a : Nat} :
    s.inUse a = true ↔ ∃ b, ∃ i < s.platform.size b, a = s.addr b i ∧ s.uses b = true := by
  have hany : s.inUse a = true ↔ ∃ b, s.uses b = true ∧ (s.platform.window b).contains a = true := by
    simp only [State.inUse, List.any_eq_true, Bool.and_eq_true]
    refine exists_congr fun b => and_iff_right ?_
    cases b <;> simp
  rw [hany]
  refine exists_congr fun b => ?_
  rw [contains_iff_addr]
  exact ⟨fun ⟨hu, i, hi, ha⟩ => ⟨i, hi, ha, hu⟩, fun ⟨i, hi, ha, hu⟩ => ⟨hu, i, hi, ha⟩⟩

/-! ### The accesses -/

theorem step_bufWrite_unused (h : s.host = .bufWrite b off x :: rest) (ho : off < s.platform.size b)
    (hu : s.inUse (s.addr b off) = false) :
    step s = .next { s with host := rest, mem := s.mem.write (s.addr b off) x } :=
  (step_bufWrite h).trans ((if_neg (Nat.not_le.2 ho)).trans (if_neg (Bool.eq_false_iff.1 hu)))

theorem step_bufRead_unused (h : s.host = .bufRead b off :: rest) (ho : off < s.platform.size b)
    (hu : s.inUse (s.addr b off) = false) :
    step s = .next { s with host := rest, rdata := (s.byteAt b off).setWidth 32 } :=
  (step_bufRead h).trans ((if_neg (Nat.not_le.2 ho)).trans (if_neg (Bool.eq_false_iff.1 hu)))

theorem step_bufRead_used (h : s.host = .bufRead b off :: rest) (ho : off < s.platform.size b)
    (hu : s.inUse (s.addr b off) = true) :
    ∃ v n, step s = .next { s with host := rest, rdata := v, freeCount := n } :=
  ⟨_, _, (step_bufRead h).trans ((if_neg (Nat.not_le.2 ho)).trans (if_pos hu))⟩

/-- Settles O46, by the bytes in use and the access to a byte that is, or is not, one of them. -/
theorem bufferAccesses : Obligations.BufferAccesses := by
  intro s
  refine ⟨fun a => ?_, fun b off x rest ho => ⟨fun hu => ⟨fun h => ?write, fun h => step_bufRead_unused h ho hu⟩,
    fun hu h => step_bufRead_used h ho hu⟩⟩
  · simp only [inUse_iff, uses_iff]
  case write => exact ⟨_, step_bufWrite_unused h ho hu, fun a => Memory.read_write ..⟩

/-! ### The stops of a core step -/

theorem coreStep_overBound (h : s.overBound = some b) : coreStep s = .fault (.beyondAttached b) := by
  rw [coreStep, coreFetch, h]
  rfl

theorem coreStep_overlap {c : Buffer} (hb : s.overBound = none) (h : s.overlap = some (b, c)) :
    coreStep s = .refused (.buffersOverlap b c) := by
  rw [coreStep, coreFetch, hb, h]
  rfl

/-- An address common to two windows is one where they overlap. -/
theorem overlaps_of_common_addr {c : Buffer}
    (h : ∃ i < s.platform.size b, ∃ j < s.platform.size c, s.addr b i = s.addr c j) :
    (s.platform.window b).overlaps (s.platform.window c) = true := by
  obtain ⟨i, hi, j, hj, ha⟩ := h
  by_contra hno
  exact overlaps_eq_false (Bool.eq_false_iff.2 hno) hi hj ha

theorem overBound_eq {c : Command} (hc : s.phase.command? = some c) : s.overBound = overAttached s (c.bounds s) := by
  rw [State.overBound, hc]

theorem overlap_eq_some {c : Command} {d : Buffer} (hc : s.phase.command? = some c) (hp : c.disjointPair = some (b, d))
    (h : (s.platform.window b).overlaps (s.platform.window d) = true) : s.overlap = some (b, d) := by
  simp only [State.overlap, hc, hp, h, if_true]

theorem overAttached_eq_none {l : List (Buffer × Nat)} (h : ∀ p ∈ l, p.2 ≤ s.platform.size p.1) :
    overAttached s l = none := by
  induction l with
  | nil => rfl
  | cons p l ih =>
    obtain ⟨hp, hl⟩ := List.forall_mem_cons.1 h
    exact (if_neg (Nat.not_lt.2 hp)).trans (ih hl)

theorem decoding_command? (hd : s.decoding) : s.phase.command? = some .decStart := by
  rcases hd with hd | hd <;> rw [hd] <;> rfl

theorem encoding_command?
    (hp : s.phase = .encLitRun ∨ s.phase = .encMatchRun ∨ s.phase = .encTermRun ∨ s.phase = .encQueryRun) :
    ∃ c, s.phase.command? = some c ∧ c.disjointPair = some (.esrc, .eout)
      ∧ ∀ p ∈ c.bounds s, p = (.esrc, s.esrcLen.toNat) ∨ p = (.eout, s.eoutCap.toNat) := by
  rcases hp with hp | hp | hp | hp <;> rw [hp]
  · exact ⟨.encLit, rfl, rfl, by simp [Command.bounds]⟩
  · exact ⟨.encMatch, rfl, rfl, by simp [Command.bounds]⟩
  · exact ⟨.encTerm, rfl, rfl, by simp [Command.bounds]⟩
  · exact ⟨.encQuery, rfl, rfl, by simp [Command.bounds]⟩

/-- Two buffers of an encoder command that have an address in common stop it once its bounds are kept. -/
theorem coreStep_encoding_overlap
    (hp : s.phase = .encLitRun ∨ s.phase = .encMatchRun ∨ s.phase = .encTermRun ∨ s.phase = .encQueryRun)
    (hlen : s.esrcLen.toNat ≤ s.platform.size .esrc) (hcap : s.eoutCap.toNat ≤ s.platform.size .eout)
    (h : (s.platform.window .esrc).overlaps (s.platform.window .eout) = true) :
    coreStep s = .refused (.buffersOverlap .esrc .eout) := by
  obtain ⟨c, hc, hpair, hbounds⟩ := encoding_command? hp
  refine coreStep_overlap ((overBound_eq hc).trans (overAttached_eq_none fun p hmem => ?_))
    (overlap_eq_some hc hpair h)
  obtain rfl | rfl := hbounds p hmem
  · exact hlen
  · exact hcap

/-! ### The stops of a host access -/

theorem step_past_attached (h : s.host = .bufWrite b off x :: rest ∨ s.host = .bufRead b off :: rest)
    (ho : s.platform.size b ≤ off) : step s = .fault (.beyondAttached b) := by
  obtain h | h := h
  · exact (step_bufWrite h).trans (if_pos ho)
  · exact (step_bufRead h).trans (if_pos ho)

theorem step_bufWrite_used (h : s.host = .bufWrite b off x :: rest) (ho : off < s.platform.size b)
    (hu : s.inUse (s.addr b off) = true) : step s = .refused (.bufferInUse b) :=
  (step_bufWrite h).trans ((if_neg (Nat.not_le.2 ho)).trans (if_pos hu))

theorem step_attach_used (h : s.host = .attach b w :: rest) (hu : s.uses b = true) :
    step s = .refused (.bufferInUse b) := (step_attach h).trans (if_pos hu)

/-- Settles O47, by the first duty that the host breaks. -/
theorem hostMisuseStops : Obligations.HostMisuseStops := by
  intro s
  have hstop : ∀ {b c}, s.host = [] → s.phase.command? = some c → overAttached s (c.bounds s) = some b →
      step s = .fault (.beyondAttached b) := fun hh hc hb =>
    (step_core hh).trans (coreStep_overBound ((overBound_eq hc).trans hb))
  refine ⟨fun hh hd h => hstop hh (decoding_command? hd) (if_pos h), fun hh hp h => ?dst,
    fun hh hp h => hstop (c := .encLit) hh (by rw [hp]; rfl) (if_pos h), fun hh hp h => ?eout,
    fun hh hd hin hout h => ?decode, fun hh hp hlen hcap h => ?encoder, fun b off x w rest =>
      ⟨step_past_attached, step_bufWrite_used, fun h hu => step_attach_used h (uses_iff.2 hu)⟩⟩
  case dst =>
    obtain ⟨hd, hin⟩ | hp := hp
    · exact hstop hh (decoding_command? hd) ((if_neg (Nat.not_lt.2 hin)).trans (if_pos h))
    · exact hstop (c := .brcCopy) hh (by rw [hp]; rfl) (if_pos h)
  case eout =>
    obtain ⟨hp, hlen⟩ | hp | hp := hp
    · exact hstop (c := .encLit) hh (by rw [hp]; rfl) ((if_neg (Nat.not_lt.2 hlen)).trans (if_pos h))
    · exact hstop (c := .encMatch) hh (by rw [hp]; rfl) (if_pos h)
    · exact hstop (c := .encTerm) hh (by rw [hp]; rfl) (if_pos h)
  case decode =>
    have hc := decoding_command? hd
    have hb : s.overBound = none := (overBound_eq hc).trans (overAttached_eq_none (by simp [Command.bounds, hin, hout]))
    exact (step_core hh).trans (coreStep_overlap hb (overlap_eq_some hc rfl (overlaps_of_common_addr h)))
  case encoder => exact (step_core hh).trans (coreStep_encoding_overlap hp hlen hcap (overlaps_of_common_addr h))

end Sys2Proof.Machine
end

section
/-! The token that each opcode byte starts (30_encoding.md R82), one equation per class of the opcode map, and the numbers
that its fields are. -/

namespace Sys2Proof

variable {ctx : Context} {t : Byte} {bs : List Byte}

/-! ### Fields of a byte -/

theorem field_toNat {w : Nat} (lo len : Nat) (v : BitVec w) :
    (field lo len v).toNat = v.toNat / 2 ^ lo % 2 ^ len := by
  rw [field, BitVec.extractLsb'_toNat, Nat.shiftRight_eq_div_pow]

theorem low_field_eq_zero (len : Nat) (t : Byte) : field 0 len t = 0 ↔ t.toNat % 2 ^ len = 0 := by
  rw [← BitVec.toNat_inj, field_toNat, Nat.pow_zero, Nat.div_one]; rfl

theorem byte_of_toNat {n : Nat} (h : t.toNat = n) : t = byte n := by
  rw [← h, byte, BitVec.ofNat_toNat, BitVec.setWidth_eq]

theorem byte_ne_zero_iff : t ≠ 0 ↔ 1 ≤ t.toNat := by
  rw [ne_eq, ← BitVec.toNat_inj, Nat.one_le_iff_ne_zero]; rfl

/-! ### One equation per class -/

theorem tokenOf_litX (h : ctx = .first ∨ ctx = .state0) (bs : List Byte) : tokenOf ctx 0x00 bs = decodeLitX bs := by
  obtain rfl | rfl := h <;> rfl

theorem tokenOf_lit (h : ctx = .first ∨ ctx = .state0) (h1 : 1 ≤ t.toNat) (h15 : t.toNat < 16) :
    tokenOf ctx t bs = (.lit (field 0 4 t), 1) := by
  rw [tokenOf_small _ _ (by omega), dispatch_low _ _ h15]
  obtain rfl | rfl := h <;> exact if_neg (byte_ne_zero_iff.2 h1)

theorem tokenOf_m1 (h : t.toNat < 16) :
    tokenOf .state123 t bs = (.m1 (field 2 2 t) (field 0 2 t) (readOperand bs), 2) := by
  rw [tokenOf_small _ _ (by omega), dispatch_low _ _ h, decodeLow]

theorem tokenOf_m1b (h : t.toNat < 16) :
    tokenOf .state4 t bs = (.m1b (field 2 2 t) (field 0 2 t) (readOperand bs), 2) := by
  rw [tokenOf_small _ _ (by omega), dispatch_low _ _ h, decodeLow]

theorem tokenOf_m2 (hc : ctx ≠ .first) (h : 64 ≤ t.toNat) :
    tokenOf ctx t bs = (.m2 (field 5 3 t) (field 2 3 t) (field 0 2 t) (readOperand bs), 2) := by
  rw [tokenOf_later _ _ hc, dispatch_m2 _ _ h]

theorem tokenOf_m3 (hc : ctx ≠ .first) (h : 33 ≤ t.toNat) (h' : t.toNat < 64) :
    tokenOf ctx t bs = (.m3 (field 0 5 t) (readLE16 bs), 3) := by
  rw [tokenOf_later _ _ hc, dispatch_m3 _ _ (by omega) h' (by rw [ne_eq, low_field_eq_zero]; omega)]

theorem tokenOf_m3X (hc : ctx ≠ .first) (bs : List Byte) : tokenOf ctx 0x20 bs = zextThenWord .m3X bs := by
  rw [tokenOf_later _ _ hc, dispatch_m3X]

/-- Past the first byte, and for the bytes 0x10 and 0x11 as the first one, the opcode is dispatched (R82). -/
theorem tokenOf_dispatch (h : ctx ≠ .first ∨ t.toNat < 18) : tokenOf ctx t bs = dispatch ctx t bs :=
  h.elim (tokenOf_later t bs) (tokenOf_small ctx bs)

theorem tokenOf_m4 (hc : ctx ≠ .first ∨ t.toNat < 18) (h : 16 ≤ t.toNat) (h' : t.toNat < 32) (hl : t.toNat % 8 ≠ 0) :
    tokenOf ctx t bs = decodeM4 t bs := by
  rw [tokenOf_dispatch hc, dispatch_m4 _ _ h h' (mt (low_field_eq_zero 3 t).1 hl)]

/-- The opcode byte of M4 with `H` = 0 and `L` = 1, and of the terminator, is dispatched in every context. -/
theorem tokenOf_0x11 (ctx : Context) (bs : List Byte) : tokenOf ctx 0x11 bs = decodeM4 0x11 bs :=
  tokenOf_m4 (.inr (by decide)) (by decide) (by decide) (by decide)

theorem tokenOf_m4X (hc : ctx ≠ .first ∨ t.toNat < 18) (h : 16 ≤ t.toNat) (h' : t.toNat < 32) (hl : t.toNat % 8 = 0) :
    tokenOf ctx t bs = zextThenWord (.m4X (field 3 1 t)) bs := by
  rw [tokenOf_dispatch hc, dispatch_m4X _ _ h h' ((low_field_eq_zero 3 t).2 hl)]

theorem decodeM4_term (h : isEndMark bs = true) : decodeM4 0x11 bs = (.term (field 0 2 (bs.headD 0)), 3) :=
  if_pos ⟨rfl, h⟩

theorem decodeM4_match (h : t = 0x11 → isEndMark bs = false) :
    decodeM4 t bs = (.m4 (field 3 1 t) (field 0 3 t) (readLE16 bs), 3) :=
  if_neg fun ⟨ht, hm⟩ => Bool.false_ne_true ((h ht).symm.trans hm)

theorem isEndMark_cons_iff (lo hi : Byte) (rest : List Byte) :
    isEndMark (lo :: hi :: rest) = true ↔ lo.toNat ≤ 3 ∧ hi = 0 := by
  have hz : hi = 0 ↔ hi.toNat = 0 := BitVec.toNat_inj.symm
  rw [isEndMark_iff, append_toNat_eq, Nat.shiftRight_eq_div_pow, hz]
  omega

/-- The terminator's bytes are those of a distance word `v` with `v >> 2` = 0 that is there (R82, R89). -/
theorem isEndMark_iff_readLE16 (bs : List Byte) :
    isEndMark bs = true ↔ ∃ v, readLE16 bs = .got v ∧ v.toNat >>> 2 = 0 := by
  match bs with
  | [] | [_] => simp [isEndMark, readLE16]
  | lo :: hi :: rest => simp [isEndMark_iff, readLE16]

theorem zextThenWord_failed (make : Operand Zext → Operand Half → Instr) {e : ErrCode}
    (h : readZext Config.kMax 0 bs = .failed e) : zextThenWord make bs = (make (.failed e) (.failed e), 1) := by
  rw [zextThenWord, h]

theorem decodeLitX_failed {e : ErrCode} (h : readZext Config.kMax 0 bs = .failed e) :
    decodeLitX bs = (.litX (.failed e), 1) := by
  rw [decodeLitX, h]

/-- A token with an extension and a word is of one class, whatever was read. -/
theorem zextThenWord_make (make : Operand Zext → Operand Half → Instr) (bs : List Byte) :
    ∃ x v, (zextThenWord make bs).1 = make x v := by
  unfold zextThenWord
  split <;> exact ⟨_, _, rfl⟩

theorem decodeLitX_litX (bs : List Byte) : ∃ x, (decodeLitX bs).1 = .litX x := by
  unfold decodeLitX
  split <;> exact ⟨_, rfl⟩

end Sys2Proof
end

section
/-! Every well-formed token decodes back from its bytes (30_encoding.md R84 to R92), class by class. -/

namespace Sys2Proof

variable {ctx : Context}

/-- The token's bytes, whatever follows them, decode to it and its size. -/
def DecodesBack (ctx : Context) (i : Instr) : Prop :=
  ∀ rest, decodeToken ctx (encodeToken i ++ rest) = .ok (i, (encodeToken i).length)

/-- A token whose bytes are `t` and `bs` decodes back when `tokenOf` gives it. -/
theorem decodesBack_of_tokenOf {i : Instr} {t : Byte} {bs : List Byte} (he : encodeToken i = t :: bs)
    (h : ∀ rest, tokenOf ctx t (bs ++ rest) = (i, bs.length + 1)) : DecodesBack ctx i := by
  intro rest
  rw [he, List.cons_append, decodeToken, h, List.length_cons]

/-- A zero-extended operand that some bytes spell (R92, R94). -/
theorem Operand.zextWellFormed_iff {x : Operand Zext} :
    x.zextWellFormed = true ↔ ∃ k b, x = .got ⟨k, b⟩ ∧ k ≤ Config.kMax ∧ b ≠ 0 := by
  cases x with
  | got z =>
    obtain ⟨k, b⟩ := z
    simp only [Operand.zextWellFormed, Zext.wellFormed, Bool.and_eq_true, bne_iff_ne, decide_eq_true_eq]
    constructor
    · rintro ⟨hb, hk⟩; exact ⟨k, b, rfl, hk, hb⟩
    · rintro ⟨_, _, ⟨⟩, hk, hb⟩; exact ⟨hb, hk⟩
  | failed e => simp [Operand.zextWellFormed]

theorem Operand.present_iff {α : Type} {x : Operand α} : x.present = true ↔ ∃ a, x = .got a := by
  cases x <;> simp [Operand.present]

theorem isTerminator_iff {h : BitVec 1} {l : BitVec 3} {v : Half} :
    isTerminator h l v = true ↔ h = 0 ∧ l = 1 ∧ v.toNat >>> 2 = 0 := by
  have hz : v >>> 2 = 0 ↔ v.toNat >>> 2 = 0 := by rw [← BitVec.toNat_inj, BitVec.toNat_ushiftRight]; rfl
  simp only [isTerminator, Bool.and_eq_true, beq_iff_eq, hz, and_assoc]

theorem wellFormed_m4_iff {h : BitVec 1} {l : BitVec 3} {v : Operand Half} :
    (Instr.m4 h l v).WellFormed = true ↔ ∃ w, v = .got w ∧ l ≠ 0 ∧ isTerminator h l w = false := by
  cases v <;> simp [Instr.WellFormed]

/-! ### Class by class -/

theorem decodesBack_initLit {n : Byte} (h1 : 1 ≤ n.toNat) (h : n.toNat ≤ 238) : DecodesBack .first (.initLit n) :=
  decodesBack_of_tokenOf rfl fun rest => by
    have ht : (n + 17).toNat = n.toNat + 17 :=
      BitVec.toNat_add_of_lt (Nat.lt_of_le_of_lt (Nat.add_le_add_right h 17) (by decide))
    rw [tokenOf_first _ (by omega), BitVec.add_sub_cancel]; rfl

theorem decodesBack_lit (hc : ctx = .first ∨ ctx = .state0) {l : BitVec 4} (h : l ≠ 0) : DecodesBack ctx (.lit l) :=
  decodesBack_of_tokenOf rfl fun rest => by
    obtain ⟨hlt, hl, h0⟩ := litByte_fields l
    rw [tokenOf_lit hc (byte_ne_zero_iff.1 (mt h0.1 h)) hlt, hl]; rfl

theorem decodesBack_litX (hc : ctx = .first ∨ ctx = .state0) {k : Nat} {b : Byte} (hk : k ≤ Config.kMax) (hb : b ≠ 0) :
    DecodesBack ctx (.litX (.got ⟨k, b⟩)) :=
  decodesBack_of_tokenOf rfl fun rest => by
    rw [tokenOf_litX hc, Operand.bytes, Zext.bytes, List.append_assoc]
    exact (decodeLitX_got k b rest hk hb).trans (by simp)

theorem decodesBack_m1 (d s : BitVec 2) (next : Byte) : DecodesBack .state123 (.m1 d s (.got next)) :=
  decodesBack_of_tokenOf rfl fun rest => by
    obtain ⟨hlt, hd, hs⟩ := shortByte_fields d s
    rw [tokenOf_m1 hlt, hd, hs]; rfl

theorem decodesBack_m1b (d s : BitVec 2) (next : Byte) : DecodesBack .state4 (.m1b d s (.got next)) :=
  decodesBack_of_tokenOf rfl fun rest => by
    obtain ⟨hlt, hd, hs⟩ := shortByte_fields d s
    rw [tokenOf_m1b hlt, hd, hs]; rfl

theorem decodesBack_m2 (hc : ctx ≠ .first) {l : BitVec 3} (h : 2 ≤ l.toNat) (d : BitVec 3) (s : BitVec 2) (next : Byte) :
    DecodesBack ctx (.m2 l d s (.got next)) :=
  decodesBack_of_tokenOf rfl fun rest => by
    obtain ⟨hle, hl, hd, hs⟩ := m2Byte_fields l d s h
    rw [tokenOf_m2 hc hle, hl, hd, hs]; rfl

theorem decodesBack_m3 (hc : ctx ≠ .first) {l : BitVec 5} (h : l ≠ 0) (v : Half) : DecodesBack ctx (.m3 l (.got v)) :=
  decodesBack_of_tokenOf rfl fun rest => by
    obtain ⟨hle, hlt, hl⟩ := m3Byte_fields l
    rw [tokenOf_later _ _ hc, dispatch_m3 _ _ hle hlt (hl.symm ▸ h), hl]
    exact congrArg (fun w => (Instr.m3 l w, 3)) (readLE16_halfBytes v rest)

/-- The extension and the word of M3_X and M4_X read back. -/
theorem zextThenWord_bytes (make : Operand Zext → Operand Half → Instr) {k : Nat} {b : Byte} (hk : k ≤ Config.kMax)
    (hb : b ≠ 0) (v : Half) (rest : List Byte) :
    zextThenWord make ((Zext.mk k b).bytes ++ halfBytes v ++ rest)
      = (make (.got ⟨k, b⟩) (.got v), ((Zext.mk k b).bytes ++ halfBytes v).length + 1) := by
  rw [Zext.bytes, List.append_assoc, List.append_assoc, List.singleton_append, zextThenWord_got _ _ _ _ hk hb,
    readLE16_halfBytes]
  simp [halfBytes]

theorem decodesBack_m3X (hc : ctx ≠ .first) {k : Nat} {b : Byte} (hk : k ≤ Config.kMax) (hb : b ≠ 0) (v : Half) :
    DecodesBack ctx (.m3X (.got ⟨k, b⟩) (.got v)) :=
  decodesBack_of_tokenOf rfl fun rest => by
    rw [tokenOf_m3X hc]
    exact zextThenWord_bytes .m3X hk hb v rest

/-- Bytes that do not spell the terminator are an M4 (R88, R89). -/
theorem decodesBack_m4 {h : BitVec 1} {l : BitVec 3} (hc : ctx ≠ .first ∨ h = 0 ∧ l = 1) (hl : l ≠ 0) {v : Half}
    (hv : isTerminator h l v = false) : DecodesBack ctx (.m4 h l (.got v)) :=
  decodesBack_of_tokenOf rfl fun rest => by
    obtain ⟨hle, hlt, hfl, hfh, h11, hsmall⟩ := m4Byte_fields h l
    have hmark : (0b0001#4 ++ h ++ l : Byte) = 0x11 → isEndMark (halfBytes v ++ rest) = false := by
      intro ht
      obtain ⟨rfl, rfl⟩ := h11.1 ht
      rw [Bool.eq_false_iff, ne_eq, isEndMark_iff_readLE16, readLE16_halfBytes]
      rintro ⟨_, ⟨⟩, hz⟩
      exact Bool.false_ne_true (hv.symm.trans (isTerminator_iff.2 ⟨rfl, rfl, hz⟩))
    rw [tokenOf_dispatch (hc.imp_right fun ⟨h0, h1⟩ => hsmall h0 (.inr h1)),
      dispatch_m4 _ _ hle hlt (hfl.symm ▸ hl), Operand.bytes, decodeM4_match hmark, hfl, hfh, readLE16_halfBytes]; rfl

theorem decodesBack_m4X {h : BitVec 1} (hc : ctx ≠ .first ∨ h = 0) {k : Nat} {b : Byte} (hk : k ≤ Config.kMax)
    (hb : b ≠ 0) (v : Half) : DecodesBack ctx (.m4X h (.got ⟨k, b⟩) (.got v)) :=
  decodesBack_of_tokenOf rfl fun rest => by
    obtain ⟨hle, hlt, hfl, hfh, -, hsmall⟩ := m4Byte_fields h 0#3
    rw [tokenOf_dispatch (hc.imp_right fun h0 => hsmall h0 (.inl rfl)), dispatch_m4X _ _ hle hlt hfl, hfh]
    exact zextThenWord_bytes (.m4X h) hk hb v rest

theorem termByte_fields : ∀ lo : BitVec 2, (0#6 ++ lo : Byte).toNat ≤ 3 ∧ field 0 2 (0#6 ++ lo : Byte) = lo := by
  decide

theorem decodesBack_term (ctx : Context) (lo : BitVec 2) : DecodesBack ctx (.term lo) :=
  decodesBack_of_tokenOf rfl fun rest => by
    obtain ⟨hle, hf⟩ := termByte_fields lo
    rw [tokenOf_0x11]
    exact (decodeM4_term ((isEndMark_cons_iff _ _ _).2 ⟨hle, rfl⟩)).trans
      (congrArg (fun l => (Instr.term l, 3)) hf)

/-- Settles O2, class by class. -/
theorem tokenDecodesFromItsBytes : Obligations.TokenDecodesFromItsBytes := by
  intro i ctx rest hw ht hf
  suffices h : DecodesBack ctx i from h rest
  cases i
  all_goals simp only [Instr.WellFormed, Instr.fits, Operand.zextWellFormed_iff, Operand.present_iff,
    Bool.and_eq_true, Bool.or_eq_true, beq_iff_eq, bne_iff_ne, decide_eq_true_eq, reduceCtorEq] at hw hf
  case initLit n =>
    obtain ⟨h1, h238⟩ := hw
    subst hf
    exact decodesBack_initLit h1 h238
  case lit l => exact decodesBack_lit hf hw
  case litX x =>
    obtain ⟨k, b, rfl, hk, hb⟩ := hw
    exact decodesBack_litX hf hk hb
  case m1 d s next =>
    obtain ⟨b, rfl⟩ := hw
    subst hf
    exact decodesBack_m1 d s b
  case m1b d s next =>
    obtain ⟨b, rfl⟩ := hw
    subst hf
    exact decodesBack_m1b d s b
  case m2 l d s next =>
    obtain ⟨hl, b, rfl⟩ := hw
    exact decodesBack_m2 hf hl d s b
  case m3 l v =>
    obtain ⟨hl, w, rfl⟩ := hw
    exact decodesBack_m3 hf hl w
  case m3X x v =>
    obtain ⟨⟨k, b, rfl, hk, hb⟩, w, rfl⟩ := hw
    exact decodesBack_m3X hf hk hb w
  case m4 h l v =>
    obtain ⟨w, rfl, hl, hterm⟩ := wellFormed_m4_iff.1 hw
    exact decodesBack_m4 hf hl hterm
  case m4X h x v =>
    obtain ⟨⟨k, b, rfl, hk, hb⟩, w, rfl⟩ := hw
    exact decodesBack_m4X hf hk hb w
  case term lo => exact decodesBack_term ctx lo

end Sys2Proof
end

section
/-! The opcode map and the opcode table (30_encoding.md R82, R89, R106). -/

namespace Sys2Proof

variable {ctx : Context} {t : Byte} {bs bs' : List Byte}

/-! ### The class of a decoded token -/

theorem zextThenWord_m3X_mnemonic (bs : List Byte) : (zextThenWord .m3X bs).1.mnemonic = "M3_X" := by
  obtain ⟨x, v, h⟩ := zextThenWord_make .m3X bs
  rw [h]; rfl

theorem zextThenWord_m4X_mnemonic (h : BitVec 1) (bs : List Byte) : (zextThenWord (.m4X h) bs).1.mnemonic = "M4_X" := by
  obtain ⟨x, v, hm⟩ := zextThenWord_make (.m4X h) bs
  rw [hm]; rfl

theorem decodeLitX_mnemonic (bs : List Byte) : (decodeLitX bs).1.mnemonic = "LIT_X" := by
  obtain ⟨x, h⟩ := decodeLitX_litX bs
  rw [h]; rfl

theorem decodeM4_mnemonic_congr (h : isEndMark bs = isEndMark bs') :
    (decodeM4 t bs).1.mnemonic = (decodeM4 t bs').1.mnemonic := by
  unfold decodeM4
  rw [h]
  split <;> rfl

theorem decodeLow_mnemonic_congr (ctx : Context) (t : Byte) (bs bs' : List Byte) :
    (decodeLow ctx t bs).1.mnemonic = (decodeLow ctx t bs').1.mnemonic := by
  cases ctx with
  | first | state0 =>
    by_cases h0 : t = 0
    · simp only [decodeLow, if_pos h0, decodeLitX_mnemonic]
    · simp only [decodeLow, if_neg h0]
  | state123 | state4 => rfl

/-- The decoder's class sees the bytes after the opcode only through the terminator's test. -/
theorem tokenOf_mnemonic_congr (h : isEndMark bs = isEndMark bs') :
    (tokenOf ctx t bs).1.mnemonic = (tokenOf ctx t bs').1.mnemonic := by
  unfold tokenOf dispatch
  split
  · rfl
  split
  · rfl
  split
  · split
    · rfl
    · rw [zextThenWord_m3X_mnemonic, zextThenWord_m3X_mnemonic]
  split
  · split
    · exact decodeM4_mnemonic_congr h
    · rw [zextThenWord_m4X_mnemonic, zextThenWord_m4X_mnemonic]
  exact decodeLow_mnemonic_congr ctx t bs bs'

/-- So does the table's choice. -/
theorem selectRow_congr (h : isEndMark bs = isEndMark bs') : selectRow ctx t bs = selectRow ctx t bs' := by
  simp only [selectRow, Row.applies, h]

/-- Tails without and with a terminator's bytes: what is left of R106 is a comparison of finite tables. -/
theorem selectRow_of_short_tail (ctx : Context) : ∀ t : Byte, ∀ bs ∈ [[], [0, 0]],
    (selectRow ctx t bs).map Row.mnemonic = some (tokenOf ctx t bs).1.mnemonic := by
  cases ctx with
  | first => decide
  | state0 => decide
  | state123 => decide
  | state4 => decide

theorem exists_short_tail (bs : List Byte) : ∃ bs' ∈ [[], [0, 0]], isEndMark bs = isEndMark bs' := by
  cases h : isEndMark bs with
  | false => exact ⟨[], by simp, rfl⟩
  | true => exact ⟨[0, 0], by simp, rfl⟩

/-- Settles O4: both choices see the tail only through the terminator's test. -/
theorem tableSelectsDecodedClass : Obligations.TableSelectsDecodedClass := by
  intro ctx t bs
  obtain ⟨bs', hmem, h⟩ := exists_short_tail bs
  rw [selectRow_congr h, tokenOf_mnemonic_congr h]
  exact selectRow_of_short_tail ctx t bs' hmem

/-- Settles O3 by the equation of each class. -/
theorem opcodeMapClasses : Obligations.OpcodeMapClasses := by
  intro ctx t bs
  refine ⟨(tokenOf ctx t bs).1, (tokenOf ctx t bs).2, rfl, fun hc h => ?initLit, fun hc h => ?litX,
    fun hc h h' => ?lit, fun hc h => ?m1, fun hc h => ?m1b, fun h => ?m4Xfirst, fun h hv => ?term,
    fun h hv => ?m4first, fun hc h h' hx => ?m4, fun hc h => ?m4X, fun hc h => ?m3X, fun hc h h' => ?m3,
    fun hc h => ?m2⟩
  case initLit => subst hc; rw [tokenOf_first bs h]; rfl
  case litX => obtain rfl : t = 0x00 := byte_of_toNat h; rw [tokenOf_litX hc]; exact decodeLitX_mnemonic bs
  case lit => rw [tokenOf_lit hc h (by omega)]; rfl
  case m1 => subst hc; rw [tokenOf_m1 (by omega)]; rfl
  case m1b => subst hc; rw [tokenOf_m1b (by omega)]; rfl
  case m4Xfirst => rw [tokenOf_m4X (by omega) (by omega) (by omega) (by omega)]; exact zextThenWord_m4X_mnemonic _ bs
  case term =>
    obtain rfl : t = 0x11 := byte_of_toNat h
    rw [tokenOf_0x11, decodeM4_term ((isEndMark_iff_readLE16 bs).2 hv)]
    rfl
  case m4first =>
    obtain rfl : t = 0x11 := byte_of_toNat h
    rw [tokenOf_0x11, decodeM4_match fun _ => Bool.eq_false_iff.2 (mt (isEndMark_iff_readLE16 bs).1 hv)]
    rfl
  case m4 =>
    rw [tokenOf_m4 (.inl hc) (by omega) (by omega) (by omega), decodeM4_match fun ht => by subst ht; contradiction]
    rfl
  case m4X => rw [tokenOf_m4X (.inl hc) (by omega) (by omega) (by omega)]; exact zextThenWord_m4X_mnemonic _ bs
  case m3X => obtain rfl : t = 0x20 := byte_of_toNat h; rw [tokenOf_m3X hc]; exact zextThenWord_m3X_mnemonic bs
  case m3 => rw [tokenOf_m3 hc h (by omega)]; rfl
  case m2 => rw [tokenOf_m2 hc h]; rfl

/-! ### The terminator -/

/-- A terminator is decoded only from 0x11 and a terminator's two bytes: by O3 every other byte is of another class. -/
theorem tokenOf_term {l : BitVec 2} {n : Nat} (h : tokenOf ctx t bs = (.term l, n)) :
    t = 0x11 ∧ isEndMark bs = true := by
  obtain ⟨i, n', hd, hmap⟩ := opcodeMapClasses ctx t bs
  rw [decodeToken, h] at hd
  cases hd
  have ht : t.toNat = 0x11 := by cases ctx <;> simp [Instr.mnemonic] at hmap <;> omega
  obtain rfl : t = 0x11 := byte_of_toNat ht
  refine ⟨rfl, by_contra fun hm => ?_⟩
  rw [tokenOf_0x11, decodeM4_match fun _ => Bool.eq_false_iff.2 hm] at h
  cases h

/-- Settles O9. -/
theorem terminatorBytesExactly : Obligations.TerminatorBytesExactly := by
  intro ctx bs
  constructor
  · rintro ⟨l, n, h⟩
    match bs, h with
    | t :: bs, h =>
      simp only [decodeToken, Decoded.ok.injEq] at h
      obtain ⟨rfl, hm⟩ := tokenOf_term h
      match bs, hm with
      | lo :: hi :: rest, hm =>
        obtain ⟨hlo, rfl⟩ := (isEndMark_cons_iff lo hi rest).1 hm
        exact ⟨lo, rest, rfl, hlo⟩
  · rintro ⟨lo, rest, rfl, hlo⟩
    refine ⟨field 0 2 lo, 3, ?_⟩
    rw [decodeToken, tokenOf_0x11, decodeM4_term ((isEndMark_cons_iff lo 0 rest).2 ⟨hlo, rfl⟩)]
    rfl

end Sys2Proof
end

section
/-! What the tokens of each format stand for, from their bytes (30_encoding.md R84 to R93). -/

namespace Sys2Proof.Machine

variable {ctx : Context} {t : Byte}

theorem and_seven (n : Nat) : n &&& 7 = n % 8 := Nat.and_two_pow_sub_one_eq_mod n 3

theorem and_thirtyOne (n : Nat) : n &&& 31 = n % 32 := Nat.and_two_pow_sub_one_eq_mod n 5

/-! ### Literal runs -/

theorem initDstate_toNat (n : Nat) : (initDstate n).toNat = min n 4 := by
  rw [initDstate, BitVec.toNat_ofNat, Nat.mod_eq_of_lt (by omega)]

theorem litLen_field (h : t.toNat < 16) : litLen (field 0 4 t) = t.toNat + 3 := by
  rw [litLen, field_toNat]
  omega

/-- Settles O5. -/
theorem literalFormats : Obligations.LiteralFormats := by
  refine fun t rest => ⟨fun h => ?initLit, fun ctx hc h h' => ?lit, fun ctx k b hc hk hb => ?litX⟩
  case initLit =>
    have hn : (t - 17).toNat = t.toNat - 17 := BitVec.toNat_sub_of_le (BitVec.le_def.2 (Nat.le_of_succ_le h))
    exact ⟨_, congrArg Decoded.ok (tokenOf_first rest h), _, _, rfl, hn, by omega, by omega, initDstate_toNat _⟩
  case lit =>
    have hn : litLen (field 0 4 t) = t.toNat + 3 := litLen_field (by omega)
    exact ⟨_, congrArg Decoded.ok (tokenOf_lit hc h (by omega)), _, _, rfl, hn, by omega, by omega, rfl⟩
  case litX =>
    exact ⟨_, congrArg Decoded.ok ((tokenOf_litX hc _).trans (decodeLitX_got k b rest hk hb)), _, _, rfl, rfl, rfl⟩

/-! ### Short matches -/

/-- Settles O6. -/
theorem shortMatchFormats : Obligations.ShortMatchFormats := by
  refine fun t next rest => ⟨fun h => ?m1, fun h => ?m1b, fun ctx hc h => ?m2⟩
  case m1 =>
    refine ⟨_, congrArg Decoded.ok (tokenOf_m1 h), _, rfl, ?_⟩
    simp only [m1Dist, field_toNat, Nat.shiftRight_eq_div_pow, Nat.shiftLeft_eq]
    omega
  case m1b =>
    refine ⟨_, congrArg Decoded.ok (tokenOf_m1b h), _, rfl, ?_⟩
    simp only [m1bDist, field_toNat, Nat.shiftRight_eq_div_pow, Nat.shiftLeft_eq]
    omega
  case m2 =>
    refine ⟨_, congrArg Decoded.ok (tokenOf_m2 hc h), _, _, rfl, ?_⟩
    simp only [m2Len, m2Dist, field_toNat, Nat.shiftRight_eq_div_pow, Nat.shiftLeft_eq, and_seven]
    omega

/-! ### The distance word -/

theorem wordTrail_append (hi lo : Byte) : wordTrail (hi ++ lo) = field 0 2 lo := by
  apply BitVec.eq_of_toNat_eq
  rw [wordTrail, field_toNat, field_toNat, append_toNat_eq]
  omega

theorem m3Dist_append (hi lo : Byte) : m3Dist (hi ++ lo) = ((lo.toNat ||| (hi.toNat <<< 8)) >>> 2) + 1 := by
  rw [m3Dist, append_toNat]

theorem half_shift_lt (v : Half) : v.toNat >>> 2 < 16384 := by
  rw [Nat.shiftRight_eq_div_pow]
  omega

theorem m3Dist_bounds (v : Half) : 1 ≤ m3Dist v ∧ m3Dist v ≤ 16384 := by
  have := half_shift_lt v
  rw [m3Dist]
  omega

theorem m3Len_field (t : Byte) : m3Len (field 0 5 t) = (t.toNat &&& 31) + 2 := by
  rw [m3Len, field_toNat, and_thirtyOne]
  omega

/-- Settles O7. -/
theorem mediumMatchFormats : Obligations.MediumMatchFormats := by
  refine fun ctx t lo hi rest hc => ⟨fun h h' => ⟨_, congrArg Decoded.ok (tokenOf_m3 hc h (by omega)), ?m3⟩,
    fun k b hk hb => ⟨_, congrArg Decoded.ok ((tokenOf_m3X hc _).trans (zextThenWord_got .m3X k b _ hk hb)), ?m3X⟩⟩
  case m3 =>
    rw [← m3Len_field t, ← wordTrail_append hi lo, ← m3Dist_append]
    exact ⟨_, rfl, rfl, m3Dist_bounds _⟩
  case m3X =>
    rw [← wordTrail_append hi lo, ← m3Dist_append]
    exact ⟨_, rfl, rfl, m3Dist_bounds _⟩

/-! ### Long matches -/

theorem high_distance_bit (t : Byte) : (field 3 1 t).toNat <<< 3 = t.toNat &&& 8 := by
  revert t; decide

theorem m4DistBase_append (t hi lo : Byte) : m4DistBase (field 3 1 t) (hi ++ lo)
    = ((t.toNat &&& 8) <<< 11) + ((lo.toNat ||| (hi.toNat <<< 8)) >>> 2) := by
  rw [m4DistBase, high_distance_bit, append_toNat]

theorem m4DistBase_le (h : BitVec 1) (v : Half) : m4DistBase h v ≤ 32767 := by
  have := half_shift_lt v
  rw [m4DistBase, Nat.shiftLeft_eq, Nat.shiftLeft_eq]
  omega

/-- What an M4 or M4_X token with `dist_base` = `base` says: no match, or one at distance `base` + 0x4000 (R88, R89). -/
def LongMatch (i : Instr) (len base : Nat) (trail : BitVec 2) : Prop :=
  (base = 0 → matchOperands i = none) ∧
  (base ≠ 0 → ∃ dist, matchOperands i = some (len, dist, trail) ∧ dist = base + 0x4000 ∧ 16385 ≤ dist ∧ dist ≤ 49151)

theorem longMatch_of_operands {i : Instr} {len : Nat} {h : BitVec 1} {v : Half}
    (hi : matchOperands i = if m4DistBase h v = 0 then none else some (len, m4Dist h v, wordTrail v)) :
    LongMatch i len (m4DistBase h v) (wordTrail v) := by
  have := m4DistBase_le h v
  refine ⟨fun h0 => hi.trans (if_pos h0), fun h0 => ⟨_, hi.trans (if_neg h0), rfl, ?_⟩⟩
  rw [m4Dist]
  omega

theorem longMatch_term (lo : BitVec 2) (len : Nat) (trail : BitVec 2) : LongMatch (.term lo) len 0 trail :=
  ⟨fun _ => rfl, fun h => absurd rfl h⟩

theorem m4Len_field (t : Byte) : m4Len (field 0 3 t) = (t.toNat &&& 7) + 2 := by
  rw [m4Len, field_toNat, and_seven]
  omega

/-- An opcode byte of M4 and a distance word: a match, or none, the terminator included. -/
theorem decodeM4_longMatch (t lo hi : Byte) (rest : List Byte) : ∃ i, decodeM4 t (lo :: hi :: rest) = (i, 3) ∧
    LongMatch i (m4Len (field 0 3 t)) (m4DistBase (field 3 1 t) (hi ++ lo)) (wordTrail (hi ++ lo)) := by
  by_cases h : t = 0x11 ∧ isEndMark (lo :: hi :: rest) = true
  · obtain ⟨rfl, hm⟩ := h
    have hb : m4DistBase (field 3 1 (0x11 : Byte)) (hi ++ lo) = 0 := by
      rw [m4DistBase, (isEndMark_iff lo hi rest).1 hm]; rfl
    rw [hb]
    exact ⟨_, decodeM4_term hm, longMatch_term _ _ _⟩
  · exact ⟨_, decodeM4_match fun ht => Bool.eq_false_iff.2 fun hm => h ⟨ht, hm⟩, longMatch_of_operands rfl⟩

/-- Settles O8. -/
theorem longMatchFormats : Obligations.LongMatchFormats := by
  intro ctx t lo hi rest hc h h'
  rw [and_seven, ← m4DistBase_append, ← wordTrail_append hi lo]
  refine ⟨fun hl => ?m4, fun hl k b hk hb => ⟨_, congrArg Decoded.ok ((tokenOf_m4X (.inl hc) h (by omega) hl).trans
    (zextThenWord_got _ k b _ hk hb)), longMatch_of_operands rfl⟩⟩
  obtain ⟨i, hi, hm⟩ := decodeM4_longMatch t lo hi rest
  rw [m4Len_field, and_seven] at hm
  exact ⟨i, congrArg Decoded.ok ((tokenOf_m4 (.inl hc) h (by omega) hl).trans hi), hm⟩

/-! ### The zero-extension and its cap -/

/-- The zero byte that passes the cap fails, whatever follows it (R94, R125). -/
theorem readZext_past_cap (cap : Nat) (rest : List Byte) :
    readZext cap 0 (List.replicate (cap + 1) 0 ++ rest) = .failed .outputOverrun := by
  rw [List.replicate_succ', List.append_assoc, readZext_zeros _ _ _ _ (by omega), List.singleton_append, readZext,
    if_neg (by simp), if_pos (by omega)]

theorem readZext_off_input {cap k : Nat} (h : k ≤ cap) :
    readZext cap 0 (List.replicate k 0) = .failed .inputOverrun := by
  rw [← List.append_nil (List.replicate k 0), readZext_zeros _ _ _ _ (by omega), readZext]

theorem outLenMax_lt_zextLen (base : Nat) {k : Nat} (b : Byte) (h : Config.kMax < k) :
    Config.outLenMax < zextLen base ⟨k, b⟩ := by
  simp only [Config.outLenMax, zextLen]
  omega

/-- Settles O10. -/
theorem zeroExtensionIsReadAndCapped : Obligations.ZeroExtensionIsReadAndCapped := by
  refine ⟨rfl, fun cap k b rest => ⟨readZext_got cap k b rest, readZext_past_cap cap rest, readZext_off_input,
    fun base => outLenMax_lt_zextLen base b⟩, fun ctx rest zeros hzeros => ?_⟩
  have hz : readZext Config.kMax 0 (zeros ++ rest) = .failed .outputOverrun := hzeros ▸ readZext_past_cap _ rest
  exact ⟨fun hc => ⟨_, congrArg Decoded.ok ((tokenOf_litX hc _).trans (decodeLitX_failed hz))⟩,
    fun hc => ⟨_, _, congrArg Decoded.ok ((tokenOf_m3X hc _).trans (zextThenWord_failed _ hz))⟩,
    ⟨_, _, congrArg Decoded.ok ((tokenOf_m4X (.inr (by decide)) (by decide) (by decide) (by decide)).trans
      (zextThenWord_failed _ hz))⟩,
    fun hc => ⟨_, _, congrArg Decoded.ok ((tokenOf_m4X (.inl hc) (by decide) (by decide) (by decide)).trans
      (zextThenWord_failed _ hz))⟩⟩

/-- Settles O1, word by word. -/
theorem writtenWordsDecode : Obligations.WrittenWordsDecode :=
  ⟨by decide, by decide, by decide, by decide, by decide, by decide, by decide, by decide, by decide, by decide,
    by decide, by decide⟩

end Sys2Proof.Machine
end

section
/-! The back-reference copy as the periodic expansion of the `dist` bytes before it (40_backref_copy.md R112), and the core
step of BRC_COPY (R114). -/

namespace Sys2Proof.Machine

variable {s : State}

/-! ### The periodic expansion -/

/-- By strong induction on `i`: of the first `d` bytes each comes from before the copy, and byte `i ≥ d` is a copy of
byte `i - d`, which the copy wrote earlier. -/
theorem Memory.read_copyBack_periodic (free : Nat → Byte) (m : Memory) {p d : Nat} (hd : 1 ≤ d) (hp : d ≤ p) {i n : Nat}
    (hi : i < n) :
    Memory.read free (Memory.copyBack free m p d n) (p + i) = Memory.read free m (p - d + i % d) := by
  induction i using Nat.strong_induction_on generalizing n with
  | h i ih =>
    rw [Memory.read_copyBack_step _ _ _ _ hi]
    by_cases hold : i < d
    · rw [Nat.mod_eq_of_lt hold]
      exact Memory.read_copyBack_outside _ _ _ _ _ (by omega)
    · rw [show p - d + i = p + (i - d) by omega, Nat.mod_eq_sub_mod (by omega)]
      exact ih (i - d) (by omega) (by omega)

/-- Settles O17, by the periodic expansion at the addresses of `DST`. -/
theorem copyIsPeriodicExpansion : Obligations.CopyIsPeriodicExpansion := by
  intro s p dist len m h
  obtain ⟨hd, hp, -, rfl⟩ := backRefCopy_ok_iff.1 h
  refine ⟨fun i hi => ?copied, fun a ha => ?frame⟩
  case copied =>
    have hsource : s.addr .dst p - dist + i % dist = s.addr .dst (p - dist + i % dist) := by
      simp only [State.addr]
      omega
    calc
      _ = Memory.read s.unlisted (Memory.copyBack s.unlisted s.mem (s.addr .dst p) dist len) (s.addr .dst p + i) :=
        congrArg _ (Nat.add_assoc ..).symm
      _ = s.cell (s.addr .dst p - dist + i % dist) :=
        Memory.read_copyBack_periodic _ _ hd (hp.trans (Nat.le_add_left ..)) hi
      _ = s.byteAt .dst (p - dist + i % dist) := congrArg s.cell hsource
  case frame => exact Memory.read_copyBack_outside _ _ _ _ _ (by simp only [State.addr] at ha ⊢; omega)

/-! ### BRC_COPY -/

theorem runBrcCopy_error {e : ErrCode} (h : backRefCopy s.brcPos.toNat s.brcDist.toNat s.brcLen.toNat s = .error e) :
    runBrcCopy s = raise .brcCopy e s := by
  rw [runBrcCopy, h]

theorem runBrcCopy_ok {m : Memory} (h : backRefCopy s.brcPos.toNat s.brcDist.toNat s.brcLen.toNat s = .ok m) :
    runBrcCopy s = finish { s with mem := m } := by
  rw [runBrcCopy, h]

/-- Settles O18: the first check that fails ends the command, else the copy is the periodic expansion. -/
theorem brcCopyRuns : Obligations.BrcCopyRuns := by
  intro s hp
  have hrun : exec .brcCopy s = .next (runBrcCopy s) := commandStep_run hp
  rw [hrun]
  refine ⟨fun hlook => ?lookbehind, fun hd hle hout => ?output, fun hd hle hroom => ?copies⟩
  case lookbehind => rw [runBrcCopy_error (backRefCopy_error_iff.2 (.inl ⟨hlook, rfl⟩))]; rfl
  case output => rw [runBrcCopy_error (backRefCopy_error_iff.2 (.inr ⟨⟨hd, hle⟩, hout, rfl⟩))]; rfl
  case copies =>
    obtain ⟨m, hcopy⟩ : ∃ m, backRefCopy s.brcPos.toNat s.brcDist.toNat s.brcLen.toNat s = .ok m :=
      ⟨_, backRefCopy_ok_iff.2 ⟨hd, hle, hroom, rfl⟩⟩
    exact ⟨m, congrArg Host.Outcome.next (runBrcCopy_ok hcopy), copyIsPeriodicExpansion s _ _ _ m hcopy⟩

end Sys2Proof.Machine
end

section
/-! The literal-run tokens (41_decoder.md R126, R130 to R132): what a run with room writes, and how one without room
fails. -/

namespace Sys2Proof.Machine

variable {s : State} {n : Nat}

theorem afterLiterals_byteAt (d : BitVec 3) (s : State) {j : Nat} (hj : j < n) :
    (afterLiterals n d s).byteAt .dst (s.outPos.toNat + j) = s.byteAt .src (s.inPos.toNat + j) := by
  have haddr : (afterLiterals n d s).addr .dst (s.outPos.toNat + j) = s.addr .dst s.outPos.toNat + j :=
    (Nat.add_assoc ..).symm
  rw [State.byteAt, haddr, afterLiterals_cell, if_pos (by simp only [State.addr]; omega), Nat.add_sub_cancel_left]

theorem afterLiterals_outside (d : BitVec 3) {a : Nat}
    (ha : a < s.addr .dst s.outPos.toNat ∨ s.addr .dst (s.outPos.toNat + n) ≤ a) :
    (afterLiterals n d s).cell a = s.cell a := by
  rw [afterLiterals_cell, if_neg (by omega)]

theorem exec_literal_error {i : Instr} {d : BitVec 3} {e : ErrCode} (hi : literalOperands i = some (n, d))
    (he : execLiterals n d s = .error e) : exec i s = .next (raise .decStart e s) :=
  (exec_literal hi s).trans (congrArg (endToken s) he)

/-- Settles O19: both checks pass, so the result is the state after the run. -/
theorem literalTokensComplete : Obligations.LiteralTokensComplete := by
  intro i n d s hi hout hin
  have hrun : execLiterals n d s = .ok (afterLiterals n d s) := execLiterals_ok_iff.2 ⟨hout, hin, rfl⟩
  exact ⟨(afterLiterals n d s).mem, (exec_literal hi s).trans (congrArg (endToken s) hrun),
    fun _ hj => afterLiterals_byteAt d s hj, fun _ ha => afterLiterals_outside d ha⟩

/-- Settles O20: the checks of the run in their order, and the extension that was not read. -/
theorem literalTokensFail : Obligations.LiteralTokensFail := by
  refine fun s => ⟨fun i n d hi => ⟨fun hout => ?output, fun hout hin => ?input⟩, fun e => ?extension⟩
  case output => exact exec_literal_error hi (execLiterals_error_iff.2 (.inl ⟨hout, rfl⟩))
  case input => exact exec_literal_error hi (execLiterals_error_iff.2 (.inr ⟨hout, hin, rfl⟩))
  case extension => exact exec_readError (i := .litX (.failed e)) rfl s

end Sys2Proof.Machine
end

section
/-! The match tokens (41_decoder.md R127, R133 to R139, R145): what a match with room writes, the order of the checks of
one without, and the ends that are no match (R124, R125, R140, R141). -/

namespace Sys2Proof.Machine

variable {s : State} {len dist : Nat} {k : BitVec 2}

/-! ### What a match writes -/

/-- The trailing literals stand past the copy, so the copied bytes stay (40_backref_copy.md R112). -/
theorem afterMatch_copied (k : BitVec 2) (hd : 1 ≤ dist) (hp : dist ≤ s.outPos.toNat)
    (ho : s.outPos.toNat + len ≤ s.outLen.toNat) {j : Nat} (hj : j < len) :
    (afterMatch dist len k s).byteAt .dst (s.outPos.toNat + j) =
      s.byteAt .dst (s.outPos.toNat - dist + j % dist) := by
  have hcopy : backRefCopy s.outPos.toNat dist len s = .ok (matchCopy dist len s) :=
    backRefCopy_ok_iff.2 ⟨hd, hp, ho, rfl⟩
  have hbefore : ¬(s.addr .dst (s.outPos.toNat + len) ≤ s.addr .dst (s.outPos.toNat + j)
      ∧ s.addr .dst (s.outPos.toNat + j) < s.addr .dst (s.outPos.toNat + len + k.toNat)) := by
    simp only [State.addr]
    omega
  exact (afterMatch_cell ..).trans ((if_neg hbefore).trans ((copyIsPeriodicExpansion _ _ _ _ _ hcopy).1 j hj))

/-- The trailing literals are read after the copy, which leaves `SRC` (20_memory.md R72). -/
theorem afterMatch_trailing (ha : s.attachedFor .decStart) (dist : Nat) (ho : s.outPos.toNat + len ≤ s.outLen.toNat)
    (hi : s.inPos.toNat + k.toNat ≤ s.inLen.toNat) {j : Nat} (hj : j < k.toNat) :
    (afterMatch dist len k s).byteAt .dst (s.outPos.toNat + len + j) = s.byteAt .src (s.inPos.toNat + j) := by
  have haddr : (afterMatch dist len k s).addr .dst (s.outPos.toNat + len + j) =
      s.addr .dst (s.outPos.toNat + len) + j := (Nat.add_assoc ..).symm
  rw [State.byteAt, haddr, afterMatch_cell, if_pos (by simp only [State.addr]; omega), Nat.add_sub_cancel_left]
  exact matchCopy_keeps_src ha ho (by omega)

theorem afterMatch_outside (dist : Nat) {a : Nat}
    (ha : a < s.addr .dst s.outPos.toNat ∨ s.addr .dst (s.outPos.toNat + len + k.toNat) ≤ a) :
    (afterMatch dist len k s).cell a = s.cell a := by
  simp only [State.addr] at ha
  rw [afterMatch_cell, if_neg, matchCopy_outside] <;> simp only [State.addr] <;> omega

theorem exec_match_error {i : Instr} {e : ErrCode} (hi : matchOperands i = some (len, dist, k))
    (he : execMatch dist len k s = .error e) : exec i s = .next (raise .decStart e s) :=
  (exec_match hi s).trans (congrArg (endToken s) he)

/-- Settles O21: every check passes, so the result is the state after the match. -/
theorem matchTokensComplete : Obligations.MatchTokensComplete := by
  intro i len dist k s hi hp hout hin
  have hd : 1 ≤ dist := matchOperands_dist_pos hi
  have hcopy : s.outPos.toNat + len ≤ s.outLen.toNat := Nat.le_of_add_right_le hout
  have hrun : execMatch dist len k s = .ok (afterMatch dist len k s) :=
    execMatch_ok_iff.2 ⟨hd, hp, hout, hin, rfl⟩
  exact ⟨(afterMatch dist len k s).mem, (exec_match hi s).trans (congrArg (endToken s) hrun),
    fun _ hj => afterMatch_copied k hd hp hcopy hj, fun ha _ hj => afterMatch_trailing ha dist hcopy hin hj,
    fun _ ha => afterMatch_outside dist ha⟩

/-! ### The checks of a match in their order -/

/-- Settles O22: the first check that fails gives the error. -/
theorem matchTokensFailInOrder : Obligations.MatchTokensFailInOrder := by
  intro i len dist k s hi
  have hd : 1 ≤ dist := matchOperands_dist_pos hi
  refine ⟨fun hp => ?lookbehind, fun hp hout => ?output, fun hp hout hin => ?input⟩
  case lookbehind => exact exec_match_error hi (execMatch_error_iff.2 (.inl ⟨.inr hp, rfl⟩))
  case output => exact exec_match_error hi (execMatch_error_iff.2 (.inr ⟨⟨hd, hp⟩, .inl ⟨hout, rfl⟩⟩))
  case input => exact exec_match_error hi (execMatch_error_iff.2 (.inr ⟨⟨hd, hp⟩, .inr ⟨hout, hin, rfl⟩⟩))

/-! ### The ends that are no match -/

theorem readError_m3X_failed (e : ErrCode) (v : Operand Half) : readError (.m3X (.failed e) v) = some e := by
  cases v <;> rfl

theorem readError_m4X_failed (h : BitVec 1) (e : ErrCode) (v : Operand Half) :
    readError (.m4X h (.failed e) v) = some e := by
  cases v <;> rfl

/-- Settles O23: each of these forms carries the read error `e`. -/
theorem missingOperandsFail : Obligations.MissingOperandsFail := by
  intro s e i hi
  have he : readError i = some e := by
    obtain ⟨_, _, rfl⟩ | ⟨_, _, rfl⟩ | ⟨_, _, _, rfl⟩ | ⟨_, rfl⟩ | ⟨v, rfl⟩ | ⟨_, rfl⟩ | ⟨_, _, rfl⟩ | ⟨h, v, rfl⟩
      | ⟨_, _, rfl⟩ := hi
    exacts [rfl, rfl, rfl, rfl, readError_m3X_failed e v, rfl, rfl, readError_m4X_failed h e v, rfl]
  exact exec_readError he s

/-- Settles O24: its meaning is the success end. -/
theorem terminatorEndsDecode : Obligations.TerminatorEndsDecode := fun _ _ => rfl

theorem m4Tail_terminator {h : BitVec 1} {v : Half} (hv : m4DistBase h v = 0) (s : State) :
    m4Tail h 3 v s = .ok (finish s) := by
  rw [m4Tail, if_pos hv, if_pos rfl]

theorem m4Tail_malformed {h : BitVec 1} {v : Half} (hv : m4DistBase h v = 0) (hlen : len ≠ 3) (s : State) :
    m4Tail h len v s = .error .inputOverrun := by
  rw [m4Tail, if_pos hv, if_neg hlen]

/-- Settles O25: a zero-extended length is at least `M4_ZEXT_BASE`, so never the terminator's 3. -/
theorem malformedTerminatorFails : Obligations.MalformedTerminatorFails := by
  intro h l z v s hv
  have hext : zextLen Config.m4Base z ≠ 3 := by
    simp only [zextLen, Config.m4Base]
    omega
  refine ⟨fun hlen => ?direct, fun hlen => ?terminator, ?extended⟩
  case direct => exact congrArg (endToken s) (m4Tail_malformed hv hlen s)
  case terminator =>
    have hend : m4Tail h (m4Len l) v s = .ok (finish s) := hlen ▸ m4Tail_terminator hv s
    exact congrArg (endToken s) hend
  case extended => exact congrArg (endToken s) (m4Tail_malformed hv hext s)

end Sys2Proof.Machine
end

section
/-! The start of a decode (41_decoder.md R120) and the end of its input (R123). -/

namespace Sys2Proof.Machine

variable {s : State}

/-- Settles O26: an idle core accepts the command. -/
theorem decStartIsAccepted : Obligations.DecStartIsAccepted := fun _ hp => commandStep_idle hp

theorem tokenFetch_exhausted (h : s.inLen.toNat ≤ s.inPos.toNat) :
    tokenFetch s = .out (.next (raise .decStart .unexpectedEof s)) := by
  have hnil : s.streamBytes = [] := List.eq_nil_of_length_eq_zero ((streamBytes_length s).trans (by omega))
  rw [tokenFetch, hnil]
  rfl

/-- Settles O39: no byte is left, so the fetch raises the error. -/
theorem exhaustedInputFails : Obligations.ExhaustedInputFails := by
  intro s hh ha hp hlen
  rw [step_core hh, coreStep_phase (attached_overBound ha) (attached_overlap ha), phaseFetch_token (.inl hp),
    tokenFetch_exhausted hlen]
  rfl

end Sys2Proof.Machine
end

section
/-! Tokens cut off by the end of the input (41_decoder.md R124, R128; 30_encoding.md R82): the first operand that is not
all there is failed, by the reader of that operand. -/

namespace Sys2Proof.Machine

variable {bs : List Byte} {k : Nat}

theorem readLE16_cut (h : bs.length < 2) : readLE16 bs = .failed .inputOverrun := by
  match bs with
  | [] | [_] => rfl
  | _ :: _ :: rest => simp only [List.length_cons] at h; omega

/-- A cut distance word is not the terminator's, so the token is M4 (log 13). -/
theorem decodeM4_cut (t : Byte) (h : bs.length < 2) :
    decodeM4 t bs = (.m4 (field 3 1 t) (field 0 3 t) (.failed .inputOverrun), 3) := by
  have hmark : isEndMark bs = false := by
    rw [Bool.eq_false_iff, ne_eq, isEndMark_iff_readLE16, readLE16_cut h]
    simp
  rw [decodeM4_match fun _ => hmark, readLE16_cut h]

theorem zextThenWord_cutZext (make : Operand Zext → Operand Half → Instr) (hk : k ≤ Config.kMax) :
    zextThenWord make (List.replicate k 0) = (make (.failed .inputOverrun) (.failed .inputOverrun), 1) :=
  zextThenWord_failed make (readZext_off_input hk)

theorem zextThenWord_cutWord (make : Operand Zext → Operand Half → Instr) {b : Byte} (hk : k ≤ Config.kMax)
    (hb : b ≠ 0) (h : bs.length < 2) :
    zextThenWord make (List.replicate k 0 ++ b :: bs) = (make (.got ⟨k, b⟩) (.failed .inputOverrun), k + 4) := by
  rw [zextThenWord_got make k b bs hk hb, readLE16_cut h]

/-- Settles O59, class by class of the opcode map. -/
theorem cutTokensMissOperands : Obligations.CutTokensMissOperands := by
  intro ctx t bs
  refine ⟨fun h => ?m1, fun h => ?m1b, fun hc h => ?m2, fun hc h h' hbs => ?m3, fun hc h h' hl hbs => ?m4,
    fun k b zeros hk hz => ?extended⟩
  case m1 => exact ⟨_, _, _, congrArg Decoded.ok (tokenOf_m1 h)⟩
  case m1b => exact ⟨_, _, _, congrArg Decoded.ok (tokenOf_m1b h)⟩
  case m2 => exact ⟨_, _, _, _, congrArg Decoded.ok (tokenOf_m2 hc h)⟩
  case m3 =>
    have htok := tokenOf_m3 (bs := bs) hc h (Nat.lt_succ_of_le h')
    rw [readLE16_cut hbs] at htok
    exact ⟨_, _, congrArg Decoded.ok htok⟩
  case m4 =>
    rw [and_seven] at hl
    have hctx : ctx ≠ .first ∨ t.toNat < 18 := hc.imp_right fun ht => by omega
    exact ⟨_, _, _, congrArg Decoded.ok ((tokenOf_m4 hctx h (Nat.lt_succ_of_le h') hl).trans (decodeM4_cut t hbs))⟩
  case extended =>
    subst hz
    refine ⟨fun hc => ?litX, fun hc => ?m3XZext, fun hc hb hbs => ?m3XWord, fun ht => ?m4X⟩
    case litX => exact ⟨_, congrArg Decoded.ok ((tokenOf_litX hc _).trans (decodeLitX_failed (readZext_off_input hk)))⟩
    case m3XZext => exact ⟨_, _, congrArg Decoded.ok ((tokenOf_m3X hc _).trans (zextThenWord_cutZext _ hk))⟩
    case m3XWord => exact ⟨_, congrArg Decoded.ok ((tokenOf_m3X hc _).trans (zextThenWord_cutWord _ hk hb hbs))⟩
    case m4X =>
      have htok : ∀ rest, tokenOf ctx t rest = zextThenWord (.m4X (field 3 1 t)) rest := fun rest =>
        tokenOf_m4X (ht.symm.imp And.left fun h => by omega) (by omega) (by omega) (by omega)
      exact ⟨⟨_, _, _, congrArg Decoded.ok ((htok _).trans (zextThenWord_cutZext _ hk))⟩, fun hb hbs =>
        ⟨_, _, congrArg Decoded.ok ((htok _).trans (zextThenWord_cutWord _ hk hb hbs))⟩⟩

end Sys2Proof.Machine
end

section
/-! The class of a match by the ranges of its operands (42_token_encoder.md R170), and its cost (R178). -/

namespace Sys2Proof.Machine

variable {len dist plit : Nat} {c : MatchClass}

/-- The lengths, distances and preceding literal counts of a class (R170). -/
def MatchClass.InRange (len dist plit : Nat) : MatchClass → Prop
  | .m1 => len = 2 ∧ 1 ≤ dist ∧ dist ≤ 1024 ∧ 1 ≤ plit ∧ plit ≤ 3
  | .m1b => len = 3 ∧ 2048 < dist ∧ dist ≤ 3072 ∧ 4 ≤ plit
  | .m2 => 3 ≤ len ∧ len ≤ 8 ∧ 1 ≤ dist ∧ dist ≤ 2048
  | .m3 => 3 ≤ len ∧ len ≤ 33 ∧ 1 ≤ dist ∧ dist ≤ 16384 ∧
      ¬(len ≤ 8 ∧ dist ≤ 2048) ∧ ¬(len = 3 ∧ 2048 < dist ∧ dist ≤ 3072 ∧ 4 ≤ plit)
  | .m3X => 34 ≤ len ∧ 1 ≤ dist ∧ dist ≤ 16384
  | .m4 => 3 ≤ len ∧ len ≤ 9 ∧ 16384 < dist ∧ dist ≤ 49151
  | .m4X => 10 ≤ len ∧ 16384 < dist ∧ dist ≤ 49151

/-- The row that chooses a class, and the rows before it that do not apply, give the class's range. -/
theorem inRange_of_classify (h : classify len dist plit = some c) : c.InRange len dist plit := by
  revert h
  fun_cases classify <;> rintro ⟨⟩ <;> simp only [MatchClass.InRange] <;> omega

/-- In a class's range its row is the first of R170 that applies. -/
theorem classify_of_inRange (h : c.InRange len dist plit) : classify len dist plit = some c := by
  cases c <;> simp only [MatchClass.InRange] at h
  case m1 => rw [classify, if_neg (by omega), if_pos (by omega), if_pos (by omega)]
  case m2 => rw [classify, if_neg (by omega), if_neg (by omega), if_pos (by omega)]
  case m1b => rw [classify, if_neg (by omega), if_neg (by omega), if_neg (by omega), if_pos h]
  case m3 =>
    rw [classify, if_neg (by omega), if_neg (by omega), if_neg (by omega), if_neg (by omega), if_pos (by omega),
      if_neg (by omega)]
  case m3X =>
    rw [classify, if_neg (by omega), if_neg (by omega), if_neg (by omega), if_neg (by omega), if_pos (by omega),
      if_pos (by omega)]
  case m4 =>
    rw [classify, if_neg (by omega), if_neg (by omega), if_neg (by omega), if_neg (by omega), if_neg (by omega),
      if_pos (by omega), if_neg (by omega)]
  case m4X =>
    rw [classify, if_neg (by omega), if_neg (by omega), if_neg (by omega), if_neg (by omega), if_neg (by omega),
      if_pos (by omega), if_pos (by omega)]

theorem classify_eq_some_iff : classify len dist plit = some c ↔ c.InRange len dist plit :=
  ⟨inRange_of_classify, classify_of_inRange⟩

theorem classify_eq_none_iff : classify len dist plit = none ↔ len < 2 ∨ dist < 1 ∨ 49151 < dist
    ∨ len = 2 ∧ ¬(dist ≤ 1024 ∧ 1 ≤ plit ∧ plit ≤ 3) := by
  fun_cases classify <;> simp only [reduceCtorEq, true_iff, false_iff] <;> omega

/-- Settles O12, class by class. -/
theorem matchClassesByRange : Obligations.MatchClassesByRange := fun _ _ _ =>
  ⟨classify_eq_some_iff, classify_eq_some_iff, classify_eq_some_iff, classify_eq_some_iff, classify_eq_some_iff,
    classify_eq_some_iff, classify_eq_some_iff, classify_eq_none_iff⟩

/-! ### The cost -/

theorem cost_of_none (h : classify len dist plit = none) : cost len dist plit = 0 := by rw [cost, h]

/-- The cost of an encodable match is the length of its bytes (R178). -/
theorem cost_of_some (h : classify len dist plit = some c) : cost len dist plit = (matchBytes c len dist).length := by
  rw [cost, h]
  cases c with
  | m1 | m1b | m2 | m3 | m4 => rfl
  | m3X | m4X =>
    simp only [matchBytes, wordBytes, List.length_cons, List.length_append, List.length_nil, zextBytes_length,
      Config.m3Base, Config.m4Base]
    omega

theorem cost_eq_zero_iff : cost len dist plit = 0 ↔ classify len dist plit = none := by
  refine ⟨fun h0 => ?_, cost_of_none⟩
  cases hc : classify len dist plit with
  | none => rfl
  | some c =>
    have := matchBytes_length c len dist
    rw [← cost_of_some hc] at this
    omega

/-- Settles O16: the cost is defined class by class, and the bytes of every class are as many. -/
theorem costIsLengthOfBytes : Obligations.CostIsLengthOfBytes := by
  refine fun len dist plit => ⟨cost_eq_zero_iff.symm, fun c => cost_of_some, ?short, ?word, fun h => ?m3X,
    fun h => ?m4X⟩
  case short => rintro (h | h | h) <;> rw [cost, h]
  case word => rintro (h | h) <;> rw [cost, h]
  case m3X => rw [cost, h]
  case m4X => rw [cost, h]

/-- A zero-extended length takes a byte for every 255, so a cost is well below the match's length. -/
theorem cost_le (len dist plit : Nat) : cost len dist plit ≤ 4 + len / 255 := by
  unfold cost
  split <;> omega

end Sys2Proof.Machine
end

section
/-! The serialized zero-extension (42_token_encoder.md R161) and the headers of literal runs (R162 to R167), read
back by the decoder. -/

namespace Sys2Proof.Machine

/-! ### The zero-extension -/

/-- The zero-extension that ZextBytes writes for `x` (R161). -/
def zextOf (x : Nat) : Zext := ⟨(x - 1) / 255, byte (x - 255 * ((x - 1) / 255))⟩

theorem zextBytes_eq (x : Nat) : zextBytes x = (zextOf x).bytes := rfl

theorem byte_toNat {n : Nat} (h : n < 256) : (byte n).toNat = n := by
  rw [byte, BitVec.toNat_ofNat, Nat.mod_eq_of_lt h]

theorem ofNat_ne_zero {w n : Nat} (h1 : 1 ≤ n) (h : n < 2 ^ w) : BitVec.ofNat w n ≠ 0 := by
  rw [ne_eq, ← BitVec.toNat_inj, BitVec.toNat_ofNat, Nat.mod_eq_of_lt h]
  exact Nat.ne_of_gt h1

theorem zextOf_b_toNat (x : Nat) : (zextOf x).b.toNat = x - 255 * ((x - 1) / 255) := byte_toNat (by omega)

theorem zextOf_b_ne_zero {x : Nat} (hx : 1 ≤ x) : (zextOf x).b ≠ 0 := by
  rw [byte_ne_zero_iff, zextOf_b_toNat]
  omega

/-- A zero-extended length is its base and the number written (R92, R93). -/
theorem zextLen_zextOf (base : Nat) {x : Nat} (hx : 1 ≤ x) : zextLen base (zextOf x) = base + x := by
  have hk : (zextOf x).k = (x - 1) / 255 := rfl
  rw [zextLen, zextOf_b_toNat, hk]
  omega

/-- Settles O11. -/
theorem zextBytesReadBack : Obligations.ZextBytesReadBack := by
  intro x cap rest hx
  refine ⟨(zextOf x).b, rfl, zextBytes_length x, byte_ne_zero_iff.1 (zextOf_b_ne_zero hx), ?value,
    fun hcap => ?read⟩
  case value =>
    rw [zextOf_b_toNat]
    omega
  case read =>
    rw [zextBytes_eq, Zext.bytes, List.append_assoc]
    exact readZext_got _ _ _ _ hcap (zextOf_b_ne_zero hx)

/-! ### Literal headers -/

/-- The header rows of R162, each with its range: the rows before a row are the bounds that it does not name. -/
theorem litForm_header_iff {p n : Nat} {hdr : List Byte} : litForm p n = .header hdr ↔
    p = 0 ∧ n ≤ 238 ∧ hdr = [byte (17 + n)]
    ∨ p ≠ 0 ∧ 4 ≤ n ∧ n ≤ 18 ∧ hdr = [byte (n - 3)]
    ∨ (p = 0 ∧ 239 ≤ n ∨ p ≠ 0 ∧ 19 ≤ n) ∧ hdr = 0x00 :: zextBytes (n - 18) := by
  fun_cases litForm <;> grind [Config.litBase]

theorem byte_add (m n : Nat) : byte (m + n) = byte n + byte m := by
  rw [Nat.add_comm, byte, BitVec.ofNat_add]

theorem byte_low_nibble {n : Nat} (h : n < 16) : (0#4 ++ BitVec.ofNat 4 n : Byte) = byte n := by
  apply BitVec.eq_of_toNat_eq
  rw [BitVec.toNat_append, byte_toNat (by omega), BitVec.toNat_ofNat, BitVec.toNat_ofNat, Nat.mod_eq_of_lt h,
    Nat.zero_mod, Nat.zero_shiftLeft, Nat.zero_or]

/-! The header of each row is the bytes of a literal-run token, which stands for that run (30_encoding.md R90, R91). -/

theorem firstHeader_decodes {n : Nat} (h1 : 1 ≤ n) (h : n ≤ 238) (rest : List Byte) :
    decodeToken .first ([byte (17 + n)] ++ rest) = .ok (.initLit (byte n), 1)
    ∧ literalOperands (.initLit (byte n)) = some (n, BitVec.ofNat 3 (min n 4)) := by
  have hb : (byte n).toNat = n := byte_toNat (by omega)
  rw [byte_add, literalOperands, hb]
  exact ⟨decodesBack_initLit (by omega) (by omega) rest, rfl⟩

theorem shortHeader_decodes {n : Nat} (h4 : 4 ≤ n) (h : n ≤ 18) (rest : List Byte) :
    decodeToken .state0 ([byte (n - 3)] ++ rest) = .ok (.lit (BitVec.ofNat 4 (n - 3)), 1)
    ∧ literalOperands (.lit (BitVec.ofNat 4 (n - 3))) = some (n, 4) := by
  have hlen : litLen (BitVec.ofNat 4 (n - 3)) = n := by
    rw [litLen, BitVec.toNat_ofNat]
    omega
  rw [← byte_low_nibble (by omega), literalOperands, hlen]
  exact ⟨decodesBack_lit (.inr rfl) (ofNat_ne_zero (by omega) (by omega)) rest, rfl⟩

theorem extendedHeader_decodes {ctx : Context} (hctx : ctx = .first ∨ ctx = .state0) {n : Nat} (h : 19 ≤ n)
    (hcap : (n - 19) / 255 ≤ Config.kMax) (rest : List Byte) :
    decodeToken ctx (0x00 :: zextBytes (n - 18) ++ rest)
      = .ok (.litX (.got (zextOf (n - 18))), (0x00 :: zextBytes (n - 18)).length)
    ∧ literalOperands (.litX (.got (zextOf (n - 18)))) = some (n, 4) := by
  rw [literalOperands, zextLen_zextOf _ (by omega), Config.litBase, Nat.add_sub_cancel' (by omega)]
  exact ⟨decodesBack_litX hctx ((Nat.sub_sub n 18 1).symm ▸ hcap) (zextOf_b_ne_zero (by omega)) rest, rfl⟩

/-- Settles O15, row by row of R162. -/
theorem literalHeaderDecodes : Obligations.LiteralHeaderDecodes := by
  intro p n bytes rest hn hform hcap
  obtain ⟨rfl, hmax, rfl⟩ | ⟨hp, hmin, hmax, rfl⟩ | ⟨hrow, rfl⟩ := litForm_header_iff.1 hform
  · exact ⟨_, firstHeader_decodes hn hmax rest⟩
  · rw [if_neg hp, if_neg hp]
    exact ⟨_, shortHeader_decodes hmin hmax rest⟩
  · have hstate : (if p = 0 then BitVec.ofNat 3 (min n 4) else 4) = 4 := by
      rw [Nat.min_eq_right (by omega)]
      exact ite_self _
    rw [hstate]
    exact ⟨_, extendedHeader_decodes (ite_eq_or_eq ..) (by omega) hcap rest⟩

end Sys2Proof.Machine
end

section
/-! The bytes of an encodable match, with or without a trailing-literal count, as the bytes of a match token
(42_token_encoder.md R165, R169 to R177). -/

namespace Sys2Proof.Machine

variable {len dist plit n : Nat} {c : MatchClass}

/-- The distance word of M3 and M4 for an offset `d` and a trailing-literal count (30_encoding.md R87, R88). -/
def distWord (d : Nat) (k : BitVec 2) : Half := BitVec.ofNat 14 d ++ k

/-- The token that a match of a class is written as (R171 to R177), with a trailing-literal count. -/
def matchToken (c : MatchClass) (len dist : Nat) (k : BitVec 2) : Instr :=
  match c with
  | .m1 => .m1 (BitVec.ofNat 2 (dist - 1)) k (.got (byte ((dist - 1) >>> 2)))
  | .m1b => .m1b (BitVec.ofNat 2 (dist - 2049)) k (.got (byte ((dist - 2049) >>> 2)))
  | .m2 => .m2 (BitVec.ofNat 3 (len - 1)) (BitVec.ofNat 3 (dist - 1)) k (.got (byte ((dist - 1) >>> 3)))
  | .m3 => .m3 (BitVec.ofNat 5 (len - 2)) (.got (distWord (dist - 1) k))
  | .m3X => .m3X (.got (zextOf (len - 33))) (.got (distWord (dist - 1) k))
  | .m4 => .m4 (BitVec.ofNat 1 ((dist - 0x4000) >>> 14)) (BitVec.ofNat 3 (len - 2)) (.got (distWord (dist - 0x4000) k))
  | .m4X => .m4X (BitVec.ofNat 1 ((dist - 0x4000) >>> 14)) (.got (zextOf (len - 9))) (.got (distWord (dist - 0x4000) k))

/-! ### What the token stands for -/

theorem distWord_toNat (d : Nat) (k : BitVec 2) : (distWord d k).toNat = 4 * (d % 16384) + k.toNat := by
  rw [distWord, BitVec.toNat_append, BitVec.toNat_ofNat, Nat.shiftLeft_eq, Nat.mul_comm]
  exact (Nat.two_pow_add_eq_or_of_lt k.isLt _).symm

theorem distWord_shift (d : Nat) (k : BitVec 2) : (distWord d k).toNat >>> 2 = d % 16384 := by
  rw [distWord_toNat, Nat.shiftRight_eq_div_pow]
  omega

theorem wordTrail_distWord (d : Nat) (k : BitVec 2) : wordTrail (distWord d k) = k := by
  apply BitVec.eq_of_toNat_eq
  rw [wordTrail, field_toNat, distWord_toNat]
  omega

theorem m3Dist_distWord {d : Nat} (h : d < 16384) (k : BitVec 2) : m3Dist (distWord d k) = d + 1 := by
  rw [m3Dist, distWord_shift, Nat.mod_eq_of_lt h]

theorem m4DistBase_distWord {e : Nat} (h : e < 32768) (k : BitVec 2) :
    m4DistBase (BitVec.ofNat 1 (e >>> 14)) (distWord e k) = e := by
  rw [m4DistBase, distWord_shift, BitVec.toNat_ofNat, Nat.shiftRight_eq_div_pow, Nat.shiftLeft_eq, Nat.shiftLeft_eq]
  omega

theorem m1Dist_ofNat {d : Nat} (h : d < 1024) : m1Dist (BitVec.ofNat 2 d) (byte (d >>> 2)) = d + 1 := by
  simp only [m1Dist, BitVec.toNat_ofNat, Nat.shiftRight_eq_div_pow, Nat.shiftLeft_eq]
  omega

theorem m1bDist_ofNat {d : Nat} (h : d < 1024) : m1bDist (BitVec.ofNat 2 d) (byte (d >>> 2)) = d + 2049 := by
  simp only [m1bDist, BitVec.toNat_ofNat, Nat.shiftRight_eq_div_pow, Nat.shiftLeft_eq]
  omega

theorem m2Dist_ofNat {d : Nat} (h : d < 2048) : m2Dist (BitVec.ofNat 3 d) (byte (d >>> 3)) = d + 1 := by
  simp only [m2Dist, BitVec.toNat_ofNat, Nat.shiftRight_eq_div_pow, Nat.shiftLeft_eq]
  omega

theorem m2Len_ofNat {l : Nat} (h : l < 8) : m2Len (BitVec.ofNat 3 l) = l + 1 := by
  rw [m2Len, BitVec.toNat_ofNat, Nat.mod_eq_of_lt h]

theorem m3Len_ofNat {l : Nat} (h : l < 32) : m3Len (BitVec.ofNat 5 l) = l + 2 := by
  rw [m3Len, BitVec.toNat_ofNat, Nat.mod_eq_of_lt h]

theorem m4Len_ofNat {l : Nat} (h : l < 8) : m4Len (BitVec.ofNat 3 l) = l + 2 := by
  rw [m4Len, BitVec.toNat_ofNat, Nat.mod_eq_of_lt h]

/-- A nonzero offset is never spelt as the terminator (30_encoding.md R89). -/
theorem not_terminator {e : Nat} (h : 1 ≤ e) (h' : e < 32768) (l : BitVec 3) (k : BitVec 2) :
    isTerminator (BitVec.ofNat 1 (e >>> 14)) l (distWord e k) = false := by
  rw [Bool.eq_false_iff, ne_eq, isTerminator_iff]
  rintro ⟨hh, -, hv⟩
  have hbase := m4DistBase_distWord h' k
  rw [hh, m4DistBase, hv] at hbase
  exact absurd hbase (Nat.ne_of_lt h)

theorem m4_operands {e : Nat} (h : 1 ≤ e) (h' : e < 32768) (len : Nat) (k : BitVec 2) :
    (if m4DistBase (BitVec.ofNat 1 (e >>> 14)) (distWord e k) = 0 then none
      else some (len, m4Dist (BitVec.ofNat 1 (e >>> 14)) (distWord e k), wordTrail (distWord e k)))
    = some (len, e + 0x4000, k) := by
  rw [m4Dist, m4DistBase_distWord h', if_neg (by omega), wordTrail_distWord]

/-- The token of an encodable match copies that match (R170 to R177 against 30_encoding.md R84 to R88). -/
theorem matchOperands_matchToken (h : classify len dist plit = some c) (k : BitVec 2) :
    matchOperands (matchToken c len dist k) = some (len, dist, k) := by
  have hr := inRange_of_classify h
  cases c <;> simp only [MatchClass.InRange] at hr <;> simp only [matchToken, matchOperands]
  case m1 => rw [m1Dist_ofNat (by omega), Nat.sub_add_cancel (by omega), hr.1]
  case m1b => rw [m1bDist_ofNat (by omega), Nat.sub_add_cancel (by omega), hr.1]
  case m2 =>
    rw [m2Len_ofNat (by omega), m2Dist_ofNat (by omega), Nat.sub_add_cancel (by omega), Nat.sub_add_cancel (by omega)]
  case m3 =>
    rw [m3Len_ofNat (by omega), m3Dist_distWord (by omega), wordTrail_distWord, Nat.sub_add_cancel (by omega),
      Nat.sub_add_cancel (by omega)]
  case m3X =>
    rw [zextLen_zextOf _ (by omega), Config.m3Base, Nat.add_sub_cancel' (by omega), m3Dist_distWord (by omega),
      wordTrail_distWord, Nat.sub_add_cancel (by omega)]
  case m4 =>
    rw [m4_operands (by omega) (by omega), m4Len_ofNat (by omega), Nat.sub_add_cancel (by omega),
      Nat.sub_add_cancel (by omega)]
  case m4X =>
    rw [m4_operands (by omega) (by omega), zextLen_zextOf _ (by omega), Config.m4Base, Nat.add_sub_cancel' (by omega),
      Nat.sub_add_cancel (by omega)]

/-! ### Its bytes -/

/-- The bytes with a count OR-ed into the last byte but one (R165, R169). -/
def orCount (n : Nat) (bs : List Byte) : List Byte := bs.set (bs.length - 2) (bs.getD (bs.length - 2) 0 ||| byte n)

@[simp] theorem orCount_length (n : Nat) (bs : List Byte) : (orCount n bs).length = bs.length := List.length_set

theorem orCount_pair (n : Nat) (lo hi : Byte) : orCount n [lo, hi] = [lo ||| byte n, hi] := rfl

/-- Only the last two bytes matter. -/
theorem orCount_append (n : Nat) (bs : List Byte) (lo hi : Byte) :
    orCount n (bs ++ [lo, hi]) = bs ++ orCount n [lo, hi] := by
  simp [orCount]

theorem orCount_zero {bs : List Byte} (h : 2 ≤ bs.length) : orCount 0 bs = bs := by
  rw [orCount, BitVec.or_zero, List.getD_eq_getElem _ _ (by omega), List.set_getElem_self]

/-! Opcode bytes, from their fields and from the numbers of R171 to R177. -/

theorem shortByte_eq : ∀ d k : BitVec 2, (0#4 ++ d ++ k : Byte) = byte (d.toNat <<< 2) ||| byte k.toNat := by decide

theorem m2Byte_eq : ∀ (l d : BitVec 3) (k : BitVec 2),
    (l ++ d ++ k : Byte) = byte ((l.toNat <<< 5) ||| (d.toNat <<< 2)) ||| byte k.toNat := by decide

theorem m3Byte_eq : ∀ l : BitVec 5, (0b001#3 ++ l : Byte) = byte (0x20 ||| l.toNat) := by decide

theorem m4Byte_eq : ∀ (h : BitVec 1) (l : BitVec 3),
    (0b0001#4 ++ h ++ l : Byte) = byte ((0x10 ||| (h.toNat <<< 3)) ||| l.toNat) := by decide

/-- Bit 14 of the offset is bit 3 of the opcode byte (R176). -/
theorem m4Head_eq (e : Nat) : m4Head e = 0x10 ||| ((BitVec.ofNat 1 (e >>> 14)).toNat <<< 3) := by
  have hbit : (e >>> 11) &&& 8 = (e >>> 14 % 2) <<< 3 := by
    rw [show 8 = 2 ^ 3 from rfl, Nat.and_two_pow, Nat.toNat_testBit]
    simp only [Nat.shiftRight_eq_div_pow, Nat.shiftLeft_eq]
    omega
  rw [m4Head, hbit, BitVec.toNat_ofNat]

theorem m4Byte_ofNat {l : Nat} (h : l < 8) (e : Nat) :
    (0b0001#4 ++ BitVec.ofNat 1 (e >>> 14) ++ BitVec.ofNat 3 l : Byte) = byte (m4Head e ||| l) := by
  rw [m4Byte_eq, m4Head_eq, BitVec.toNat_ofNat (w := 3), Nat.mod_eq_of_lt h]

theorem halfBytes_distWord (d : Nat) (k : BitVec 2) :
    halfBytes (distWord d k) = orCount k.toNat (wordBytes d) := by
  have hlow : field 0 8 (distWord d k) = byte ((d <<< 2) &&& 0xFF) ||| byte k.toNat := by
    apply BitVec.eq_of_toNat_eq
    have hmask : (d <<< 2) &&& 0xFF = 2 ^ 2 * (d % 64) := by
      rw [Nat.and_two_pow_sub_one_eq_mod _ 8, Nat.shiftLeft_eq]
      omega
    rw [field_toNat, distWord_toNat, BitVec.toNat_or, hmask, byte_toNat (by omega), byte_toNat (by omega),
      ← Nat.two_pow_add_eq_or_of_lt k.isLt]
    omega
  have hhigh : field 8 8 (distWord d k) = byte ((d >>> 6) &&& 0xFF) := by
    apply BitVec.eq_of_toNat_eq
    rw [Nat.and_two_pow_sub_one_eq_mod _ 8, field_toNat, distWord_toNat, byte_toNat (by omega),
      Nat.shiftRight_eq_div_pow]
    omega
  rw [halfBytes, hlow, hhigh, wordBytes, orCount_pair]

/-- The two bytes of M1 and M1B (R171, R172). -/
theorem shortBytes_orCount (d : Nat) (k : BitVec 2) :
    [(0#4 ++ BitVec.ofNat 2 d ++ k : Byte), byte (d >>> 2)] = orCount k.toNat (shortBytes d) := by
  rw [shortByte_eq, BitVec.toNat_ofNat, shortBytes, orCount_pair, Nat.and_two_pow_sub_one_eq_mod _ 2]

/-- The token's bytes are the match's, its count OR-ed in. -/
theorem encodeToken_matchToken (h : classify len dist plit = some c) (k : BitVec 2) :
    encodeToken (matchToken c len dist k) = orCount k.toNat (matchBytes c len dist) := by
  have hr := inRange_of_classify h
  cases c <;> simp only [MatchClass.InRange] at hr <;> simp only [matchToken, encodeToken, matchBytes, Operand.bytes]
  case m1 => exact shortBytes_orCount (dist - 1) k
  case m1b => exact shortBytes_orCount (dist - 2049) k
  case m2 =>
    rw [m2Byte_eq, BitVec.toNat_ofNat, BitVec.toNat_ofNat, Nat.mod_eq_of_lt (by omega), orCount_pair, and_seven]
  case m3 =>
    rw [m3Byte_eq, BitVec.toNat_ofNat, Nat.mod_eq_of_lt (by omega), halfBytes_distWord]
    exact (orCount_append _ [_] _ _).symm
  case m3X =>
    rw [halfBytes_distWord, zextBytes_eq]
    exact (orCount_append _ (_ :: _) _ _).symm
  case m4 =>
    rw [m4Byte_ofNat (by omega), halfBytes_distWord]
    exact (orCount_append _ [_] _ _).symm
  case m4X =>
    rw [m4Byte_ofNat (by omega), Nat.or_zero, halfBytes_distWord, zextBytes_eq]
    exact (orCount_append _ (_ :: _) _ _).symm

/-! ### It decodes -/

/-- A serialized match decodes to its token: O2's rule for the class, in a state that the class fits. -/
theorem matchToken_decodesBack (h : classify len dist plit = some c) {ctx : Context} (hctx : ctx ≠ .first)
    (hm1 : c = .m1 → ctx = .state123) (hm1b : c = .m1b → ctx = .state4)
    (hm3X : c = .m3X → (len - 34) / 255 ≤ Config.kMax) (hm4X : c = .m4X → (len - 10) / 255 ≤ Config.kMax)
    (k : BitVec 2) : DecodesBack ctx (matchToken c len dist k) := by
  have hr := inRange_of_classify h
  cases c <;> simp only [MatchClass.InRange] at hr
  case m1 => exact hm1 rfl ▸ decodesBack_m1 _ k _
  case m1b => exact hm1b rfl ▸ decodesBack_m1b _ k _
  case m2 =>
    have hl : 2 ≤ (BitVec.ofNat 3 (len - 1)).toNat := by rw [BitVec.toNat_ofNat]; omega
    exact decodesBack_m2 hctx hl _ k _
  case m3 => exact decodesBack_m3 hctx (ofNat_ne_zero (by omega) (by omega)) _
  case m3X => exact decodesBack_m3X hctx ((Nat.sub_sub len 33 1).symm ▸ hm3X rfl) (zextOf_b_ne_zero (by omega)) _
  case m4 =>
    exact decodesBack_m4 (.inl hctx) (ofNat_ne_zero (by omega) (by omega)) (not_terminator (by omega) (by omega) _ k)
  case m4X =>
    exact decodesBack_m4X (.inl hctx) ((Nat.sub_sub len 9 1).symm ▸ hm4X rfl) (zextOf_b_ne_zero (by omega)) _

/-- Settles O13: the bytes are those of the match's token with no trailing literals. -/
theorem serializedMatchDecodes : Obligations.SerializedMatchDecodes := by
  intro len dist plit c ctx rest h hctx hm1 hm1b hm3X hm4X
  have hbytes : encodeToken (matchToken c len dist 0) = matchBytes c len dist :=
    (encodeToken_matchToken h 0).trans (orCount_zero (matchBytes_length c len dist))
  have hdec := matchToken_decodesBack h hctx hm1 hm1b hm3X hm4X 0 rest
  rw [hbytes] at hdec
  exact ⟨_, hdec, matchOperands_matchToken h 0⟩

/-- Settles O14: the bytes with the count OR-ed in are those of the match's token with that count. -/
theorem oredTrailingCountDecodes : Obligations.OredTrailingCountDecodes := by
  rintro len dist plit n c ctx _ rest h hctx hm1 hm1b hm3X hm4X - hn rfl
  have hcount : (BitVec.ofNat 2 n).toNat = n := by rw [BitVec.toNat_ofNat]; omega
  have hdec := matchToken_decodesBack h hctx hm1 hm1b hm3X hm4X (BitVec.ofNat 2 n) rest
  rw [encodeToken_matchToken h, hcount, orCount_length] at hdec
  exact ⟨_, hdec, matchOperands_matchToken h _⟩

end Sys2Proof.Machine
end

section
/-! The encoder commands in their core step (42_token_encoder.md R180 to R183, 60_exceptions.md R204): which check ends
them, what they append, and their frame. -/

namespace Sys2Proof.Machine

variable {s : State} {c : Command} {last : EncLast} {m : Memory} {bs : List Byte}

/-! ### The append -/

theorem appendStream_full (h : s.eoutCap.toNat < s.eoutPos.toNat + bs.length) :
    appendStream c last m bs s = raise c .outputOverrun s := if_pos h

theorem appendStream_fits (h : s.eoutPos.toNat + bs.length ≤ s.eoutCap.toNat) :
    appendStream c last m bs s = appended last m bs s := if_neg (Nat.not_lt.2 h)

/-- Outside the stored bytes the memory is the one stored into. -/
theorem store_outside (s : State) (m : Memory) {b : Buffer} {p a : Nat} {bs : List Byte}
    (h : a < s.addr b p ∨ s.addr b (p + bs.length) ≤ a) :
    { s with mem := m.store (s.addr b p) bs }.cell a = { s with mem := m }.cell a := by
  rw [store_cell, if_neg (by omega)]

/-- The memory of `s` with bytes appended to the stream in `EOUT`. -/
def State.streamed (s : State) (bs : List Byte) : Memory := s.mem.store (s.addr .eout s.eoutPos.toNat) bs

theorem streamed_byteAt (s : State) {bs : List Byte} {j : Nat} (h : j < bs.length) :
    { s with mem := s.streamed bs }.byteAt .eout (s.eoutPos.toNat + j) = bs.getD j 0 := store_byteAt _ _ _ _ _ h

theorem streamed_outside (s : State) {bs : List Byte} {a : Nat}
    (h : a < s.addr .eout s.eoutPos.toNat ∨ s.addr .eout (s.eoutPos.toNat + bs.length) ≤ a) :
    { s with mem := s.streamed bs }.cell a = s.cell a := store_outside s s.mem h

/-! ### ENC_TERM and ENC_QUERY -/

/-- Settles O31. -/
theorem encTermRuns : Obligations.EncTermRuns := by
  intro s hp
  have hrun : exec .encTerm s = .next (runEncTerm s) := commandStep_run hp
  rw [hrun]
  refine ⟨fun hlast => ?again, fun hlast hfull => ?full, fun hlast hfits => ?fits⟩
  case again => rw [runEncTerm, if_pos hlast]; rfl
  case full => rw [runEncTerm, if_neg hlast, appendStream_full hfull]; rfl
  case fits =>
    rw [runEncTerm, if_neg hlast, appendStream_fits hfits]
    exact ⟨s.streamed termBytes, rfl, streamed_byteAt s (j := 0) (by decide), streamed_byteAt s (j := 1) (by decide),
      streamed_byteAt s (j := 2) (by decide), fun _ => streamed_outside s (bs := termBytes)⟩

/-- Settles O32: a register holds every cost, since a cost is at most a length's 255th part and 4. -/
theorem encQueryAnswers : Obligations.EncQueryAnswers := by
  intro s hp
  have hcost := cost_le s.encMlen.toNat s.encMdist.toNat s.encPlit.toNat
  have hlen := s.encMlen.isLt
  exact ⟨word (cost ..), word_toNat (by omega), commandStep_run hp⟩

/-! ### ENC_MATCH -/

theorem runEncMatch_refused (h : s.encLast = .none ∨ s.encLast = .terminated
    ∨ classify s.encMlen.toNat s.encMdist.toNat s.encPlit.toNat = none) :
    runEncMatch s = raise .encMatch .compressInternal s := by
  by_cases hlast : s.encLast = .none ∨ s.encLast = .terminated
  · exact if_pos hlast
  · rw [runEncMatch, if_neg hlast, (or_assoc.2 h).resolve_left hlast]

theorem runEncMatch_appends (hlast : s.encLast = .literal ∨ s.encLast = .matched) {c : MatchClass}
    (hc : classify s.encMlen.toNat s.encMdist.toNat s.encPlit.toNat = some c) : runEncMatch s =
    appendStream .encMatch .matched s.mem (matchBytes c s.encMlen.toNat s.encMdist.toNat) s := by
  rw [runEncMatch, if_neg (by rcases hlast with h | h <;> simp [h]), hc]

/-- Settles O30. -/
theorem encMatchRuns : Obligations.EncMatchRuns := by
  intro s hp
  have hrun : exec .encMatch s = .next (runEncMatch s) := commandStep_run hp
  rw [hrun]
  refine ⟨fun h => congrArg Host.Outcome.next (runEncMatch_refused h), ?_⟩
  rintro c _ hlast hc rfl
  rw [runEncMatch_appends hlast hc]
  refine ⟨fun hfull => ?full, fun hfits => ?fits⟩
  case full => rw [appendStream_full hfull]; rfl
  case fits =>
    rw [appendStream_fits hfits]
    exact ⟨s.streamed _, rfl, fun _ => streamed_byteAt s, fun _ => streamed_outside s⟩

/-! ### ENC_LIT -/

theorem runEncLit_empty (h : s.encLlen.toNat = 0) : runEncLit s = finish s := if_pos h

/-- The sequence, the source's length, and the OR form with no match before it (R180, R204). -/
theorem runEncLit_refused (hn : s.encLlen.toNat ≠ 0) (h : s.encLast = .literal ∨ s.encLast = .terminated
      ∨ s.esrcLen.toNat < s.encLstart.toNat + s.encLlen.toNat
      ∨ s.eoutPos.toNat ≠ 0 ∧ s.encLlen.toNat ≤ 3 ∧ s.encLast ≠ .matched) :
    runEncLit s = raise .encLit .compressInternal s := by
  rw [runEncLit, if_neg hn]
  by_cases hlast : s.encLast = .literal ∨ s.encLast = .terminated
  · exact if_pos hlast
  by_cases hsrc : s.esrcLen.toNat < s.encLstart.toNat + s.encLlen.toNat
  · rw [if_neg hlast, if_pos hsrc]
  obtain ⟨hp, h3, hm⟩ : s.eoutPos.toNat ≠ 0 ∧ s.encLlen.toNat ≤ 3 ∧ s.encLast ≠ .matched := by tauto
  rw [if_neg hlast, if_neg hsrc, litForm_orInto.2 ⟨hp, h3⟩]
  exact if_pos hm

theorem runEncLit_header {hdr : List Byte} (hn : s.encLlen.toNat ≠ 0)
    (hlast : s.encLast = .none ∨ s.encLast = .matched) (hsrc : s.encLstart.toNat + s.encLlen.toNat ≤ s.esrcLen.toNat)
    (hform : litForm s.eoutPos.toNat s.encLlen.toNat = .header hdr) :
    runEncLit s = appendStream .encLit .literal s.mem (hdr ++ runLiterals s) s := by
  rw [runEncLit, if_neg hn, if_neg (by rcases hlast with h | h <;> simp [h]), if_neg (by omega), hform]

theorem runEncLit_orInto (hn : s.encLlen.toNat ≠ 0) (hm : s.encLast = .matched)
    (hsrc : s.encLstart.toNat + s.encLlen.toNat ≤ s.esrcLen.toNat) (hp : s.eoutPos.toNat ≠ 0)
    (h3 : s.encLlen.toNat ≤ 3) :
    runEncLit s = appendStream .encLit .literal (orTrailing s.encLlen.toNat s) (runLiterals s) s := by
  rw [runEncLit, if_neg hn, if_neg (by simp [hm]), if_neg (by omega), litForm_orInto.2 ⟨hp, h3⟩]
  exact if_neg (not_not.2 hm)

theorem header_length (hdr : List Byte) (s : State) :
    (hdr ++ runLiterals s).length = hdr.length + s.encLlen.toNat := by
  rw [List.length_append, runLiterals_length]

/-- Settles O29. -/
theorem encLitRefuses : Obligations.EncLitRefuses := by
  intro s hp hn
  have hrun : exec .encLit s = .next (runEncLit s) := commandStep_run hp
  rw [hrun]
  refine ⟨fun h => congrArg Host.Outcome.next (runEncLit_refused hn h), fun hlast hsrc =>
    ⟨fun hdr hform hfull => ?header, fun hpos h3 hm hfull => ?orInto⟩⟩
  case header =>
    rw [runEncLit_header hn hlast hsrc hform, appendStream_full (by rw [header_length]; omega)]
    rfl
  case orInto =>
    rw [runEncLit_orInto hn hm hsrc hpos h3, appendStream_full (by rwa [runLiterals_length])]
    rfl

theorem runLiterals_getD {j : Nat} (h : j < s.encLlen.toNat) :
    (runLiterals s).getD j 0 = s.byteAt .esrc (s.encLstart.toNat + j) := bytesFrom_getD _ _ _ _ h _

theorem orTrailing_count (n : Nat) (s : State) : { s with mem := orTrailing n s }.byteAt .eout (s.eoutPos.toNat - 2) =
    s.byteAt .eout (s.eoutPos.toNat - 2) ||| byte n := (Memory.read_write ..).trans (if_pos rfl)

/-- Settles O28: the row of the run, the checks passed, and the bytes it appends. -/
theorem encLitEmits : Obligations.EncLitEmits := by
  intro s hp
  have hrun : exec .encLit s = .next (runEncLit s) := commandStep_run hp
  rw [hrun]
  refine ⟨fun hn => congrArg Host.Outcome.next (runEncLit_empty hn), fun hdr hn hlast hsrc hrow hfits => ?header,
    fun hn h3 hm hpos hsrc hfits => ?orInto⟩
  case header =>
    have hlen := header_length hdr s
    have hend : s.eoutPos.toNat + (hdr ++ runLiterals s).length = s.eoutPos.toNat + hdr.length + s.encLlen.toNat := by
      omega
    rw [runEncLit_header hn hlast hsrc (litForm_header_iff.2 hrow), appendStream_fits (hend ▸ hfits)]
    refine ⟨s.streamed (hdr ++ runLiterals s), by rw [← hend]; rfl, fun j hj => ?_, fun j hj => ?_,
      fun a ha => ?_⟩
    · rw [streamed_byteAt s (by omega), List.getD_append _ _ _ _ hj]
    · rw [Nat.add_assoc, streamed_byteAt s (by omega), List.getD_append_right _ _ _ _ (by omega),
        Nat.add_sub_cancel_left, runLiterals_getD hj]
    · exact streamed_outside s (hend.symm ▸ ha)
  case orInto =>
    have hlen := runLiterals_length s
    rw [runEncLit_orInto hn hm hsrc (by omega) h3, appendStream_fits (hlen.symm ▸ hfits)]
    refine ⟨(orTrailing s.encLlen.toNat s).store (s.addr .eout s.eoutPos.toNat) (runLiterals s), by rw [← hlen]; rfl,
      ?_, fun j hj => ?_, fun a ha ha' => ?_⟩
    · have hbefore : s.addr .eout (s.eoutPos.toNat - 2) < s.addr .eout s.eoutPos.toNat := by
        simp only [State.addr]
        omega
      exact (store_outside s _ (.inl hbefore)).trans (orTrailing_count _ s)
    · exact (store_byteAt _ _ _ _ _ (hlen.symm ▸ hj)).trans (runLiterals_getD hj)
    · exact (store_outside s _ (hlen.symm ▸ ha')).trans (Memory.read_write_other _ _ _ ha)

end Sys2Proof.Machine
end

section
/-! The error end of a command (60_exceptions.md R203, R205, R207): what it records, the first decoder step's checks that end
in it, and that a core step which ends in an error is nothing else than it. -/

namespace Sys2Proof.Machine

variable {s t : State}

/-- Settles O34. -/
theorem errorEndOfCommand : Obligations.ErrorEndOfCommand := by
  intro c e s
  refine ⟨fun hc => hc ▸ rfl, fun hc => ?_⟩
  cases c with
  | decStart => exact absurd rfl hc
  | brcCopy | encLit | encMatch | encTerm | encQuery => rfl

/-! ### The checks of the first decoder step (R203) -/

theorem firstFetch_no_outLen (h : s.olset = false) :
    firstFetch s = .out (.next (raise .decStart .optionsRequired s)) := if_pos h

theorem firstFetch_no_input (h : s.olset = true) (hlen : s.inLen = 0) :
    firstFetch s = .out (.next (raise .decStart .emptyInput s)) := by
  rw [firstFetch, if_neg (by simp [h]), if_pos hlen]

/-- Settles O38: the first step fetches no token where a check fails, but that check's error end. -/
theorem firstStepChecks : Obligations.FirstStepChecks := by
  intro s hh ha hp
  have hstep : step s = (firstFetch s).outcome := by
    rw [step_core hh, coreStep_phase (attached_overBound ha) (attached_overlap ha), phaseFetch_first hp]
  rw [hstep]
  refine ⟨fun hset => ?_, fun hset hlen => ?_⟩
  · rw [firstFetch_no_outLen hset]; rfl
  · rw [firstFetch_no_input hset hlen]; rfl

/-! ### A core step that ends in an error (R207) -/

/-- `t` is the error end of a command that ran on `s`. -/
def ErrorEnd (s t : State) : Prop := ∃ c e, t = raise c e s

/-- A token that does not fail keeps `ERR`, and the end of the stream clears it. -/
theorem DecoderStep.errorEnd (ht : DecoderStep s t) (hs : s.err = false) (herr : t.err = true) : ErrorEnd s t := by
  cases ht with
  | failed e => exact ⟨.decStart, e, rfl⟩
  | done n => exact absurd herr Bool.false_ne_true
  | literals | matched => exact absurd (hs.symm.trans herr) Bool.false_ne_true

theorem runBrcCopy_errorEnd (herr : (runBrcCopy s).err = true) : ErrorEnd s (runBrcCopy s) := by
  obtain ⟨e, -, h⟩ | ⟨-, h⟩ := runBrcCopy_cases s
  · exact ⟨.brcCopy, e, h⟩
  · rw [h] at herr
    exact absurd herr Bool.false_ne_true

theorem EncoderResult.errorEnd (ht : EncoderResult s t) (herr : t.err = true) : ErrorEnd s t := by
  cases ht with
  | done => exact absurd herr Bool.false_ne_true
  | failed c e => exact ⟨c, e, rfl⟩
  | appended => exact absurd herr Bool.false_ne_true

theorem CoreResult.errorEnd (ht : CoreResult s t) (hp : s.phase ≠ .idle) (hs : s.err = false) (herr : t.err = true) :
    ErrorEnd s t := by
  cases ht with
  | idle h => exact absurd h hp
  | decoder hd ht => exact ht.errorEnd hs herr
  | brcCopy => exact runBrcCopy_errorEnd herr
  | encLit => exact (runEncLit_result s).errorEnd herr
  | encMatch => exact (runEncMatch_result s).errorEnd herr
  | encTerm => exact (runEncTerm_result s).errorEnd herr
  | encQuery => exact absurd herr Bool.false_ne_true

/-- Settles O55: a running command has cleared `ERR`, so a step that leaves it set is an error end, and that writes no
byte. -/
theorem errorWritesNoBuffer : Obligations.ErrorWritesNoBuffer := by
  intro s t h hh hp hstep herr
  have ht : CoreResult s t := coreStep_result (step_core hh ▸ hstep)
  obtain ⟨c, e, rfl⟩ := ht.errorEnd hp (h.busy_clear hp).2 herr
  exact raise_mem s c e

end Sys2Proof.Machine
end

section
/-! Reset (70_reset_and_hazards.md R230 to R232): the registers it restores and the bytes of memory it leaves. -/

namespace Sys2Proof.Machine

variable {s : State} {b : Buffer} {lo hi a : Nat}

/-! ### The range of an aborted command (R232) -/

theorem abortRange_eq_none : abortRange s = none ↔ s.phase = .idle := by
  unfold abortRange
  cases s.phase <;> simp [Phase.command?]

/-- The command that has an aborted range, and the registers that bound the range. -/
theorem abortRange_eq_some (h : abortRange s = some (b, lo, hi)) :
    s.decoding ∧ b = .dst ∧ lo = 0 ∧ hi = s.outLen.toNat
    ∨ s.phase = .brcRun ∧ b = .dst ∧ lo = s.brcPos.toNat ∧ hi = s.brcPos.toNat + s.brcLen.toNat
    ∨ (s.phase = .encLitRun ∨ s.phase = .encMatchRun ∨ s.phase = .encTermRun ∨ s.phase = .encQueryRun)
      ∧ b = .eout ∧ lo = s.eoutPos.toNat - 2 ∧ hi = s.eoutCap.toNat := by
  unfold abortRange at h
  unfold State.decoding
  cases hp : s.phase <;> simp [hp, Phase.command?] at h <;> simp [← h]

theorem seedAt_cons_outside {v : Void} {vs : List Void} (h : v.covers a = false) :
    seedAt (v :: vs) a = seedAt vs a := if_neg (Bool.eq_false_iff.1 h)

/-- Leaving a range of a buffer unspecified changes no byte that is not at one of its attached offsets. -/
theorem leaveVoid_cell_outside (h : ¬∃ i < s.platform.size b, lo ≤ i ∧ i < hi ∧ a = s.addr b i) :
    (leaveVoid b lo hi s).cell a = s.cell a := by
  have hout : ¬(s.addr b lo ≤ a ∧ a < s.addr b (min hi (s.platform.size b))) := fun ⟨h1, h2⟩ => by
    simp only [State.addr] at h h1 h2
    exact h ⟨a - (s.platform.window b).base, by omega, by omega, by omega, by omega⟩
  have hget : (leaveVoid b lo hi s).mem.get? a = s.mem.get? a := (Memory.get?_forget ..).trans (if_neg hout)
  have hseed : (leaveVoid b lo hi s).unlisted a = s.unlisted a :=
    congrArg (Config.freeByte · a) (seedAt_cons_outside (by simpa [Void.covers] using hout))
  rw [State.cell, State.cell, Memory.read, Memory.read, hget, hseed]

/-! ### The reset -/

/-- Whatever runs, a reset gives the registers their reset values on a state with the platform and the host of the old
one (log 19). -/
theorem resetCore_eq_resetRegisters (s : State) :
    ∃ u, resetCore s = resetRegisters u ∧ u.platform = s.platform ∧ u.host = s.host := by
  unfold resetCore
  split
  · exact ⟨s, rfl, rfl, rfl⟩
  · exact ⟨_, rfl, rfl, rfl⟩

@[simp] theorem resetCore_platform (s : State) : (resetCore s).platform = s.platform := by
  obtain ⟨u, hu, hplat, -⟩ := resetCore_eq_resetRegisters s
  rw [hu, resetRegisters_platform, hplat]

@[simp] theorem resetCore_host (s : State) : (resetCore s).host = s.host := by
  obtain ⟨u, hu, -, hhost⟩ := resetCore_eq_resetRegisters s
  rw [hu, resetRegisters_host, hhost]

/-- A reset leaves every byte outside the range of the command it aborts, if it aborts one. -/
theorem resetCore_cell_outside
    (h : ∀ b lo hi, abortRange s = some (b, lo, hi) → ¬∃ i < s.platform.size b, lo ≤ i ∧ i < hi ∧ a = s.addr b i) :
    (resetCore s).cell a = s.cell a := by
  unfold resetCore
  split
  · exact resetRegisters_cell s a
  · rename_i b lo hi hr
    exact (resetRegisters_cell _ a).trans (leaveVoid_cell_outside (h b lo hi hr))

theorem resetRegisters_statusWord (s : State) : statusWord (resetRegisters s) = 0 := by
  have h : statusWord (resetRegisters s) = statusWord State.reset := rfl
  rw [h]
  decide

/-- An idle core has no command to abort (R231). -/
theorem resetCore_cell_idle (hp : s.phase = .idle) (a : Nat) : (resetCore s).cell a = s.cell a :=
  resetCore_cell_outside fun b lo hi hr => by
    rw [abortRange_eq_none.2 hp] at hr
    cases hr

/-- Settles O35, register by register. -/
theorem resetRestoresRegisters : Obligations.ResetRestoresRegisters := by
  intro s rest h
  obtain ⟨u, hu, hplat, -⟩ := resetCore_eq_resetRegisters { s with host := rest }
  refine ⟨resetRegisters u, by rw [step_reset h, hu], rfl, resetRegisters_statusWord u, rfl, rfl, rfl, rfl, rfl, rfl, rfl,
    rfl, rfl, rfl, rfl, rfl, rfl, rfl, rfl, rfl, hplat, fun hp a => ?_⟩
  have hcell : (resetRegisters u).cell a = { s with host := rest }.cell a :=
    hu ▸ resetCore_cell_idle (s := { s with host := rest }) hp a
  exact hcell.trans (cell_congr rfl rfl a)

/-- Settles O36, by the command that is aborted. -/
theorem abortKeepsOtherBytes : Obligations.AbortKeepsOtherBytes := by
  intro s rest h
  refine ⟨_, step_reset h, resetCore_host _, resetCore_platform _, fun a hdec hbrc henc => ?_⟩
  have hout : ∀ b lo hi, abortRange { s with host := rest } = some (b, lo, hi) →
      ¬∃ i < s.platform.size b, lo ≤ i ∧ i < hi ∧ a = s.addr b i := by
    rintro b lo hi hr ⟨i, hsize, hlo, hhi, ha⟩
    obtain ⟨hp, rfl, rfl, rfl⟩ | ⟨hp, rfl, rfl, rfl⟩ | ⟨hp, rfl, rfl, rfl⟩ := abortRange_eq_some hr
    · exact hdec ⟨hp, i, hsize, hhi, ha⟩
    · exact hbrc ⟨hp, i, hsize, hlo, hhi, ha⟩
    · exact henc ⟨hp, i, hsize, hlo, hhi, ha⟩
  exact (resetCore_cell_outside hout).trans (cell_congr rfl rfl a)

end Sys2Proof.Machine
end

section
/-! The dutiful host (70_reset_and_hazards.md R246), whose every step answers a next state, and the buffers it re-attaches
(R233). -/

namespace Sys2Proof.Machine

variable {s : State} {b : Buffer} {w : Window} {rest : List HostAction}

/-! ### The steps of a dutiful host -/

/-- With the duties towards the running command's buffers kept, the core step of every phase answers a next state. -/
theorem coreStep_answers (ha : s.Attached) : ∃ t, coreStep s = .next t := by
  by_cases hi : s.phase = .idle
  · exact ⟨s, coreStep_idle hi⟩
  · by_cases hd : s.decoding
    · obtain ⟨t, ht, -⟩ := decoder_step (attached_overBound ha) (attached_overlap ha) hd
      exact ⟨t, ht⟩
    · obtain ⟨t, ht, -⟩ := coreStep_command_ends ha hi hd
      exact ⟨t, ht⟩

theorem step_coreAction_answers (h : s.host = .core :: rest) (ha : s.Attached) : ∃ t, step s = .next t := by
  obtain ⟨t, ht⟩ := coreStep_answers ha
  exact ⟨{ t with host := rest }, by rw [step_coreAction h, coreStep_withHost, ht]; rfl⟩

/-- A host write starts a command only on an idle core, which accepts it. -/
theorem step_write_answers {addr width : Nat} {x : Word} (h : s.host = .write addr width x :: rest) :
    ∃ t, step s = .next t := by
  rw [step_write h]
  split
  · rename_i i hc
    obtain ⟨hp, -, -, -, ht⟩ := hostCommand_eq_some hc
    obtain ⟨c, hc⟩ := exec_command_idle ht hp
    exact ⟨_, hc⟩
  · exact ⟨_, rfl⟩

theorem step_bufRead_answers {off : Nat} (h : s.host = .bufRead b off :: rest) (ho : off < s.platform.size b) :
    ∃ t, step s = .next t := by
  cases hu : s.inUse (s.addr b off) with
  | false => exact ⟨_, step_bufRead_unused h ho hu⟩
  | true =>
    obtain ⟨v, n, hstep⟩ := step_bufRead_used h ho hu
    exact ⟨_, hstep⟩

theorem step_attach_unused (h : s.host = .attach b w :: rest) (hu : s.uses b = false) :
    step s = .next { s with host := rest, platform := s.platform.attach b w } :=
  (step_attach h).trans (if_neg (Bool.eq_false_iff.1 hu))

/-- Settles O58: the core step of the running command, or the host's next action by its duty. -/
theorem dutifulHostNeverStops : Obligations.DutifulHostNeverStops := by
  intro s ha hdutiful
  cases hh : s.host with
  | nil =>
    rw [step_core hh]
    exact coreStep_answers ha
  | cons action rest =>
    have hduty : action.dutiful s := hdutiful action rest hh
    cases action with
    | write addr width x => exact step_write_answers hh
    | read addr width => exact ⟨_, step_hostRead hh⟩
    | bufWrite b off x =>
      obtain ⟨ho, hu⟩ := hduty
      exact ⟨_, step_bufWrite_unused hh ho hu⟩
    | bufRead b off => exact step_bufRead_answers hh hduty
    | attach b w => exact ⟨_, step_attach_unused hh hduty⟩
    | reset => exact ⟨_, step_reset hh⟩
    | core => exact step_coreAction_answers hh ha

/-! ### Re-attached buffers (R233) -/

theorem attach_size (p : Platform) (b c : Buffer) (w : Window) :
    (p.attach b w).size c = if c = b then w.size else p.size c := by
  rw [Platform.size, attach_window, apply_ite Window.size]
  rfl

theorem attach_byteAt_same (s : State) (b : Buffer) (w : Window) (i : Nat) :
    { s with platform := s.platform.attach b w }.byteAt b i = s.cell (w.base + i) := by
  have haddr : { s with platform := s.platform.attach b w }.addr b i = w.base + i := by
    simp only [State.addr, attach_window, if_true]
  rw [State.byteAt, haddr]
  exact cell_congr rfl rfl _

theorem attach_byteAt_other (s : State) {c : Buffer} (w : Window) (i : Nat) (h : c ≠ b) :
    { s with platform := s.platform.attach b w }.byteAt c i = s.byteAt c i := by
  have haddr : { s with platform := s.platform.attach b w }.addr c i = s.addr c i := by
    simp only [State.addr, attach_window, if_neg h]
  rw [State.byteAt, haddr]
  exact cell_congr rfl rfl _

/-- A buffer re-attached at one of its own addresses shows the bytes from there on. -/
theorem attach_byteAt_shifted {off : Nat} (h : w.base = s.addr b off) (i : Nat) :
    { s with platform := s.platform.attach b w }.byteAt b i = s.byteAt b (off + i) := by
  rw [attach_byteAt_same, h, State.byteAt, State.addr, State.addr, Nat.add_assoc]

/-- Settles O60: no running command uses the buffer, so its window moves at once. -/
theorem attachMovesBuffer : Obligations.AttachMovesBuffer := by
  intro s b w rest h hunused
  have hu : s.uses b = false := Bool.eq_false_iff.2 fun hu => hunused (uses_iff.1 hu)
  refine ⟨s.platform.attach b w, step_attach_unused h hu, attach_regBase .., fun c => attach_size ..,
    attach_byteAt_same s b w, fun c i hc => attach_byteAt_other s w i hc, fun hsrc hbase => ?_⟩
  subst hsrc
  exact attach_byteAt_shifted hbase

end Sys2Proof.Machine
end
